-- ==== Sys2Proof/Word.lean ====
section
/-! DEFINITION. The word types of the block: every time and duration is 32 bits, every pin-valued field 8 bits
(spec/92_eei_decisions.md D2). -/

namespace Sys2Proof

/-- A 32-bit value: a cycle of the counter, a number of cycles, a mask or a register (R1, R3). Arithmetic is modulo
2^32, which is what `BitVec 32` computes. -/
abbrev Word := BitVec 32

/-- An 8-bit pin-valued field or operand (R11, R25, R26). -/
abbrev Byte := BitVec 8

end Sys2Proof
end

