-- ==== Sys2Proof/Syntax.lean ====
section
/-! DEFINITION. The instructions: five commands and one event, one constructor for each row of
spec/opcode_table.json. -/

namespace Sys2Proof

/-- What selects an instruction: a word written to `CMD_F`, a word written to `CMD_I`, or the timer's interrupt line
(R66, R68, R69). -/
inductive Port where
  | f
  | i
  | irq
deriving DecidableEq, Repr, Inhabited

/-- The instructions, with the fields of their command words (R61). The four duration operands of the two starts stand
in `ARG[0..3]`, not in the word. -/
inductive Instr where
  /-- `START_US`: start or update a waveform, durations in microseconds (R80). -/
  | startUs (autoPwm : Bool) (align pin : Byte)
  /-- `START_CCY`: start or update a waveform, durations in clock cycles (R81). -/
  | startCcy (autoPwm : Bool) (align pin : Byte)
  /-- `STOP`: stop a waveform, from the foreground (R100). -/
  | stop (pin : Byte)
  /-- `SETCB`: register (`en = 1`) or unregister the periodic callback (R110). -/
  | setcb (en : Bool)
  /-- `ISTOP`: stop a waveform, from an ordinary interrupt (R107). -/
  | istop (pin : Byte)
  /-- `SERVICE`: the Scheduler runs once (R120). -/
  | service
deriving DecidableEq, Repr, Inhabited

end Sys2Proof
end

