-- ==== Sys2Proof/WellFormed.lean ====
section
/-! DEFINITION. Which instruction may come through which port. Every field of `Instr` has exactly the width of its
field in the command word (R61), so a term is ill-formed only on a port that does not accept its row. -/

namespace Sys2Proof

/-- The port that selects an instruction: the tables of R66 (port F) and R68 (port I), and R69 for `SERVICE`. -/
def Instr.port : Instr → Port
  | .startUs .. => .f
  | .startCcy .. => .f
  | .stop _ => .f
  | .setcb _ => .f
  | .istop _ => .i
  | .service => .irq

/-- `i` is well formed as an instruction of port `p`: the port's table has its row. The `START_*` and `SETCB`
patterns are illegal on port I (R68); `SERVICE` is no command of either port (R69). -/
abbrev Instr.WellFormedOn (p : Port) (i : Instr) : Prop := i.port = p

end Sys2Proof
end

