-- ==== Sys2Proof/Decode.lean ====
section
/-! DEFINITION. Decoding of a command word by the tables of 30_encoding.md (R61, R64, R66 to R69), total and rejecting
by name, and after it the encoder. -/

namespace Sys2Proof

/-- Why a word selects no instruction. -/
inductive DecodeError where
  /-- The word selects no row of port F's table: `E_ILLEGAL_CMD` (R67). -/
  | illegalOnPortF
  /-- The word selects no row of port I's table: `E_ILLEGAL_CMD` (R67, R68). -/
  | illegalOnPortI
  /-- The interrupt line is not asserted (R69). -/
  | lineNotAsserted
deriving DecidableEq, Repr

/-- The field `pin`, bits 15..8 (R61, R64). -/
def fieldPin (w : Word) : Byte := w.extractLsb' 8 8

/-- The field `align`, bits 23..16, kept as its 8 bits; `s8` of them is the operand (R64). -/
def fieldAlign (w : Word) : Byte := w.extractLsb' 16 8

/-- The field `autoPwm`, bit 24 (R61, R64). -/
def fieldAutoPwm (w : Word) : Bool := w.getLsbD 24

/-- The field `en`, bit 8 (R61, R64). -/
def fieldEn (w : Word) : Bool := w.getLsbD 8

/-- One row of a port's table: it is selected by `w &&& mask = pattern` (R66). -/
structure Row where
  mask    : Word
  pattern : Word
  read    : Word → Instr

/-- The table of port F (R66). -/
def rowsF : List Row :=
  [ ⟨0xFE0000FF#32, 0x00000001#32, fun w => .startUs (fieldAutoPwm w) (fieldAlign w) (fieldPin w)⟩,
    ⟨0xFE0000FF#32, 0x00000002#32, fun w => .startCcy (fieldAutoPwm w) (fieldAlign w) (fieldPin w)⟩,
    ⟨0xFFFF00FF#32, 0x00000003#32, fun w => .stop (fieldPin w)⟩,
    ⟨0xFFFFFEFF#32, 0x00000004#32, fun w => .setcb (fieldEn w)⟩ ]

/-- The table of port I (R68): one row, the pattern of `STOP`, told apart by the port. -/
def rowsI : List Row :=
  [ ⟨0xFFFF00FF#32, 0x00000003#32, fun w => .istop (fieldPin w)⟩ ]

/-- The first row a word selects; the rows of each table are disjoint (R66). -/
def selectRow (rows : List Row) (w : Word) : Option Instr :=
  (rows.find? fun r => w &&& r.mask == r.pattern).map fun r => r.read w

/-- Decoding of what stands on a port. On the interrupt line only bit 0 exists and asserted is 1 (R69). -/
def decode (p : Port) (w : Word) : Except DecodeError Instr :=
  match p with
  | .f => match selectRow rowsF w with
    | some i => .ok i
    | none => .error .illegalOnPortF
  | .i => match selectRow rowsI w with
    | some i => .ok i
    | none => .error .illegalOnPortI
  | .irq => if w = 1#32 then .ok .service else .error .lineNotAsserted

/-- The command word of an instruction, by the formats of R61 and the patterns of R66 and R68; for `SERVICE` the
interrupt line asserted (R69). It is written to the instruction's own port, `Instr.port`. -/
def encode : Instr → Word
  | .startUs autoPwm align pin => 0#7 ++ BitVec.ofBool autoPwm ++ align ++ pin ++ 0#4 ++ 1#4
  | .startCcy autoPwm align pin => 0#7 ++ BitVec.ofBool autoPwm ++ align ++ pin ++ 0#4 ++ 2#4
  | .stop pin => 0#16 ++ pin ++ 0#4 ++ 3#4
  | .setcb en => 0#23 ++ BitVec.ofBool en ++ 0#4 ++ 4#4
  | .istop pin => 0#16 ++ pin ++ 0#4 ++ 3#4
  | .service => 1#32

/-- Where a table row's bits are presented: the one row of less than a command word is `SERVICE`, whose one bit is the
interrupt line (R69); every other row is a 32-bit command word, presented to port F. `STOP` and `ISTOP` have the same
bits (R68) and only the port tells them apart, so this reading answers `STOP`. Log 7. -/
def tablePort (nbits : Nat) : Port := if nbits ≤ 8 then .irq else .f

/-- What the decoder reads from a row of spec/opcode_table.json whose bits are `w`. -/
def decodeTableWord (nbits w : Nat) : Option Instr :=
  if w < 2 ^ 32 then (decode (tablePort nbits) (BitVec.ofNat 32 w)).toOption else none

end Sys2Proof
end

