-- ==== Sys2Proof/Config.lean ====
section
/-! DEFINITION. What an implementation fixes (the record `Cfg` of 00_scope.md section 4), what the environment does
(the inputs of one run) and the free values: constants with no body, for what the spec leaves open. -/

namespace Sys2Proof

/-- The `Nudge` parameter of `Cfg` (R149, R150; D23 OPEN). A function cannot stand in plain data, so the record names
one: the spec's default formula, or the `k`-th function of a platform's own, which is a free value. -/
inductive NudgeRule where
  | standard
  | platform (k : Nat)
deriving DecidableEq, Repr, Inhabited

/-- The implementation parameters of 00_scope.md section 4, before their constraints. -/
structure CfgData where
  npins          : Nat          -- `NPINS`
  flashPins      : List Nat     -- `FLASH_PINS`
  rmwPin         : Option Nat   -- `RMW_PIN`
  ccyPerUs       : Nat          -- `CCY_PER_US`
  minServiceCcys : Nat          -- `MIN_SERVICE_CCYS`
  isrBudgetCcys  : Nat          -- `ISR_BUDGET_CCYS`
  irqLatencyCcys : Nat          -- `IRQ_LATENCY_CCYS`
  minRearmCcys   : Nat          -- `MIN_REARM_CCYS`
  maxRearmCcys   : Nat          -- `MAX_REARM_CCYS`
  idleDelayCcys  : Nat          -- `IDLE_DELAY_CCYS`
  kickCcys       : Nat          -- `KICK_CCYS`
  nudgeRule      : NudgeRule    -- `Nudge`
deriving DecidableEq, Repr

/-- The constraints of the table of 00_scope.md section 4. `Nudge(0, D, I) = 0` is met by `Cfg.nudge` itself. -/
abbrev CfgData.Constraints (c : CfgData) : Prop :=
  1 ≤ c.npins ∧ c.npins ≤ 32
    ∧ (∀ p ∈ c.flashPins, p < c.npins)
    ∧ (∀ p ∈ c.rmwPin.toList, p < c.npins)
    ∧ 1 ≤ c.ccyPerUs
    ∧ (1 ≤ c.minServiceCcys ∧ c.minServiceCcys < 2 ^ 30)
    ∧ (1 ≤ c.isrBudgetCcys ∧ c.isrBudgetCcys < 2 ^ 30)
    ∧ c.irqLatencyCcys < 2 ^ 30
    ∧ (1 ≤ c.minRearmCcys ∧ c.minRearmCcys ≤ c.maxRearmCcys)
    ∧ c.maxRearmCcys < 2 ^ 30
    ∧ c.idleDelayCcys < 2 ^ 30
    ∧ (1 ≤ c.kickCcys ∧ c.kickCcys < 2 ^ 30)

/-- The configuration record `Cfg` (R9). A record outside the constraints is refused by a model (U2): here it cannot
be written down, since the record carries the proof. Log 3. -/
structure Cfg extends CfgData where
  valid : toCfgData.Constraints
deriving DecidableEq, Repr

/-- The sample configuration CFG-S of 95_test_vectors.md section 1.1. -/
def Config.cfgS : Cfg where
  npins := 8
  flashPins := []
  rmwPin := some 7
  ccyPerUs := 1
  minServiceCcys := 1000
  isrBudgetCcys := 50
  irqLatencyCcys := 5
  minRearmCcys := 5
  maxRearmCcys := 1000
  idleDelayCcys := 1000
  kickCcys := 5
  nudgeRule := .standard
  valid := by decide

/-- The sample configuration CFG-T of 95_test_vectors.md section 1.1. -/
def Config.cfgT : Cfg where
  npins := 17
  flashPins := [9, 10, 11]
  rmwPin := some 16
  ccyPerUs := 80
  minServiceCcys := 800000
  isrBudgetCcys := 1440
  irqLatencyCcys := 160
  minRearmCcys := 160
  maxRearmCcys := 800000
  idleDelayCcys := 800000
  kickCcys := 160
  nudgeRule := .standard
  valid := by decide

/-- Who issues a bus access (R177): the foreground or an ordinary interrupt handler. The Scheduler issues none. -/
inductive Context where
  | foreground
  | interrupt
deriving DecidableEq, Repr, Inhabited

/-- What happens next, as the environment orders it (U10). One step of the machine is one input. Log 1. -/
inductive Input where
  /-- Port F takes its next atomic step, if R171 lets it. -/
  | portF
  /-- Port I takes its next atomic step. -/
  | portI
  /-- The host takes the pending timer interrupt (R186). -/
  | timerIrq
  /-- `n` cycles pass and nothing else happens; the timer fires on the way if it is armed (R186). -/
  | elapse (n : Nat)
  /-- `MemRead(BASE + off, width)`. -/
  | busRead (ctx : Context) (off width : Nat)
  /-- `MemWrite(BASE + off, width, v)`. -/
  | busWrite (ctx : Context) (off width : Nat) (v : Word)
  /-- The reset input is asserted (R195). -/
  | reset
deriving DecidableEq, Repr, Inhabited

/-- FREE VALUE: the environment's next input once the given ones are used up (U10). Log 1. -/
opaque Config.freeInput : Nat → Input

/-- FREE VALUE: the cycles a read of the counter takes beyond the least (U7, U8, U17). 31 bits cover every span that
R181 (c) allows. Log 2. -/
opaque Config.freeDelay : Nat → BitVec 31

/-- FREE VALUE: the reply of `Callback()`, any `u32` (U9, R187). Log 2. -/
opaque Config.freeReply : Nat → Word

/-- FREE VALUE: the quotient of a division by zero, of which the spec says "any value" (U3). Log 11. -/
opaque Config.freeQuotient : Nat → Nat

/-- FREE VALUE: the `k`-th platform's own `Nudge(o, D, I)` for `o ≠ 0` (D23 OPEN). Log 12. -/
opaque Config.freeNudge : Nat → Word → Word → Word → Word

end Sys2Proof
end

