-- ==== Sys2Proof/Machine/State.lean ====
section
/-! DEFINITION. The state of the block (10_state.md), its outcomes, and its value after reset (R35, R195). -/

namespace Sys2Proof.Machine

/-- The four commands of port F, as the latch `opF` holds them (R11). -/
inductive Op where
  | startUs
  | startCcy
  | stop
  | setcb
deriving DecidableEq, Repr, Inhabited

/-- The lifecycle mode of a descriptor (R19). Its stored code is `Mode.code` (R62). -/
inductive Mode where
  | infinite
  | expires
  | updateExpiry
  | init
deriving DecidableEq, Repr, Inhabited

/-- The steps `T0` to `T5` of `STOP` and `ISTOP` (R100, R107). -/
inductive StopStep where
  | t0
  | t1
  | t2
  | t3
  | t4
  | t5
deriving DecidableEq, Repr, Inhabited

/-- The phase register of port F (R12): `IDLE` or the next step of the command in progress. -/
inductive PhaseF where
  | idle
  | v
  | f1
  | f2
  | f3
  | f4
  | f5
  | f6
  | f7
  | f8
  | f9
  | f10
  | f11
  | f12
  | l5
  | l6
  | l7
  | l8
  | l9
  | t (k : StopStep)
  | c0
  | c1
deriving DecidableEq, Repr, Inhabited

/-- The phase register of port I (R12). -/
inductive PhaseI where
  | idle
  | t (k : StopStep)
deriving DecidableEq, Repr, Inhabited

/-- The two command ports, for the steps that `STOP` and `ISTOP` share (R107). -/
inductive CmdPort where
  | f
  | i
deriving DecidableEq, Repr, Inhabited

/-- `NONE`, the stored "no pin" (R63). -/
abbrev pinNone : Byte := 0xFF#8

/-- One descriptor of the Waveform Table (R14 to R21). -/
structure Desc where
  nextEventCcy  : Word
  nextPeriodCcy : Word
  endDutyCcy    : Word
  dutyCcys      : Word
  periodCcys    : Word
  expiryCcy     : Word
  mode          : Mode
  alignPhase    : Byte
  autoPwm       : Bool
deriving DecidableEq, Repr, Inhabited

/-- The command latch of port F (R11). -/
structure LatchF where
  op      : Op
  pin     : Byte
  align   : Byte
  autoPwm : Bool
  en      : Bool
  high    : Word
  low     : Word
  run     : Word
  offset  : Word
  duty    : Word
  period  : Word
  live    : Bool
deriving DecidableEq, Repr, Inhabited

/-- The command latch of port I (R38). -/
structure LatchI where
  pin  : Byte
  live : Bool
deriving DecidableEq, Repr, Inhabited

/-- Why a command fails (R166). Not observable (R7): no state holds it. -/
inductive Cause where
  | illegalCmd
  | pinRange
  | pinFlash
  | alignRange
  | periodNonpos
  | dutyGtPeriod
  | dormant
deriving DecidableEq, Repr

/-- How a `GpioWrite` reaches the pin (R48, R154). -/
inductive GpioAccess where
  | bitSet
  | bitClear
  | readModifyWrite
deriving DecidableEq, Repr

/-- What the block does to the outside that its registers do not keep (log 16): a GPIO write, which is observable even
when it writes the level the pin has (R48), with the last counter value read before it; and a request on the callback
client port with its reply (R187). -/
inductive Output where
  | gpioWrite (pin : Nat) (level : Bool) (how : GpioAccess) (at_ : Word)
  | callback (reply : Word)
deriving DecidableEq, Repr

/-- The machine stops with a fault. The block itself raises none (R167). -/
inductive Fault where
  /-- Raised by `busAccess` (Machine/Bus.lean): a bus access at or past `0x100 + 0x20 * NPINS`, where no register
  exists (R40; U1 refuses it). Safe: the access gets no effect. Log 10. -/
  | noSuchRegister
deriving DecidableEq, Repr

/-- The machine gives no meaning. -/
inductive Refusal where
  /-- Raised by `exec` for an instruction that has no meaning yet: none. Safe. -/
  | notModelled (mnemonic : String)
  /-- Raised by `busAccess` (Machine/Bus.lean): a bus access whose width is not 4 bytes or whose offset is not a
  multiple of 4, to which the spec gives no meaning (R42; U1 refuses it). Safe. Log 10. -/
  | busAccessUndefined
deriving DecidableEq, Repr

/-- The state of the machine: everything 10_state.md names, and after it the model's own fields. -/
structure State where
  cfg          : Cfg
  arg0         : Word
  arg1         : Word
  arg2         : Word
  arg3         : Word
  cmdWordF     : Word
  cmdWordI     : Word
  cmdF         : LatchF
  cmdI         : LatchI
  phaseF       : PhaseF
  phaseI       : PhaseI
  fResult      : Bool
  iResult      : Bool
  wt           : Vector Desc 32
  enabled      : Word
  states       : Word
  toSet        : Byte
  toDisable    : Byte
  firstPin     : Byte
  lastPin      : Byte
  cursor       : Byte
  timerRunning : Bool
  cbRegistered : Bool
  tEnabled     : Bool
  tArmed       : Bool
  svcPending   : Bool
  tFireAt      : Word
  ccount       : Word
  gpio         : Word
  /-- The model's own: the environment's next inputs (U10). Log 1. -/
  inputs       : List Input
  /-- The model's own: the cycles that pass at the coming reads of the counter inside a `SERVICE` (U7). Log 2. -/
  delays       : List (BitVec 31)
  /-- The model's own: the coming replies of `Callback()` (U9). Log 2. -/
  replies      : List Word
  /-- The model's own: the index of the next free value. Log 2. -/
  draws        : Nat
  /-- The model's own: what the last bus read returned. Log 15. -/
  busData      : Word
  /-- The model's own: what the block did to the outside, newest first. Log 16. -/
  trace        : List Output
deriving DecidableEq, Repr

/-- A descriptor of a pin that has never been started: the spec gives no value and says that zero must not be assumed
(R35), so no field but the two with a small set of values holds zero. DESIGN CHOICE, log 4. -/
def Desc.unwritten : Desc where
  nextEventCcy := 0xA5A5A5A5#32
  nextPeriodCcy := 0xA5A5A5A5#32
  endDutyCcy := 0xA5A5A5A5#32
  dutyCcys := 0xA5A5A5A5#32
  periodCcys := 0xA5A5A5A5#32
  expiryCcy := 0xA5A5A5A5#32
  mode := .init
  alignPhase := pinNone
  autoPwm := true

/-- The value of every register right after reset (R35) of a block with configuration `cfg`, whose pins hold the levels
`gpio` and whose counter reads `ccount`: reset writes neither (R196). Values the table of R35 leaves unspecified:
DESIGN CHOICE, logs 4 and 5. -/
def State.resetWith (cfg : Cfg) (gpio ccount : Word) : State where
  cfg := cfg
  arg0 := 0#32
  arg1 := 0#32
  arg2 := 0#32
  arg3 := 0#32
  cmdWordF := 0#32
  cmdWordI := 0#32
  cmdF := ⟨.startUs, 0#8, 0#8, false, false, 0#32, 0#32, 0#32, 0#32, 0#32, 0#32, false⟩
  cmdI := ⟨0#8, false⟩
  phaseF := .idle
  phaseI := .idle
  fResult := false
  iResult := false
  wt := Vector.replicate 32 Desc.unwritten
  enabled := 0#32
  states := 0#32
  toSet := pinNone
  toDisable := pinNone
  firstPin := 0#8
  lastPin := 0#8
  cursor := 0#8
  timerRunning := false
  cbRegistered := false
  tEnabled := false
  tArmed := false
  svcPending := false
  tFireAt := 0#32
  ccount := ccount
  gpio := gpio
  inputs := []
  delays := []
  replies := []
  draws := 0
  busData := 0#32
  trace := []

/-- The machine right after its first reset (R35, R195). The configuration, the pins' levels and the counter, which
the spec leaves open: DESIGN CHOICE, logs 3 and 6. -/
def State.reset : State := State.resetWith Config.cfgT 0#32 0#32

end Sys2Proof.Machine
end

