-- ==== Sys2Proof/Machine/Flags.lean ====
section
/-! DEFINITION. The status flags (R29) and the packed registers `STATUS`, `REQ`, `SCAN` (R73) and `CTRL` (R70): all of
them functions of other state. -/

namespace Sys2Proof.Machine

/-- The stored code of a mode (R62). -/
def Mode.code : Mode → BitVec 2
  | .infinite => 0#2
  | .expires => 1#2
  | .updateExpiry => 2#2
  | .init => 3#2

/-- `F_BUSY` (R12, R29). -/
def State.fBusy (s : State) : Bool := decide (s.phaseF ≠ .idle)

/-- `I_BUSY` (R12, R29). -/
def State.iBusy (s : State) : Bool := decide (s.phaseI ≠ .idle)

/-- `F_YIELD`: 1 exactly while port F is at a yielding wait step (R29, R90). -/
def State.fYield (s : State) : Bool := decide (s.phaseF = .f12 ∨ s.phaseF = .l9)

/-- The register `STATUS` (R73). -/
def State.statusWord (s : State) : Word :=
  0#22 ++ BitVec.ofBool s.cbRegistered ++ BitVec.ofBool s.timerRunning ++ 0#2 ++ BitVec.ofBool s.iResult
    ++ BitVec.ofBool s.iBusy ++ 0#1 ++ BitVec.ofBool s.fYield ++ BitVec.ofBool s.fResult ++ BitVec.ofBool s.fBusy

/-- The register `REQ` (R73). -/
def State.reqWord (s : State) : Word := 0#16 ++ s.toDisable ++ s.toSet

/-- The register `SCAN` (R73). -/
def State.scanWord (s : State) : Word := 0#8 ++ s.cursor ++ s.lastPin ++ s.firstPin

/-- The register `WT[p].CTRL` (R70). -/
def Desc.ctrlWord (d : Desc) : Word := 0#15 ++ BitVec.ofBool d.autoPwm ++ d.alignPhase ++ 0#6 ++ d.mode.code

/-- The number of a failure's cause in the table of R166, for traces and test vectors; the block does not show it. -/
def Cause.ordinal : Cause → Nat
  | .illegalCmd => 1
  | .pinRange => 2
  | .pinFlash => 3
  | .alignRange => 4
  | .periodNonpos => 5
  | .dutyGtPeriod => 6
  | .dormant => 7

end Sys2Proof.Machine
end

