-- ==== Sys2Proof/Machine/Operands.lean ====
section
/-! DEFINITION. The operand forms and the arithmetic of the rules: the wrap-safe comparisons (R2), the microsecond
conversion (R4), pin bits and masks (00_scope.md section 6), bounds (R123), division (R3) and `Nudge` (R149, R150). -/

namespace Sys2Proof.Machine

/-- `Reached(a, b)`: `a` is at or after `b` by the signed difference (R2). -/
def reached (a b : Word) : Bool := decide (0 ≤ (a - b).toInt)

/-- `After(a, b)`: `a` is after `b` by the signed difference (R2). -/
def after (a b : Word) : Bool := decide (0 < (a - b).toInt)

/-- `Us2Ccy(v)`: one multiply, modulo 2^32 (R4). -/
def us2Ccy (c : Cfg) (v : Word) : Word := BitVec.ofNat 32 (v.toNat * c.ccyPerUs)

/-- `ceil_div(a, b)` for `b > 0` (00_scope.md section 6). -/
def ceilDiv (a b : Nat) : Nat := (a + b - 1) / b

/-- Unsigned floor division (R3). By zero: any value (U3), a free value. Log 11. -/
def natDiv (a b : Nat) : Nat := if b = 0 then Config.freeQuotient a else a / b

/-- `mask[p]` (00_scope.md section 6). -/
def maskBit (m : Word) (p : Nat) : Bool := m.getLsbD p

/-- `mask[p] <- v`, and no other bit (00_scope.md section 6). -/
def setMaskBit (m : Word) (p : Nat) (v : Bool) : Word :=
  if v then m ||| (1#32 <<< p) else m &&& ~~~(1#32 <<< p)

/-- `bit(p)`: the mask of a stored pin, 0 for `NONE` (00_scope.md section 6). -/
def pinBit (p : Byte) : Word := if p = pinNone then 0#32 else 1#32 <<< p.toNat

/-- The bits of a mask that exist: bits `NPINS .. 31` are hardwired 0 (R23, R24). -/
def pinMask (c : Cfg) : Word := (1#32 <<< c.npins) - 1#32

/-- `lowest_set(m)`; 0 for the empty mask, where no rule applies it (00_scope.md section 6). -/
def lowestSet (m : Word) : Nat := ((List.range 32).find? fun p => maskBit m p).getD 0

/-- `highest_set(m)`; 0 for the empty mask, where no rule applies it. -/
def highestSet (m : Word) : Nat := ((List.range 32).reverse.find? fun p => maskBit m p).getD 0

/-- `bounds(m)` (R123). -/
def bounds (m : Word) : Byte × Byte :=
  if m ≠ 0#32 then (BitVec.ofNat 8 (lowestSet m), BitVec.ofNat 8 (highestSet m)) else (0#8, 0#8)

/-- The default `Nudge(o, D, I) = (o + floor(o * I / D)) mod 2^32`, in Z before the reduction (R150). -/
def nudgeStandard (o duty idle : Word) : Word :=
  BitVec.ofNat 32 (o.toNat + natDiv (o.toNat * idle.toNat) duty.toNat)

/-- The parameter `Nudge` of the configuration, with `Nudge(0, D, I) = 0` (00_scope.md section 4). Log 12. -/
def nudge (c : Cfg) (o duty idle : Word) : Word :=
  match c.nudgeRule with
  | .standard => nudgeStandard o duty idle
  | .platform k => if o = 0#32 then 0#32 else Config.freeNudge k o duty idle

/-- The stored alignment target: `NONE` for every negative operand, else the operand (R64, R86). -/
def alignTarget (align : Byte) : Byte := if align.toInt < 0 then pinNone else align

/-- Step `V`, first half: the validation of a start, in the order of the tests of R82. -/
def validate (c : Cfg) (pin align : Byte) (high low : Word) : Option Cause :=
  if c.npins ≤ pin.toNat then some .pinRange
  else if pin.toNat ∈ c.flashPins then some .pinFlash
  else if (c.npins : Int) ≤ align.toInt then some .alignRange
  else if (high + low).toInt ≤ 0 then some .periodNonpos
  else if (high + low) < high then some .dutyGtPeriod
  else none

/-- Step `V`, second half: `(dutyF, periodF)` after the stretch of a short period whose level is constant (R83, conflict
C1). The period is not zero: R82 came first. -/
def stretch (c : Cfg) (high low : Word) : Word × Word :=
  let period := high + low
  if period.toNat < c.minServiceCcys then
    let stretched := BitVec.ofNat 32 (ceilDiv c.minServiceCcys period.toNat * period.toNat)
    if high = 0#32 then (high, stretched)
    else if low = 0#32 then (stretched, stretched)
    else (high, period)
  else (high, period)

/-- `fwdPeriods`: the whole periods missed at overshoot `o` (R142). -/
def fwdPeriods (duty period o : Word) : Nat :=
  if duty = period then natDiv o.toNat period.toNat
  else if period - duty ≤ o then natDiv (o + duty).toNat period.toNat
  else 0

/-- Compensation and clamp of the re-arm delay (R160), in Z. -/
def clampDelay (c : Cfg) (d : Int) : Int :=
  let d := d - c.irqLatencyCcys
  if d < c.minRearmCcys then c.minRearmCcys
  else if (c.maxRearmCcys : Int) < d then c.maxRearmCcys
  else d

/-- The callback's delay in cycles, saturated, not wrapped (R158), in Z. -/
def callbackCcys (c : Cfg) (us : Word) : Nat := min (us.toNat * c.ccyPerUs) (2 ^ 31 - 1)

/-- The delay before compensation: the distance to the deadline, or the callback's delay when one is registered and
sooner (R159), in Z. -/
def rawDelay (deadline now : Word) (cb : Option Nat) : Int :=
  let d := (deadline - now).toInt
  match cb with
  | some n => if (n : Int) < d then n else d
  | none => d

end Sys2Proof.Machine
end

