-- ==== Sys2Proof/Machine/Ops.lean ====
section
/-! DEFINITION. The named operations over the state: descriptors, masks, pins, the timer and the counter, the failure of
a command, the entry to and the return from the Scheduler, and the timer subsystem's lifecycle. -/

namespace Sys2Proof.Machine

/-! ### Descriptors, masks and pins -/

/-- `WT[p]`. Descriptors exist for `p < NPINS ≤ 32`; past 32 there is nothing to read. Log 22. -/
def State.desc (s : State) (p : Nat) : Desc := if h : p < 32 then s.wt[p] else Desc.unwritten

/-- `WT[p] <- d`. -/
def State.setDesc (s : State) (p : Nat) (d : Desc) : State := { s with wt := s.wt.setIfInBounds p d }

/-- A write of some fields of `WT[p]`, each of them whole (R45). -/
def State.modDesc (s : State) (p : Nat) (f : Desc → Desc) : State := s.setDesc p (f (s.desc p))

/-- `enabled[p]`; bits past the mask read 0 (R23). -/
def State.isEnabled (s : State) (p : Nat) : Bool := maskBit s.enabled p

/-- A write of the whole mask `enabled`, whose bits `NPINS .. 31` are hardwired 0 (R23). Log 18. -/
def State.setEnabled (s : State) (m : Word) : State := { s with enabled := m &&& pinMask s.cfg }

/-- `states[p] <- v`; bits `NPINS .. 31` are hardwired 0 (R24). Log 18. -/
def State.setStateBit (s : State) (p : Nat) (v : Bool) : State :=
  { s with states := setMaskBit s.states p v &&& pinMask s.cfg }

/-- `GpioWrite(p, v)`: the level, and the write itself, by read-modify-write on `RMW_PIN` and by the set or the clear
register elsewhere (R48, R154). Logs 16, 23, 25. -/
def State.gpioWrite (s : State) (p : Nat) (v : Bool) : State :=
  { s with
    gpio := setMaskBit s.gpio p v
    trace := .gpioWrite p v
      (if s.cfg.rmwPin = some p then .readModifyWrite else if v then .bitSet else .bitClear) s.ccount :: s.trace }

/-! ### The single-shot timer and the cycle counter -/

/-- `TimerWrite(n)` (R183): arms the timer to fire `n` cycles from now; a running count is discarded. -/
def State.timerWrite (s : State) (n : Nat) : State :=
  { s with tArmed := true, tFireAt := s.ccount + BitVec.ofNat 32 n }

/-- `TimerRemaining()` (R184): 0 when the timer has fired and was not armed again. -/
def State.timerRemaining (s : State) : Nat := if s.tArmed then (s.tFireAt - s.ccount).toInt.toNat else 0

/-- `TimerEnable()` (R185). -/
def State.timerEnable (s : State) : State := { s with tEnabled := true }

/-- `TimerDisable()` (R185): a running count is cancelled and a pending interrupt dropped. -/
def State.timerDisable (s : State) : State := { s with tEnabled := false, tArmed := false, svcPending := false }

/-- `n` cycles pass (R180): the counter advances, and an armed timer whose instant lies within them fires (R186,
"reaches"). Log 14. -/
def State.elapse (s : State) (n : Nat) : State :=
  if s.tArmed = true ∧ (s.tFireAt - s.ccount).toNat ≤ n then
    { s with ccount := s.ccount + BitVec.ofNat 32 n, tArmed := false, svcPending := true }
  else { s with ccount := s.ccount + BitVec.ofNat 32 n }

/-- The next draw of a number of cycles (U7): the given one, else a free value. Log 2. -/
def State.drawDelay (s : State) : BitVec 31 × State :=
  match s.delays with
  | d :: rest => (d, { s with delays := rest })
  | [] => (Config.freeDelay s.draws, { s with draws := s.draws + 1 })

/-- Time passes inside a `SERVICE`, by at least `least` cycles: the counter is at the instant of the next read or timer
write (R172, R181). `least` is 1 for every read after the first (R181 (b)). The timer is unarmed here (R176). After
`s.readNow least`, the value read is its `ccount`. Logs 2, 13. -/
def State.readNow (s : State) (least : Nat) : State :=
  let d := s.drawDelay
  { d.2 with ccount := d.2.ccount + BitVec.ofNat 32 (least + d.1.toNat) }

/-- `Callback()`: one request and its reply, any `u32` (R187). The block's state is not the client's to touch (R178).
Logs 2, 16, 27. -/
def State.callback (s : State) : Word × State :=
  match s.replies with
  | r :: rest => (r, { s with replies := rest, trace := .callback r :: s.trace })
  | [] =>
    (Config.freeReply s.draws, { s with draws := s.draws + 1, trace := .callback (Config.freeReply s.draws) :: s.trace })

/-! ### The timer subsystem's lifecycle and the kick -/

/-- `InitTimer()` (R111). -/
def State.initTimer (s : State) : State :=
  ({ s.timerEnable with timerRunning := true } : State).timerWrite s.cfg.kickCcys

/-- `DeinitTimer()` (R112). -/
def State.deinitTimer (s : State) : State := { s.timerDisable with timerRunning := false }

/-- "nudges the timer to fire imminently unless it is already due" (R89, R104). -/
def State.kick (s : State) : State :=
  if s.cfg.kickCcys < s.timerRemaining then s.timerWrite s.cfg.kickCcys else s

/-! ### The end of a command, and its failure -/

/-- A command ends with a result: `X_RESULT <- r`, `phaseX <- IDLE` (R29, R165). -/
def State.endCommand (s : State) (port : CmdPort) (r : Bool) : State :=
  match port with
  | .f => { s with fResult := r, phaseF := .idle }
  | .i => { s with iResult := r, phaseI := .idle }

/-- `fail(cause)` (R165): the result is 0, the phase `IDLE`, nothing else changes and nothing records the cause.
Log 21. -/
def State.fail (s : State) (port : CmdPort) (_cause : Cause) : State := s.endCommand port false

/-! ### Entry to and return from the Scheduler -/

/-- The timer interrupt is taken (R121, R174, R186): the pending bit is cleared and the timer is unarmed; nothing is
saved and no other state changes. Log 14. -/
def State.enterService (s : State) : State := { s with svcPending := false, tArmed := false }

/-- A `SERVICE` returns (R161, R175): at some instant at or after the last read (R183) the timer is armed with `n`;
nothing is restored. -/
def State.leaveService (s : State) (n : Nat) : State := (s.readNow 0).timerWrite n

end Sys2Proof.Machine
end

