-- ==== Sys2Proof/Machine/Bus.lean ====
section
/-! DEFINITION. The register map (20_memory.md R40 to R44) as views of the state, and the writes that are plain
stores. A write of a command word is an input of its own (Machine/Inputs.lean). -/

namespace Sys2Proof.Machine

/-- The size of the map in bytes (R40). -/
def mapBytes (c : Cfg) : Nat := 0x100 + 0x20 * c.npins

/-- The offset of `CMD_F` (R41). -/
abbrev offCmdF : Nat := 0x000

/-- The offset of `CMD_I` (R41). -/
abbrev offCmdI : Nat := 0x020

/-- A word of descriptor `d` (R41); the eighth is reserved and reads 0. -/
def Desc.readWord (d : Desc) (off : Nat) : Word :=
  match off with
  | 0x00 => d.nextEventCcy
  | 0x04 => d.nextPeriodCcy
  | 0x08 => d.endDutyCcy
  | 0x0C => d.dutyCcys
  | 0x10 => d.periodCcys
  | 0x14 => d.expiryCcy
  | 0x18 => d.ctrlWord
  | _ => 0#32

/-- What the word at an offset of the map reads as (R41); a read has no side effect (R44); reserved offsets read 0
(R40). -/
def State.readReg (s : State) (off : Nat) : Word :=
  if 0x100 ≤ off then (s.desc ((off - 0x100) / 0x20)).readWord ((off - 0x100) % 0x20)
  else match off with
  | 0x000 => s.cmdWordF
  | 0x004 => s.arg0
  | 0x008 => s.arg1
  | 0x00C => s.arg2
  | 0x010 => s.arg3
  | 0x014 => s.statusWord
  | 0x018 => s.enabled
  | 0x01C => s.states
  | 0x020 => s.cmdWordI
  | 0x024 => s.reqWord
  | 0x028 => s.scanWord
  | _ => 0#32

/-- A write to any offset but `CMD_F` and `CMD_I`: the four `ARG` registers store the value, every other offset ignores
it (R40, R41, R44). -/
def State.writeReg (s : State) (off : Nat) (v : Word) : State :=
  match off with
  | 0x004 => { s with arg0 := v }
  | 0x008 => { s with arg1 := v }
  | 0x00C => { s with arg2 := v }
  | 0x010 => { s with arg3 := v }
  | _ => s

/-- The accesses the spec gives a meaning (R42): 4 bytes wide, at a multiple of 4, inside the map. The others stop the
machine (U1). Log 10. -/
def busAccess (c : Cfg) (off width : Nat) (act : Host.Outcome State Fault Refusal) : Host.Outcome State Fault Refusal :=
  if width = 4 ∧ off % 4 = 0 then
    if off < mapBytes c then act else .fault .noSuchRegister
  else .refused .busAccessUndefined

end Sys2Proof.Machine
end

