-- ==== Sys2Proof/Machine/Edges.lean ====
section
/-! DEFINITION. `SERVICE`, phase S4: one visit of a due pin (`ServicePin`, R138 to R151) and one scan pass (R135 to
R137, R152, R153). -/

namespace Sys2Proof.Machine

/-! ### ServicePin -/

/-- The due event is the pin's expiry (R139). -/
def Desc.atExpiry (d : Desc) : Bool := decide (d.mode = .expires ∧ d.nextEventCcy = d.expiryCcy)

/-- The fold of `k` whole periods into the schedule, and into the expiry of an expiring pin (R143). -/
def Desc.fold (d : Desc) (k : Nat) (period : Word) : Desc :=
  if 0 < k then
    let f := BitVec.ofNat 32 k * period
    { d with
      nextPeriodCcy := d.nextPeriodCcy + f
      endDutyCcy := d.endDutyCcy + f
      expiryCcy := if d.mode = .expires then d.expiryCcy + f else d.expiryCcy }
  else d

/-- The sooner of the freshly computed edge and, for an expiring pin, the expiry (R151). -/
def Desc.reschedule (d : Desc) (e2 : Word) : Desc :=
  { d with nextEventCcy := if d.mode = .expires ∧ after e2 d.expiryCcy = true then d.expiryCcy else e2 }

/-- The next low to high edge after a falling edge serviced at `now` (R149): moved by `Nudge` when `autoPwm` is set and
the duty is not zero. -/
def Desc.nudged (d : Desc) (c : Cfg) (duty period now : Word) : Desc :=
  if d.autoPwm = true ∧ duty ≠ 0#32 then
    { d with nextPeriodCcy := d.nextPeriodCcy + nudge c (now - d.endDutyCcy) duty (period - duty) }
  else d

/-- Low to high edge with a duty (R144). -/
def State.riseEdge (s : State) (p : Nat) (duty period : Word) : State :=
  let t := (s.desc p).nextPeriodCcy
  ((s.modDesc p fun d =>
      ({ d with nextPeriodCcy := t + period, endDutyCcy := t + duty } : Desc).reschedule (t + duty)).setStateBit
    p true).gpioWrite p true

/-- Low to high edge with zero duty (R145): no write, the pin stays low. -/
def State.zeroDutyEdge (s : State) (p : Nat) (period : Word) : State :=
  let t := (s.desc p).nextPeriodCcy
  s.modDesc p fun d =>
    ({ d with nextPeriodCcy := t + period, endDutyCcy := t + period } : Desc).reschedule (t + period)

/-- High pin whose falling edge moved into the future (R146): it stays high. -/
def State.staysHigh (s : State) (p : Nat) : State :=
  s.modDesc p fun d => d.reschedule d.endDutyCcy

/-- High pin whose high phase ends where the next period starts (R147): it goes straight into the next high phase. -/
def State.fullDutyTurn (s : State) (p : Nat) (duty period : Word) : State :=
  let n := (s.desc p).nextPeriodCcy
  s.modDesc p fun d =>
    ({ d with endDutyCcy := n + duty, nextPeriodCcy := n + period } : Desc).reschedule (n + duty)

/-- High to low edge (R148), with the `autoPwm` correction (R149). -/
def State.fallEdge (s : State) (p : Nat) (now duty period : Word) : State :=
  ((s.modDesc p fun d =>
      let d := d.nudged s.cfg duty period now
      d.reschedule d.nextPeriodCcy).setStateBit p false).gpioWrite p false

/-- The edge action after the fold: exactly one of R144 to R148, each with its rescheduling (R151). -/
def State.edgeAction (s : State) (p : Nat) (now duty period : Word) (high : Bool) : State :=
  if high = false then
    if duty ≠ 0#32 then s.riseEdge p duty period else s.zeroDutyEdge p period
  else if (now - (s.desc p).endDutyCcy).toInt < 0 then s.staysHigh p
  else if (s.desc p).endDutyCcy = (s.desc p).nextPeriodCcy then s.fullDutyTurn p duty period
  else s.fallEdge p now duty period

/-- The edge a visit looks at (R140). -/
def Desc.edge (d : Desc) (high : Bool) : Word := if high then d.endDutyCcy else d.nextPeriodCcy

/-- `ServicePin(p, now)` (R138): the expiry test, the stale-event test (R141), the forward-skip (R142, R143), the edge
action and the rescheduling. It reads no clock. -/
def State.servicePin (s : State) (p : Nat) (now : Word) : State :=
  let d := s.desc p
  let high := maskBit s.states p
  let o := now - d.edge high
  if d.atExpiry then s.setEnabled (setMaskBit s.enabled p false)
  else if o.toInt < 0 then s.modDesc p fun d => d.reschedule (d.edge high)
  else
    (s.modDesc p fun d => d.fold (fwdPeriods d.dutyCcys d.periodCcys o) d.periodCcys).edgeAction
      p now d.dutyCcys d.periodCcys high

/-! ### One scan pass -/

/-- The pin a pass starts from (R136). -/
def State.scanStart (s : State) : Nat :=
  if s.firstPin ≤ s.cursor ∧ s.cursor ≤ s.lastPin ∧ s.isEnabled s.cursor.toNat = true then s.cursor.toNat
  else s.firstPin.toNat

/-- `ScanOrder()` (R136): every index of `firstPin .. lastPin` once, cyclically from the start. -/
def State.scanOrder (s : State) : List Nat :=
  List.range' s.scanStart (s.lastPin.toNat + 1 - s.scanStart)
    ++ List.range' s.firstPin.toNat (s.scanStart - s.firstPin.toNat)

/-- A pass in progress (R135): the state, whether the budget ran out, and the nearest deadline so far. The working
copy `now` of the counter is `st.ccount`: time passes only at the reads. Log 25. -/
structure Scan where
  st        : State
  exhausted : Bool
  best      : Option (Nat × Word)

/-- The minimum of R152: a later pin replaces only a later event; pins no longer enabled take no part. -/
def bestOf (best : Option (Nat × Word)) (p : Nat) (ccy : Word) : Option (Nat × Word) :=
  match best with
  | none => some (p, ccy)
  | some b => if after b.2 ccy then some (p, ccy) else some b

/-- The visit of one pin while the budget lasts: serviced if due (R138), then the counter is read again (R153). -/
def State.visitPin (s : State) (p : Nat) : State :=
  (if reached s.ccount (s.desc p).nextEventCcy then s.servicePin p s.ccount else s).readNow 1

/-- One pin of a pass (R135): nothing if it is not enabled; the budget test (R137); the visit; the minimum. -/
def scanPin (timeout : Word) (a : Scan) (p : Nat) : Scan :=
  if a.st.isEnabled p then
    let exhausted := a.exhausted || reached a.st.ccount timeout
    let s := if exhausted then a.st else a.st.visitPin p
    { st := s
      exhausted := exhausted
      best := if s.isEnabled p then bestOf a.best p (s.desc p).nextEventCcy else a.best }
  else a

/-- One scan pass (R135): the enabled pins, each once, in scan order. With no pin enabled no pin is looked at. -/
def State.scanPass (s : State) (timeout : Word) : Scan :=
  s.scanOrder.foldl (scanPin timeout) { st := s, exhausted := false, best := none }

end Sys2Proof.Machine
end

