-- ==== Sys2Proof/Machine/Requests.lean ====
section
/-! DEFINITION. `SERVICE`, phases S1 and S2: request application and lifecycle resolution (43_service_requests.md). -/

namespace Sys2Proof.Machine

/-- Phase `S1` (R122, R123): both requests applied in one assignment, the set winning for the same pin; the bounds
recomputed; the disable slot cleared. -/
def State.applyRequests (s : State) : State :=
  if (s.toSet ≠ pinNone ∧ s.isEnabled s.toSet.toNat = false) ∨ s.toDisable ≠ pinNone then
    let s := s.setEnabled ((s.enabled &&& ~~~ pinBit s.toDisable) ||| pinBit s.toSet)
    { s with
      firstPin := (bounds s.enabled).1
      lastPin := (bounds s.enabled).2
      toDisable := pinNone }
  else s

/-- The first period start of a new waveform (R125): the enabled alignment target's period start plus the staged
offset, else "now", which is `isrStart`. -/
def State.resolvedStart (s : State) (p : Nat) (isrStart : Word) : Word :=
  let a := (s.desc p).alignPhase
  if a ≠ pinNone ∧ s.isEnabled a.toNat = true then
    (s.desc a.toNat).nextPeriodCcy + (s.desc p).nextPeriodCcy
  else isrStart

/-- Resolution of `UPDATEEXPIRY` on a descriptor (R126). -/
def Desc.resolveExpiry (d : Desc) : Desc :=
  { d with expiryCcy := d.nextPeriodCcy + d.expiryCcy, mode := .expires }

/-- Resolution of `INIT` (R125), which continues into R126 when a run time was staged. -/
def State.resolveInit (s : State) (p : Nat) (isrStart : Word) : State :=
  let start := s.resolvedStart p isrStart
  (s.setStateBit p false).modDesc p fun d =>
    let d := { d with nextPeriodCcy := start, nextEventCcy := start }
    if d.expiryCcy = 0#32 then { d with mode := .infinite } else d.resolveExpiry

/-- Phase `S2` (R124 to R128): the pending set request is resolved by its descriptor's mode and consumed. -/
def State.resolveSet (s : State) (isrStart : Word) : State :=
  if s.toSet = pinNone then s
  else
    let p := s.toSet.toNat
    let s := match (s.desc p).mode with
      | .init => s.resolveInit p isrStart
      | .updateExpiry => s.modDesc p Desc.resolveExpiry
      | .infinite => s
      | .expires => s
    { s with toSet := pinNone }

end Sys2Proof.Machine
end

