-- ==== Sys2Proof/Machine/Service.lean ====
section
/-! DEFINITION. `SERVICE` as a whole (R120): entry, requests, the scan passes with spin and repeat (R155 to R157) and
the re-arm (R158 to R161). -/

namespace Sys2Proof.Machine

/-- What a pass leaves: the nearest deadline, and whether another pass follows (R155 to R157). -/
structure PassEnd where
  st       : State
  deadline : Word
  again    : Bool

/-- The end of a scan pass: no pin active (R155), or the cursor and the deadline (R156) and the test of R157. -/
def State.endOfPass (s : State) (timeout : Word) : PassEnd :=
  let a := s.scanPass timeout
  match a.best with
  | none => { st := a.st, deadline := a.st.ccount + BitVec.ofNat 32 s.cfg.idleDelayCcys, again := false }
  | some b =>
    { st := { a.st with cursor := BitVec.ofNat 8 b.1 }
      deadline := b.2
      again := after timeout a.st.ccount && after timeout b.2 }

/-- The spin of R157: the counter is read until the deadline is reached. The bound `n` is never used up (R162).
Log 20. -/
def spin : Nat → Word → State → State
  | 0, _, s => s
  | n + 1, deadline, s => if after deadline s.ccount then spin n deadline (s.readNow 1) else s

/-- Phase `S4`: passes until R157 falls through. The bound `n` is never used up (R162). Log 20. -/
def scanLoop : Nat → Word → State → PassEnd
  | 0, timeout, s => s.endOfPass timeout
  | n + 1, timeout, s =>
    let e := s.endOfPass timeout
    if e.again then scanLoop n timeout (spin e.st.cfg.isrBudgetCcys e.deadline e.st) else e

/-- The callback of phase `S5` (R158): its delay in cycles when one is registered. -/
def State.askCallback (s : State) : Option Nat × State :=
  if s.cbRegistered then (some (callbackCcys s.cfg s.callback.1), s.callback.2) else (none, s)

/-- Phase `S5` (R158 to R161): the callback, one more read of the counter, the compensated and clamped delay, and the
timer write that ends the `SERVICE`. -/
def State.rearm (s : State) (deadline : Word) : State :=
  let a := s.askCallback
  let s := a.2.readNow 1
  s.leaveService (clampDelay s.cfg (rawDelay deadline s.ccount a.1)).toNat

/-- Phases `S0` to `S3` (R120): entry and the first read `isrStart` (R121), the requests, the read of R130. The pair is
`isrStart` and the state. -/
def State.beginService (s : State) : Word × State :=
  let s := s.enterService.readNow 0
  (s.ccount, ((s.applyRequests).resolveSet s.ccount).readNow 1)

/-- A whole `SERVICE` (R120). -/
def State.service (s : State) : State :=
  let b := s.beginService
  let e := scanLoop s.cfg.isrBudgetCcys (b.1 + BitVec.ofNat 32 s.cfg.isrBudgetCcys) b.2
  e.st.rearm e.deadline

/-- `SERVICE` (R120): one atomic transition (R172). It has no operand and no failure (R167). Log 28. -/
def execService (s : State) : Host.Outcome State Fault Refusal := .next s.service

end Sys2Proof.Machine
end

