-- ==== Sys2Proof/Machine/Latch.lean ====
section
/-! DEFINITION. Acceptance of a command into the latch of its port (R11, R38, R50, R60, R64, R65), and which
instruction a latch holds. -/

namespace Sys2Proof.Machine

/-- The instruction whose steps port F executes (R11). -/
def LatchF.instr (c : LatchF) : Instr :=
  match c.op with
  | .startUs => .startUs c.autoPwm c.align c.pin
  | .startCcy => .startCcy c.autoPwm c.align c.pin
  | .stop => .stop c.pin
  | .setcb => .setcb c.en

/-- The instruction whose steps port I executes (R38). -/
def LatchI.instr (c : LatchI) : Instr := .istop c.pin

/-- Acceptance of a start: the fields, and the four operands scaled by `scale` (R64, R65), are sampled once (R50); the
phase is `V` (R80). -/
def State.acceptStart (s : State) (op : Op) (scale : Word → Word) (autoPwm : Bool) (align pin : Byte) : State :=
  { s with
    phaseF := .v
    cmdF := { s.cmdF with
      op := op, pin := pin, align := align, autoPwm := autoPwm
      high := scale s.arg0, low := scale s.arg1, run := scale s.arg2, offset := scale s.arg3 } }

/-- Acceptance of `STOP` (R100): it reads no `ARG` register (R10). Log 17. -/
def State.acceptStop (s : State) (pin : Byte) : State :=
  { s with phaseF := .t .t0, cmdF := { s.cmdF with op := .stop, pin := pin } }

/-- Acceptance of `SETCB` (R110). Log 17. -/
def State.acceptSetcb (s : State) (en : Bool) : State :=
  { s with phaseF := .c0, cmdF := { s.cmdF with op := .setcb, en := en } }

/-- Acceptance of `ISTOP` (R107). -/
def State.acceptIstop (s : State) (pin : Byte) : State :=
  { s with phaseI := .t .t0, cmdI := { s.cmdI with pin := pin } }

/-- What a command of port F does when it is executed: its acceptance while the port is idle; its next atomic step while
it is the command in progress; nothing when another command is in progress (R44). Logs 8, 9. -/
def State.onPortF (s : State) (i : Instr) (accepted next : State) : State :=
  if s.phaseF = .idle then accepted else if s.cmdF.instr = i then next else s

/-- The same for a command of port I (R107). Logs 8, 9. -/
def State.onPortI (s : State) (i : Instr) (accepted next : State) : State :=
  if s.phaseI = .idle then accepted else if s.cmdI.instr = i then next else s

end Sys2Proof.Machine
end

