-- ==== Sys2Proof/Machine/Setcb.lean ====
section
/-! DEFINITION. `SETCB` (42_setcb.md R110). -/

namespace Sys2Proof.Machine

/-- Step `C1`'s part of the joint lifecycle (R110): registering wakes a dormant timer subsystem, unregistering with
nothing enabled tears it down. -/
def State.callbackLifecycle (s : State) (en : Bool) : State :=
  if s.timerRunning = false ∧ en = true then s.initTimer
  else if s.timerRunning = true ∧ en = false ∧ s.enabled = 0#32 then s.deinitTimer
  else s

/-- Steps `C0` and `C1` (R110). At a phase that is no step of `SETCB`, none. -/
def State.setcbStep (s : State) : State :=
  match s.phaseF with
  | .c0 => { s with cbRegistered := s.cmdF.en, phaseF := .c1 }
  | .c1 => (s.callbackLifecycle s.cmdF.en).endCommand .f true
  | _ => s

/-- `SETCB` (R110). -/
def execSetcb (en : Bool) (s : State) : Host.Outcome State Fault Refusal :=
  .next (s.onPortF (.setcb en) (s.acceptSetcb en) s.setcbStep)

end Sys2Proof.Machine
end

