-- ==== Sys2Proof/Machine/Start.lean ====
section
/-! DEFINITION. `START_US` and `START_CCY` (40_start.md). Their steps are those of R81; each is atomic. -/

namespace Sys2Proof.Machine

/-- Port F goes on at `k` (R12). -/
def State.goF (s : State) (k : PhaseF) : State := { s with phaseF := k }

/-- Step `V` (R82, R83): validation, then the stretch. -/
def State.stepValidate (s : State) : State :=
  match validate s.cfg s.cmdF.pin s.cmdF.align s.cmdF.high s.cmdF.low with
  | some cause => s.fail .f cause
  | none =>
    let ds := stretch s.cfg s.cmdF.high s.cmdF.low
    { s with cmdF := { s.cmdF with duty := ds.1, period := ds.2 }, phaseF := .f1 }

/-- A guarded publish of the latched pin in `toSet`, one atomic step (R49, R88): the port stays while the slot is
taken. -/
def State.publishSet (s : State) (k : PhaseF) : State :=
  if s.toSet = pinNone then { s with toSet := s.cmdF.pin, phaseF := k } else s

/-- The waiting end of a start (R90): the command ends when the slot reads `NONE`. -/
def State.awaitSet (s : State) : State :=
  if s.toSet = pinNone then s.endCommand .f true else s

/-- Step `F11` (R89): the Scheduler is made to run soon. -/
def State.ensureTimer (s : State) : State := if s.timerRunning then s.kick else s.initTimer

/-- The next atomic step of the start in the latch, by the phase (R81). At a phase that is no step of a start, none. -/
def State.startStep (s : State) : State :=
  let p := s.cmdF.pin.toNat
  match s.phaseF with
  | .v => s.stepValidate
  | .f1 => (s.modDesc p fun d => { d with dutyCcys := s.cmdF.duty }).goF .f2
  | .f2 => (s.modDesc p fun d => { d with periodCcys := s.cmdF.period }).goF .f3
  | .f3 => (s.modDesc p fun d => { d with autoPwm := s.cmdF.autoPwm }).goF .f4
  | .f4 =>
    { s with
      cmdF := { s.cmdF with live := s.isEnabled p }
      phaseF := if s.isEnabled p then .l5 else .f5 }
  | .f5 => (s.modDesc p fun d => { d with nextPeriodCcy := s.cmdF.offset }).goF .f6
  | .f6 => (s.modDesc p fun d => { d with expiryCcy := s.cmdF.run }).goF .f7
  | .f7 => (s.modDesc p fun d => { d with mode := .init }).goF .f8
  | .f8 => (s.modDesc p fun d => { d with alignPhase := alignTarget s.cmdF.align }).goF .f9
  | .f9 => (if s.cmdF.duty = 0#32 then s.gpioWrite p false else s).goF .f10
  | .f10 => s.publishSet .f11
  | .f11 => s.ensureTimer.goF .f12
  | .f12 => s.awaitSet
  | .l5 => (s.modDesc p fun d => { d with mode := .infinite }).goF .l6
  | .l6 =>
    (s.modDesc p fun d => { d with expiryCcy := s.cmdF.run }).goF (if s.cmdF.run = 0#32 then .l9 else .l7)
  | .l7 => (s.modDesc p fun d => { d with mode := .updateExpiry }).goF .l8
  | .l8 => s.publishSet .l9
  | .l9 => s.awaitSet
  | .idle => s
  | .t _ => s
  | .c0 => s
  | .c1 => s

/-- `START_US` (R80): the operands are converted to cycles at acceptance, and from there the command is a
`START_CCY` with the converted operands. -/
def execStartUs (autoPwm : Bool) (align pin : Byte) (s : State) : Host.Outcome State Fault Refusal :=
  .next (s.onPortF (.startUs autoPwm align pin)
    (s.acceptStart .startUs (us2Ccy s.cfg) autoPwm align pin) s.startStep)

/-- `START_CCY` (R81): the operands are taken as they stand (R65). -/
def execStartCcy (autoPwm : Bool) (align pin : Byte) (s : State) : Host.Outcome State Fault Refusal :=
  .next (s.onPortF (.startCcy autoPwm align pin) (s.acceptStart .startCcy id autoPwm align pin) s.startStep)

end Sys2Proof.Machine
end

