-- ==== Sys2Proof/Machine/Stop.lean ====
section
/-! DEFINITION. `STOP` and `ISTOP` (41_stop.md): the same steps on two ports (R107). -/

namespace Sys2Proof.Machine

/-- `pinF` or `pinI` (R107). -/
def State.stopPin (s : State) (port : CmdPort) : Byte :=
  match port with
  | .f => s.cmdF.pin
  | .i => s.cmdI.pin

/-- The port goes on at step `k` of its stop (R12, R107). -/
def State.goStop (s : State) (port : CmdPort) (k : StopStep) : State :=
  match port with
  | .f => { s with phaseF := .t k }
  | .i => { s with phaseI := .t k }

/-- `liveF` or `liveI` (R102, R107). -/
def State.setLive (s : State) (port : CmdPort) (v : Bool) : State :=
  match port with
  | .f => { s with cmdF := { s.cmdF with live := v } }
  | .i => { s with cmdI := { s.cmdI with live := v } }

/-- The enabled test of step `T1` (R102): a pin `>= NPINS` reads as not enabled. -/
def State.stopFinds (s : State) (pin : Byte) : Bool := decide (pin.toNat < s.cfg.npins) && s.isEnabled pin.toNat

/-- Steps `T0` to `T5` on one port (R100 to R106). -/
def State.stopStep (s : State) (port : CmdPort) (k : StopStep) : State :=
  match k with
  | .t0 => if s.timerRunning then s.goStop port .t1 else s.fail port .dormant
  | .t1 =>
    (s.setLive port (s.stopFinds (s.stopPin port))).goStop port (if s.stopFinds (s.stopPin port) then .t2 else .t5)
  | .t2 =>
    if s.toDisable = pinNone then ({ s with toDisable := s.stopPin port } : State).goStop port .t3 else s
  | .t3 => s.kick.goStop port .t4
  | .t4 => if s.toDisable = pinNone then s.goStop port .t5 else s
  | .t5 => (if s.enabled = 0#32 ∧ s.cbRegistered = false then s.deinitTimer else s).endCommand port true

/-- The next atomic step of the stop in port F's latch. At a phase that is no step of a stop, none. -/
def State.stopStepF (s : State) : State :=
  match s.phaseF with
  | .t k => s.stopStep .f k
  | _ => s

/-- The next atomic step of the stop in port I's latch. -/
def State.stopStepI (s : State) : State :=
  match s.phaseI with
  | .t k => s.stopStep .i k
  | .idle => s

/-- `STOP` (R100). -/
def execStop (pin : Byte) (s : State) : Host.Outcome State Fault Refusal :=
  .next (s.onPortF (.stop pin) (s.acceptStop pin) s.stopStepF)

/-- `ISTOP` (R107). -/
def execIstop (pin : Byte) (s : State) : Host.Outcome State Fault Refusal :=
  .next (s.onPortI (.istop pin) (s.acceptIstop pin) s.stopStepI)

end Sys2Proof.Machine
end

