-- ==== Sys2Proof/Machine/Dispatch.lean ====
section
/-! DEFINITION. One instruction, one meaning. -/

namespace Sys2Proof.Machine

/-- The next atomic step of a command, or a whole `SERVICE`. -/
def exec (i : Instr) (s : State) : Host.Outcome State Fault Refusal :=
  match i with
  | .startUs autoPwm align pin => Sys2Proof.Machine.execStartUs autoPwm align pin s
  | .startCcy autoPwm align pin => Sys2Proof.Machine.execStartCcy autoPwm align pin s
  | .stop pin => Sys2Proof.Machine.execStop pin s
  | .setcb en => Sys2Proof.Machine.execSetcb en s
  | .istop pin => Sys2Proof.Machine.execIstop pin s
  | .service => Sys2Proof.Machine.execService s

end Sys2Proof.Machine
end

