-- ==== Sys2Proof/Machine/Inputs.lean ====
section
/-! DEFINITION. What each input of the environment does: the steps of the ports, the timer interrupt, time, the bus,
reset. An input that the rules do not let happen in a state does nothing there. Log 19. -/

namespace Sys2Proof.Machine

/-- Port F takes a step: not while port I has a command in progress (R171 (b)), and only of a command in progress. -/
def State.stepPortF (s : State) : Host.Outcome State Fault Refusal :=
  if s.phaseI = .idle ∧ s.phaseF ≠ .idle then exec s.cmdF.instr s else .next s

/-- Port I takes a step of its command in progress. -/
def State.stepPortI (s : State) : Host.Outcome State Fault Refusal :=
  if s.phaseI ≠ .idle then exec s.cmdI.instr s else .next s

/-- The interrupt line as the decoder sees it: asserted while a fired timer's interrupt reaches the Scheduler (R69,
R170, R186). -/
def State.irqLine (s : State) : Word := if s.svcPending = true ∧ s.tEnabled = true then 1#32 else 0#32

/-- The host takes the pending interrupt (R186). -/
def State.takeIrq (s : State) : Host.Outcome State Fault Refusal :=
  match decode .irq s.irqLine with
  | .ok i => exec i s
  | .error _ => .next s

/-- A write to `CMD_F` (R44, R60, R67): the word is stored for read-back; while the port is busy that is all; else it is
accepted, and an illegal word fails at once. -/
def State.writeCmdF (s : State) (w : Word) : Host.Outcome State Fault Refusal :=
  let s := { s with cmdWordF := w }
  if s.phaseF ≠ .idle then .next s
  else match decode .f w with
    | .ok i => exec i s
    | .error _ => .next (s.fail .f .illegalCmd)

/-- A write to `CMD_I` (R44, R60, R67, R68). -/
def State.writeCmdI (s : State) (w : Word) : Host.Outcome State Fault Refusal :=
  let s := { s with cmdWordI := w }
  if s.phaseI ≠ .idle then .next s
  else match decode .i w with
    | .ok i => exec i s
    | .error _ => .next (s.fail .i .illegalCmd)

/-- Whether the context that issues a bus access runs: while port I is busy the ordinary interrupt handler has
preempted the foreground (R171 (b)). Log 19, 26. -/
def State.contextRuns (s : State) (ctx : Context) : Bool :=
  match ctx with
  | .foreground => decide (s.phaseI = .idle)
  | .interrupt => true

/-- A bus write (R41, R44). -/
def State.doBusWrite (s : State) (off : Nat) (v : Word) : Host.Outcome State Fault Refusal :=
  if off = offCmdF then s.writeCmdF v
  else if off = offCmdI then s.writeCmdI v
  else .next (s.writeReg off v)

/-- The reset input (R195, R196): every register at its reset value; the pins, the counter and the configuration are
not the block's to reset, and the environment goes on. Log 24. -/
def State.doReset (s : State) : State :=
  { State.resetWith s.cfg s.gpio s.ccount with
    inputs := s.inputs, delays := s.delays, replies := s.replies, draws := s.draws
    busData := s.busData, trace := s.trace }

/-- One input of the environment. -/
def perform (e : Input) (s : State) : Host.Outcome State Fault Refusal :=
  match e with
  | .portF => s.stepPortF
  | .portI => s.stepPortI
  | .timerIrq => s.takeIrq
  | .elapse n => .next (s.elapse n)
  | .busRead ctx off width =>
    if s.contextRuns ctx then busAccess s.cfg off width (.next { s with busData := s.readReg off }) else .next s
  | .busWrite ctx off width v =>
    if s.contextRuns ctx then busAccess s.cfg off width (s.doBusWrite off v) else .next s
  | .reset => .next s.doReset

/-- The next input and the state without it: the first given one, else a free value (U10). Log 1. -/
def State.nextInput (s : State) : Input × State :=
  match s.inputs with
  | e :: rest => (e, { s with inputs := rest })
  | [] => (Config.freeInput s.draws, { s with draws := s.draws + 1 })

/-- A table row's bits presented where an instruction is selected: a command word as the next foreground write to
`CMD_F` with both ports idle, so that it is accepted (R44, R60); the interrupt line by a fired timer whose interrupt is
enabled, the host taking it next (R69, R186). Logs 7, 8. -/
def State.present (s : State) (port : Port) (w : Word) : State :=
  match port with
  | .f => { s with phaseF := .idle, phaseI := .idle, inputs := .busWrite .foreground offCmdF 4 w :: s.inputs }
  | .i => { s with phaseI := .idle, inputs := .busWrite .interrupt offCmdI 4 w :: s.inputs }
  | .irq =>
    { s with svcPending := decide (w = 1#32), tEnabled := true, inputs := .timerIrq :: s.inputs }

end Sys2Proof.Machine
end

