-- ==== Sys2Proof/Machine/Step.lean ====
section
/-! DEFINITION. One step of the machine: the next input of the environment. -/

namespace Sys2Proof.Machine

/-- One step (U10, R46): the environment's next input is performed. -/
def step (s : State) : Host.Outcome State Fault Refusal := perform s.nextInput.1 s.nextInput.2

/-- `s` with a table row's bits placed where the very next step selects its instruction. Log 8. -/
def State.withFetchWord (s : State) (nbits w : Nat) : State := s.present (tablePort nbits) (BitVec.ofNat 32 w)

end Sys2Proof.Machine
end

