-- ==== Sys2Proof/Machine/Lines.lean ====
section
/-! DEFINITION. The textual syntax of traces (R71): a line, its text, and the inputs it stands for; and the
pseudo-commands (R72). -/

namespace Sys2Proof.Machine

/-- A line of the trace syntax (R71). `service` is an event, not a command: `at_` is the value its first read of the
counter returns. -/
inductive Line where
  | startUs (pin : Byte) (high low run : Word) (align : Option Nat) (offset : Word) (autoPwm : Bool)
  | startCcy (pin : Byte) (high low run : Word) (align : Option Nat) (offset : Word) (autoPwm : Bool)
  | stop (pin : Byte)
  | istop (pin : Byte)
  | setcb (en : Bool)
  | service (at_ : Word)
deriving DecidableEq, Repr

/-- The field `align` of a line: `none` is spelled `0xFF` (R71). -/
def alignField (a : Option Nat) : Byte :=
  match a with
  | some n => BitVec.ofNat 8 n
  | none => 0xFF#8

/-- A foreground write of a 32-bit word. -/
def writeWord (off : Nat) (v : Word) : Input := .busWrite .foreground off 4 v

/-- The four operand writes of a start and its command word (R71). -/
def startWrites (i : Instr) (high low run offset : Word) : List Input :=
  [writeWord 0x004 high, writeWord 0x008 low, writeWord 0x00C run, writeWord 0x010 offset, writeWord offCmdF (encode i)]

/-- The inputs of a line, in order, written while the counter reads `now` (R71): the bus writes of a command; for a
`SERVICE` the time to its instant and the interrupt, its first read costing no cycle (log 13). -/
def Line.inputs (now : Word) : Line → List Input
  | .startUs pin high low run align offset autoPwm =>
    startWrites (.startUs autoPwm (alignField align) pin) high low run offset
  | .startCcy pin high low run align offset autoPwm =>
    startWrites (.startCcy autoPwm (alignField align) pin) high low run offset
  | .stop pin => [writeWord offCmdF (encode (.stop pin))]
  | .istop pin => [.busWrite .interrupt offCmdI 4 (encode (.istop pin))]
  | .setcb en => [writeWord offCmdF (encode (.setcb en))]
  | .service at_ => [.elapse (at_ - now).toNat, .timerIrq]

/-- The operands of a start, in the order and the spelling of R71. -/
def startText (pin : Byte) (high low run : Word) (align : Option Nat) (offset : Word) (autoPwm : Bool) : String :=
  " pin=" ++ toString pin.toNat ++ " high=" ++ toString high.toNat ++ " low=" ++ toString low.toNat
    ++ " run=" ++ toString run.toNat
    ++ " align=" ++ (match align with | some n => toString n | none => "none")
    ++ " offset=" ++ toString offset.toNat ++ " autopwm=" ++ (if autoPwm then "1" else "0")

/-- The text of a line, its numbers in decimal (R71). -/
def Line.text : Line → String
  | .startUs pin high low run align offset autoPwm => "START_US" ++ startText pin high low run align offset autoPwm
  | .startCcy pin high low run align offset autoPwm => "START_CCY" ++ startText pin high low run align offset autoPwm
  | .stop pin => "STOP pin=" ++ toString pin.toNat
  | .istop pin => "ISTOP pin=" ++ toString pin.toNat
  | .setcb en => "SETCB en=" ++ (if en then "1" else "0")
  | .service at_ => "SERVICE at=" ++ toString at_.toNat

/-- `CLRCB` (R72). -/
def Line.clrcb : Line := .setcb false

/-- `UPDATE` (R72): a `START_CCY` whose author means the pin to be live. -/
def Line.update (pin : Byte) (high low run : Word) (autoPwm : Bool) : Line :=
  .startCcy pin high low run none 0#32 autoPwm

/-- `PWM` (R72). -/
def Line.pwm (pin : Byte) (duty period : Word) : Line := .startCcy pin duty (period - duty) 0#32 none 0#32 true

end Sys2Proof.Machine
end

