-- ==== Sys2Proof/Machine/Runs.lean ====
section
/-! DEFINITION. Runs of the machine in an environment, and the fairness of R188: what the source guarantees of the
environment of every run, since no rule of the block itself can. Log 29. -/

namespace Sys2Proof.Machine

/-- The environment `e` drives the machine through the states `r`: at every instant the input it gives is the one the
step performs (U10). -/
def RunOf (e : Nat → Input) (r : Nat → State) : Prop :=
  ∀ n, step { r n with inputs := e n :: (r n).inputs } = .next (r (n + 1))

/-- The cycles that pass in an input (R180). Those a `SERVICE` takes at its reads are draws of its own (U7). -/
def cyclesOf : Input → Nat
  | .portF => 0
  | .portI => 0
  | .timerIrq => 0
  | .elapse n => n
  | .busRead .. => 0
  | .busWrite .. => 0
  | .reset => 0

/-- The input starts a `SERVICE`: the host takes an interrupt that is pending and enabled (R186). -/
def State.serviceStarts (s : State) (e : Input) : Prop := e = .timerIrq ∧ s.svcPending = true ∧ s.tEnabled = true

/-- The guard of a step of a stop: `T2` and `T4` wait for the slot, no other step waits (R103, R105). -/
def State.stopGuard (s : State) (k : StopStep) : Bool :=
  match k with
  | .t0 => true
  | .t1 => true
  | .t2 => decide (s.toDisable = pinNone)
  | .t3 => true
  | .t4 => decide (s.toDisable = pinNone)
  | .t5 => true

/-- The next step of port F is enabled: a command is in progress, port I is idle (R171 (b)), and the slot a waiting step
waits for reads `NONE` (R88, R90, R91, R103, R105). -/
def State.readyF (s : State) : Bool :=
  decide (s.phaseI = .idle) && match s.phaseF with
    | .idle => false
    | .f10 => decide (s.toSet = pinNone)
    | .f12 => decide (s.toSet = pinNone)
    | .l8 => decide (s.toSet = pinNone)
    | .l9 => decide (s.toSet = pinNone)
    | .t k => s.stopGuard k
    | _ => true

/-- The next step of port I is enabled (R107). -/
def State.readyI (s : State) : Bool :=
  match s.phaseI with
  | .idle => false
  | .t k => s.stopGuard k

/-- R188 (a): an interrupt that stays pending and enabled is eventually taken. -/
def FairService (e : Nat → Input) (r : Nat → State) : Prop :=
  ∀ n, (∀ m, n ≤ m → (r m).svcPending = true ∧ (r m).tEnabled = true) → ∃ m, n ≤ m ∧ e m = .timerIrq

/-- R188 (b): the counter advances, again and again. -/
def FairTime (e : Nat → Input) : Prop := ∀ n, ∃ m k, n ≤ m ∧ 0 < k ∧ e m = .elapse k

/-- R188 (c): a port whose next step is enabled takes it, at that instant or at a later one at which it is enabled,
unless a reset abandons the command. -/
def FairPort (e : Nat → Input) (ready : Nat → Bool) (takes : Input) : Prop :=
  ∀ n, ready n = true → ∃ m, n ≤ m ∧ ((e m = takes ∧ ready m = true) ∨ e m = .reset)

/-- The fairness assumptions of R188 on a run. -/
def Fair (e : Nat → Input) (r : Nat → State) : Prop :=
  FairService e r ∧ FairTime e ∧ FairPort e (fun n => (r n).readyF) .portF ∧ FairPort e (fun n => (r n).readyI) .portI

end Sys2Proof.Machine
end

