-- ==== Sys2Proof/Safety.lean ====
section
/-! DEFINITION. What a good state is: the invariants the rules state or imply, what the Scheduler leaves alone, and a
command executed several times. Used by the statements. -/

namespace Sys2Proof

/-- `i` is a `START_US` or a `START_CCY`. -/
def Instr.isStart : Instr → Bool
  | .startUs .. => true
  | .startCcy .. => true
  | .stop _ => false
  | .setcb _ => false
  | .istop _ => false
  | .service => false

end Sys2Proof

namespace Sys2Proof.Machine

/-- The next `n` atomic steps of a command, with nothing of another agent between them. -/
def execSteps (i : Instr) : Nat → State → Host.Outcome State Fault Refusal
  | 0, s => .next s
  | n + 1, s =>
    match exec i s with
    | .next t => execSteps i n t
    | .fault r => .fault r
    | .refused r => .refused r

/-! ### Invariants -/

/-- Bits `NPINS .. 31` of the two masks read 0 (R23, R24). -/
def MasksInMap (s : State) : Prop :=
  s.enabled &&& ~~~ pinMask s.cfg = 0#32 ∧ s.states &&& ~~~ pinMask s.cfg = 0#32

/-- Every enabled pin lies within the cached bounds (R36). -/
def BoundsHold (s : State) : Prop :=
  ∀ p, s.isEnabled p = true → s.firstPin.toNat ≤ p ∧ p ≤ s.lastPin.toNat

/-- The timer is attached exactly while the subsystem runs (R111, R112), and then exactly one of "a count is running"
and "an interrupt is pending" holds (R161, R170, R186); while it is dormant neither does (R189). -/
def TimerCoherent (s : State) : Prop :=
  s.tEnabled = s.timerRunning
    ∧ (s.timerRunning = true → s.svcPending = !s.tArmed)
    ∧ (s.timerRunning = false → s.tArmed = false ∧ s.svcPending = false)

/-- The phase of port F is a step of a start after its validation (R81). -/
def PhaseF.pastValidation : PhaseF → Bool
  | .f1 | .f2 | .f3 | .f4 | .f5 | .f6 | .f7 | .f8 | .f9 | .f10 | .f11 | .f12 => true
  | .l5 | .l6 | .l7 | .l8 | .l9 => true
  | _ => false

/-- The phase of port F is a step of a start after both durations were staged (R84). -/
def PhaseF.pastStaging : PhaseF → Bool
  | .f3 | .f4 | .f5 | .f6 | .f7 | .f8 | .f9 | .f10 | .f11 | .f12 => true
  | .l5 | .l6 | .l7 | .l8 | .l9 => true
  | _ => false

/-- The phase of port F at which a published set request may be outstanding (R88, R90, R91). -/
def PhaseF.awaitsSet : PhaseF → Bool
  | .f11 | .f12 | .l9 => true
  | _ => false

/-- The phase belongs to the latched command (R12, R81, R100, R110). -/
def LatchF.hasPhase (c : LatchF) (k : PhaseF) : Prop :=
  match k with
  | .idle => True
  | .v => c.op = .startUs ∨ c.op = .startCcy
  | .t _ => c.op = .stop
  | .c0 => c.op = .setcb
  | .c1 => c.op = .setcb
  | _ => c.op = .startUs ∨ c.op = .startCcy

/-- The latched start passed its validation: the pin exists and `0 <= duty <= period`, `0 < period < 2^31` (R22,
R82). -/
def LatchF.Valid (c : LatchF) (cfg : Cfg) : Prop :=
  c.pin.toNat < cfg.npins ∧ c.duty ≤ c.period ∧ 0#32 < c.period ∧ c.period < 0x80000000#32

/-- The commands in progress and the request slots fit together (R12, R25, R88, R102). -/
def CommandsCoherent (s : State) : Prop :=
  s.cmdF.hasPhase s.phaseF
    ∧ (s.phaseF.pastValidation = true → s.cmdF.Valid s.cfg)
    ∧ (s.toSet = pinNone ∨ (s.phaseF.awaitsSet = true ∧ s.toSet = s.cmdF.pin))
    ∧ (s.toDisable = pinNone ∨ s.toDisable.toNat < s.cfg.npins)
    ∧ (s.phaseF = .t .t2 → s.cmdF.pin.toNat < s.cfg.npins)
    ∧ (s.phaseI = .t .t2 → s.cmdI.pin.toNat < s.cfg.npins)

/-- Every enabled pin has a period in `1 .. 2^31 - 1` (R22), and once a start has staged its durations its pin holds
its period (R84). -/
def PeriodsPositive (s : State) : Prop :=
  (∀ p, p < 32 → s.isEnabled p = true →
      0#32 < (s.desc p).periodCcys ∧ (s.desc p).periodCcys < 0x80000000#32)
    ∧ (s.phaseF.pastStaging = true → (s.desc s.cmdF.pin.toNat).periodCcys = s.cmdF.period)

/-- A pin is enabled only while the timer subsystem runs (R113). -/
def EnabledImpliesRunning (s : State) : Prop := s.enabled ≠ 0#32 → s.timerRunning = true

/-! ### What the Scheduler leaves alone -/

/-- What no part of a `SERVICE` writes: the column "Scheduler" of the table of R34, with the latches, the phases and the
results (R174), the bits of R27 and R28, and the timer's enable. -/
structure SchedulerKeeps (s t : State) : Prop where
  cfg : t.cfg = s.cfg
  arg0 : t.arg0 = s.arg0
  arg1 : t.arg1 = s.arg1
  arg2 : t.arg2 = s.arg2
  arg3 : t.arg3 = s.arg3
  cmdWordF : t.cmdWordF = s.cmdWordF
  cmdWordI : t.cmdWordI = s.cmdWordI
  cmdF : t.cmdF = s.cmdF
  cmdI : t.cmdI = s.cmdI
  phaseF : t.phaseF = s.phaseF
  phaseI : t.phaseI = s.phaseI
  fResult : t.fResult = s.fResult
  iResult : t.iResult = s.iResult
  timerRunning : t.timerRunning = s.timerRunning
  cbRegistered : t.cbRegistered = s.cbRegistered
  tEnabled : t.tEnabled = s.tEnabled
  inputs : t.inputs = s.inputs
  busData : t.busData = s.busData
  dutyCcys : ∀ p, (t.desc p).dutyCcys = (s.desc p).dutyCcys
  periodCcys : ∀ p, (t.desc p).periodCcys = (s.desc p).periodCcys
  autoPwm : ∀ p, (t.desc p).autoPwm = (s.desc p).autoPwm
  alignPhase : ∀ p, (t.desc p).alignPhase = (s.desc p).alignPhase

end Sys2Proof.Machine
end

