-- ==== Sys2Proof/Certificates/Slice0/Obligations.lean ====
section
/-! DEFINITION. The statements for the provers. An equation `exec i s = .next { s with … }` is a result, a completion
and a frame at once: every field not named, the whole register map behind it, is as before. -/

open Sys2Proof Sys2Proof.Machine

/-! ### Encoding -/

/-- Decoding what was encoded gives the instruction back, for every instruction and every operand value (R61 to R69). -/
def Obligations.DecodeOfEncodeIsTheInstruction : Prop :=
  ∀ i : Instr, decode i.port (encode i) = .ok i

/-- A word that decodes on a port belongs to exactly one instruction, one of that port's, and is its encoding: no bit of
a command word is dropped (R61, R66 to R69). -/
def Obligations.EncodeOfDecodeIsTheWord : Prop :=
  ∀ (p : Port) (w : Word) (i : Instr), decode p w = .ok i → i.WellFormedOn p ∧ encode i = w

/-- Words written out in the spec decode to the instructions it gives for them: the example of R71 and the vectors
V-ENC 1, 6, 8, 9, 10 and 12, and the interrupt line (R69). -/
def Obligations.SpecWordsDecode : Prop :=
  decode .f 0x00FF0501#32 = .ok (.startUs false 0xFF#8 5#8)
    ∧ decode .f 0x00FF0502#32 = .ok (.startCcy false 0xFF#8 5#8)
    ∧ decode .f 0x00010402#32 = .ok (.startCcy false 1#8 4#8)
    ∧ decode .f 0x01FF0302#32 = .ok (.startCcy true 0xFF#8 3#8)
    ∧ decode .f 0x0000C803#32 = .ok (.stop 200#8)
    ∧ decode .f 0x00000104#32 = .ok (.setcb true)
    ∧ decode .i 0x00000103#32 = .ok (.istop 1#8)
    ∧ decode .irq 1#32 = .ok .service

/-- R66: on port F a word selects the row with `(w & mask) = match`, and no word but these selects one. -/
def Obligations.PortFTableSelectsRows : Prop :=
  ∀ w : Word,
    (w &&& 0xFE0000FF#32 = 1#32 →
        decode .f w = .ok (.startUs (w.getLsbD 24) (w.extractLsb' 16 8) (w.extractLsb' 8 8)))
      ∧ (w &&& 0xFE0000FF#32 = 2#32 →
        decode .f w = .ok (.startCcy (w.getLsbD 24) (w.extractLsb' 16 8) (w.extractLsb' 8 8)))
      ∧ (w &&& 0xFFFF00FF#32 = 3#32 → decode .f w = .ok (.stop (w.extractLsb' 8 8)))
      ∧ (w &&& 0xFFFFFEFF#32 = 4#32 → decode .f w = .ok (.setcb (w.getLsbD 8)))
      ∧ (w &&& 0xFE0000FF#32 ≠ 1#32 → w &&& 0xFE0000FF#32 ≠ 2#32 → w &&& 0xFFFF00FF#32 ≠ 3#32 →
        w &&& 0xFFFFFEFF#32 ≠ 4#32 → decode .f w = .error .illegalOnPortF)

/-- R68: port I accepts one command, of the pattern of `STOP`; every other word is illegal there. -/
def Obligations.PortITableSelectsIstop : Prop :=
  ∀ w : Word,
    (w &&& 0xFFFF00FF#32 = 3#32 → decode .i w = .ok (.istop (w.extractLsb' 8 8)))
      ∧ (w &&& 0xFFFF00FF#32 ≠ 3#32 → decode .i w = .error .illegalOnPortI)

/-! ### The step -/

/-- A step runs the instruction that its input selects: a command word accepted on an idle port, stored for read-back
and decoded (R44, R60); the next step of the latched command of a port (R12), for port F only while port I is idle
(R171 (b)); a `SERVICE` when the timer's interrupt is pending and enabled (R69, R186). -/
def Obligations.StepRunsTheSelectedInstruction : Prop :=
  ∀ (s : State) (rest : List Input),
    (∀ ctx w i, s.inputs = .busWrite ctx 0x000 4 w :: rest → s.contextRuns ctx = true → s.phaseF = .idle →
        decode .f w = .ok i → step s = exec i { s with inputs := rest, cmdWordF := w })
      ∧ (∀ ctx w i, s.inputs = .busWrite ctx 0x020 4 w :: rest → s.contextRuns ctx = true → s.phaseI = .idle →
        decode .i w = .ok i → step s = exec i { s with inputs := rest, cmdWordI := w })
      ∧ (s.inputs = .portF :: rest → s.phaseF ≠ .idle → s.phaseI = .idle →
        step s = exec s.cmdF.instr { s with inputs := rest })
      ∧ (s.inputs = .portF :: rest → s.phaseI ≠ .idle → step s = .next { s with inputs := rest })
      ∧ (s.inputs = .portI :: rest → s.phaseI ≠ .idle → step s = exec s.cmdI.instr { s with inputs := rest })
      ∧ (s.inputs = .timerIrq :: rest → s.svcPending = true → s.tEnabled = true →
        step s = exec .service { s with inputs := rest })

/-- An accepted word that selects no row fails at once and changes nothing but the read-back and the result (R67); a
write while the port is busy is stored for read-back and otherwise ignored (R44). -/
def Obligations.UnselectedCommandWrites : Prop :=
  ∀ (s : State) (ctx : Context) (w : Word), s.contextRuns ctx = true →
    (∀ e, s.phaseF = .idle → decode .f w = .error e →
        perform (.busWrite ctx 0x000 4 w) s = .next { s with cmdWordF := w, fResult := false })
      ∧ (∀ e, s.phaseI = .idle → decode .i w = .error e →
        perform (.busWrite ctx 0x020 4 w) s = .next { s with cmdWordI := w, iResult := false })
      ∧ (s.phaseF ≠ .idle → perform (.busWrite ctx 0x000 4 w) s = .next { s with cmdWordF := w })
      ∧ (s.phaseI ≠ .idle → perform (.busWrite ctx 0x020 4 w) s = .next { s with cmdWordI := w })

/-! ### The register map -/

/-- Bus writes other than command words: `ARG0` to `ARG3` store the value (R10, R44), every other word of the map
ignores it (R40, R41); an access of another width or alignment, or past the map, stops the machine (R42, U1; the names
of the two stops are the model's choice, log 10). -/
def Obligations.RegisterMapWrites : Prop :=
  ∀ (s : State) (ctx : Context) (off width : Nat) (v : Word), s.contextRuns ctx = true →
    ((width ≠ 4 ∨ off % 4 ≠ 0) → perform (.busWrite ctx off width v) s = .refused .busAccessUndefined
        ∧ perform (.busRead ctx off width) s = .refused .busAccessUndefined)
      ∧ (width = 4 → off % 4 = 0 → 0x100 + 0x20 * s.cfg.npins ≤ off →
        perform (.busWrite ctx off width v) s = .fault .noSuchRegister
          ∧ perform (.busRead ctx off width) s = .fault .noSuchRegister)
      ∧ perform (.busWrite ctx 0x004 4 v) s = .next { s with arg0 := v }
      ∧ perform (.busWrite ctx 0x008 4 v) s = .next { s with arg1 := v }
      ∧ perform (.busWrite ctx 0x00C 4 v) s = .next { s with arg2 := v }
      ∧ perform (.busWrite ctx 0x010 4 v) s = .next { s with arg3 := v }
      ∧ (width = 4 → off % 4 = 0 → off < 0x100 + 0x20 * s.cfg.npins →
        off ∉ [0x000, 0x004, 0x008, 0x00C, 0x010, 0x020] → perform (.busWrite ctx off width v) s = .next s)

/-- Bus reads: a read changes nothing but the data handed to the host (R44), and each word of the map reads the state
that R41 names for it; reserved words read 0 (R40). -/
def Obligations.RegisterMapReads : Prop :=
  ∀ s : State,
    (∀ ctx off, s.contextRuns ctx = true → off % 4 = 0 → off < 0x100 + 0x20 * s.cfg.npins →
        perform (.busRead ctx off 4) s = .next { s with busData := s.readReg off })
      ∧ s.readReg 0x000 = s.cmdWordF ∧ s.readReg 0x004 = s.arg0 ∧ s.readReg 0x008 = s.arg1
      ∧ s.readReg 0x00C = s.arg2 ∧ s.readReg 0x010 = s.arg3 ∧ s.readReg 0x014 = s.statusWord
      ∧ s.readReg 0x018 = s.enabled ∧ s.readReg 0x01C = s.states ∧ s.readReg 0x020 = s.cmdWordI
      ∧ s.readReg 0x024 = s.reqWord ∧ s.readReg 0x028 = s.scanWord
      ∧ (∀ off, 0x02C ≤ off → off < 0x100 → s.readReg off = 0#32)
      ∧ (∀ p, p < s.cfg.npins →
        s.readReg (0x100 + 0x20 * p + 0x00) = (s.desc p).nextEventCcy
          ∧ s.readReg (0x100 + 0x20 * p + 0x04) = (s.desc p).nextPeriodCcy
          ∧ s.readReg (0x100 + 0x20 * p + 0x08) = (s.desc p).endDutyCcy
          ∧ s.readReg (0x100 + 0x20 * p + 0x0C) = (s.desc p).dutyCcys
          ∧ s.readReg (0x100 + 0x20 * p + 0x10) = (s.desc p).periodCcys
          ∧ s.readReg (0x100 + 0x20 * p + 0x14) = (s.desc p).expiryCcy
          ∧ s.readReg (0x100 + 0x20 * p + 0x18) = (s.desc p).ctrlWord
          ∧ s.readReg (0x100 + 0x20 * p + 0x1C) = 0#32)

/-- R70 and R73 bit by bit: `STATUS`, `REQ`, `SCAN` and `CTRL`, their reserved bits 0. -/
def Obligations.StatusRegistersArePacked : Prop :=
  (∀ s : State,
      s.statusWord.getLsbD 0 = decide (s.phaseF ≠ .idle) ∧ s.statusWord.getLsbD 1 = s.fResult
        ∧ s.statusWord.getLsbD 2 = decide (s.phaseF = .f12 ∨ s.phaseF = .l9)
        ∧ s.statusWord.getLsbD 4 = decide (s.phaseI ≠ .idle) ∧ s.statusWord.getLsbD 5 = s.iResult
        ∧ s.statusWord.getLsbD 8 = s.timerRunning ∧ s.statusWord.getLsbD 9 = s.cbRegistered
        ∧ (∀ k, k = 3 ∨ k = 6 ∨ k = 7 ∨ 10 ≤ k → s.statusWord.getLsbD k = false)
        ∧ s.reqWord.extractLsb' 0 8 = s.toSet ∧ s.reqWord.extractLsb' 8 8 = s.toDisable
        ∧ s.reqWord.extractLsb' 16 16 = 0#16
        ∧ s.scanWord.extractLsb' 0 8 = s.firstPin ∧ s.scanWord.extractLsb' 8 8 = s.lastPin
        ∧ s.scanWord.extractLsb' 16 8 = s.cursor ∧ s.scanWord.extractLsb' 24 8 = 0#8)
    ∧ ∀ d : Desc,
      d.ctrlWord.extractLsb' 0 2 =
          (match d.mode with | .infinite => 0#2 | .expires => 1#2 | .updateExpiry => 2#2 | .init => 3#2)
        ∧ d.ctrlWord.extractLsb' 2 6 = 0#6 ∧ d.ctrlWord.extractLsb' 8 8 = d.alignPhase
        ∧ d.ctrlWord.getLsbD 16 = d.autoPwm ∧ d.ctrlWord.extractLsb' 17 15 = 0#15

/-! ### Arithmetic -/

/-- R2 and R4: the signed-difference comparisons, right for instants less than 2^31 apart, and the microsecond
conversion. -/
def Obligations.TimeArithmetic : Prop :=
  (∀ a b : Word, (reached a b = true ↔ 0 ≤ (a - b).toInt) ∧ (after a b = true ↔ 0 < (a - b).toInt))
    ∧ (∀ (a : Word) (n : Nat), n < 2 ^ 31 →
      reached (a + BitVec.ofNat 32 n) a = true ∧ after a (a + BitVec.ofNat 32 n) = false)
    ∧ ∀ (c : Cfg) (v : Word), (us2Ccy c v).toNat = v.toNat * c.ccyPerUs % 2 ^ 32

/-- R48: `GpioWrite` drives one pin and no other, by read-modify-write on `RMW_PIN` and by set or clear elsewhere, and
a write of the level the pin has is still a write. -/
def Obligations.GpioWriteDrivesOnePin : Prop :=
  ∀ (s : State) (p : Nat) (v : Bool), p < s.cfg.npins →
    (∀ q, maskBit (s.gpioWrite p v).gpio q = if q = p then v else maskBit s.gpio q)
      ∧ s.gpioWrite p v =
        { s with
          gpio := (s.gpioWrite p v).gpio
          trace := .gpioWrite p v (if s.cfg.rmwPin = some p then .readModifyWrite
            else if v = true then .bitSet else .bitClear) s.ccount :: s.trace }

/-! ### Acceptance -/

/-- Acceptance of each command on its idle port: the fields (R64) and, for a start, the scaled operands (R65) are
latched and the phase is the first step (R60). -/
def Obligations.AcceptanceLatchesTheCommand : Prop :=
  ∀ s : State,
    (s.phaseF = .idle → ∀ a l p,
        exec (.startUs a l p) s = .next { s with
          phaseF := .v
          cmdF := { s.cmdF with
            op := .startUs, pin := p, align := l, autoPwm := a
            high := us2Ccy s.cfg s.arg0, low := us2Ccy s.cfg s.arg1
            run := us2Ccy s.cfg s.arg2, offset := us2Ccy s.cfg s.arg3 } }
          ∧ exec (.startCcy a l p) s = .next { s with
            phaseF := .v
            cmdF := { s.cmdF with
              op := .startCcy, pin := p, align := l, autoPwm := a
              high := s.arg0, low := s.arg1, run := s.arg2, offset := s.arg3 } })
      ∧ (s.phaseF = .idle → ∀ p,
        exec (.stop p) s = .next { s with phaseF := .t .t0, cmdF := { s.cmdF with op := .stop, pin := p } })
      ∧ (s.phaseF = .idle → ∀ en,
        exec (.setcb en) s = .next { s with phaseF := .c0, cmdF := { s.cmdF with op := .setcb, en := en } })
      ∧ (s.phaseI = .idle → ∀ p,
        exec (.istop p) s = .next { s with phaseI := .t .t0, cmdI := { s.cmdI with pin := p } })

/-! ### START_US and START_CCY -/

/-- Step `V` (R82, R83): a start with an operand that fails a test ends with result 0 and nothing else; any other goes on
with a duty and a period that meet R22, the period stretched to the least multiple that meets the minimum exactly when
one phase is empty. -/
def Obligations.StartValidatesAndStretches : Prop :=
  ∀ (s : State) (i : Instr), i.isStart = true → s.cmdF.instr = i → s.phaseF = .v →
    let pin := s.cmdF.pin.toNat
    let high := s.cmdF.high
    let low := s.cmdF.low
    let bad := s.cfg.npins ≤ pin ∨ pin ∈ s.cfg.flashPins ∨ (s.cfg.npins : Int) ≤ s.cmdF.align.toInt
      ∨ (high + low).toInt ≤ 0 ∨ high + low < high
    (bad → exec i s = .next { s with fResult := false, phaseF := .idle })
      ∧ (¬bad → ∃ duty period : Word,
        exec i s = .next { s with cmdF := { s.cmdF with duty := duty, period := period }, phaseF := .f1 }
          ∧ duty ≤ period ∧ 0#32 < period ∧ period < 0x80000000#32
          ∧ ((s.cfg.minServiceCcys ≤ (high + low).toNat ∨ (high ≠ 0#32 ∧ low ≠ 0#32)) →
            duty = high ∧ period = high + low)
          ∧ ((high + low).toNat < s.cfg.minServiceCcys → (high = 0#32 ∨ low = 0#32) →
            (∃ m, period.toNat = m * (high + low).toNat)
              ∧ s.cfg.minServiceCcys ≤ period.toNat ∧ period.toNat < s.cfg.minServiceCcys + (high + low).toNat
              ∧ duty = if high = 0#32 then 0#32 else period))

/-- R84: steps `F1`, `F2`, `F3` write `dutyCcys`, `periodCcys`, `autoPwm`, one field each, whether or not the pin is
enabled. A write of a descriptor, by these steps and by every other one, is read back there and nowhere else (R34, R45). -/
def Obligations.StartStagesConfiguration : Prop :=
  (∀ (s : State) (i : Instr), i.isStart = true → s.cmdF.instr = i →
    let p := s.cmdF.pin.toNat
    (s.phaseF = .f1 → exec i s =
        .next { s.setDesc p { s.desc p with dutyCcys := s.cmdF.duty } with phaseF := .f2 })
      ∧ (s.phaseF = .f2 → exec i s =
        .next { s.setDesc p { s.desc p with periodCcys := s.cmdF.period } with phaseF := .f3 })
      ∧ (s.phaseF = .f3 → exec i s =
        .next { s.setDesc p { s.desc p with autoPwm := s.cmdF.autoPwm } with phaseF := .f4 }))
    ∧ ∀ (s : State) (p q : Nat) (d : Desc), p < s.cfg.npins →
      (s.setDesc p d).desc q = if q = p then d else s.desc q

/-- R85: step `F4` reads `enabled[pin]` once and branches. -/
def Obligations.StartBranchesOnEnabled : Prop :=
  ∀ (s : State) (i : Instr), i.isStart = true → s.cmdF.instr = i → s.phaseF = .f4 →
    (s.isEnabled s.cmdF.pin.toNat = false →
        exec i s = .next { s with cmdF := { s.cmdF with live := false }, phaseF := .f5 })
      ∧ (s.isEnabled s.cmdF.pin.toNat = true →
        exec i s = .next { s with cmdF := { s.cmdF with live := true }, phaseF := .l5 })

/-- R86: steps `F5` to `F8` stage the descriptor of a fresh start, one field per step. -/
def Obligations.FreshStartStagesDescriptor : Prop :=
  ∀ (s : State) (i : Instr), i.isStart = true → s.cmdF.instr = i →
    let p := s.cmdF.pin.toNat
    (s.phaseF = .f5 → exec i s =
        .next { s.setDesc p { s.desc p with nextPeriodCcy := s.cmdF.offset } with phaseF := .f6 })
      ∧ (s.phaseF = .f6 → exec i s =
        .next { s.setDesc p { s.desc p with expiryCcy := s.cmdF.run } with phaseF := .f7 })
      ∧ (s.phaseF = .f7 → exec i s =
        .next { s.setDesc p { s.desc p with mode := .init } with phaseF := .f8 })
      ∧ (s.phaseF = .f8 → exec i s =
        .next { s.setDesc p { s.desc p with
          alignPhase := if s.cmdF.align.toInt < 0 then pinNone else s.cmdF.align } with phaseF := .f9 })

/-- R87: step `F9` drives the pin low exactly when the duty is zero. -/
def Obligations.ZeroDutyStartForcesPinLow : Prop :=
  ∀ (s : State) (i : Instr), i.isStart = true → s.cmdF.instr = i → s.phaseF = .f9 →
    (s.cmdF.duty = 0#32 → exec i s = .next { s.gpioWrite s.cmdF.pin.toNat false with phaseF := .f10 })
      ∧ (s.cmdF.duty ≠ 0#32 → exec i s = .next { s with phaseF := .f10 })

/-- R88: step `F10` publishes the request in one atomic step, and stays while the slot is taken. -/
def Obligations.FreshStartPublishes : Prop :=
  ∀ (s : State) (i : Instr), i.isStart = true → s.cmdF.instr = i → s.phaseF = .f10 →
    (s.toSet = pinNone → exec i s = .next { s with toSet := s.cmdF.pin, phaseF := .f11 })
      ∧ (s.toSet ≠ pinNone → exec i s = .next s)

/-- R89: step `F11` initialises a dormant timer subsystem, else re-arms a timer that is further than `KICK_CCYS` away,
else leaves it alone. -/
def Obligations.FreshStartMakesTheSchedulerRun : Prop :=
  ∀ (s : State) (i : Instr), i.isStart = true → s.cmdF.instr = i → s.phaseF = .f11 →
    (s.timerRunning = false → exec i s = .next { s with
        tEnabled := true, timerRunning := true, tArmed := true
        tFireAt := s.ccount + BitVec.ofNat 32 s.cfg.kickCcys, phaseF := .f12 })
      ∧ (s.timerRunning = true → s.cfg.kickCcys < s.timerRemaining → exec i s = .next { s with
        tArmed := true, tFireAt := s.ccount + BitVec.ofNat 32 s.cfg.kickCcys, phaseF := .f12 })
      ∧ (s.timerRunning = true → s.timerRemaining ≤ s.cfg.kickCcys → exec i s = .next { s with phaseF := .f12 })

/-- R90: steps `F12` and `L9` yield while they wait, and end the command with result 1 when the slot reads `NONE`. -/
def Obligations.StartEndsWhenRequestConsumed : Prop :=
  ∀ (s : State) (i : Instr), i.isStart = true → s.cmdF.instr = i → s.phaseF = .f12 ∨ s.phaseF = .l9 →
    s.fYield = true
      ∧ (s.toSet = pinNone → exec i s = .next { s with fResult := true, phaseF := .idle })
      ∧ (s.toSet ≠ pinNone → exec i s = .next s)

/-- R91: steps `L5` to `L8` of a live update, through the non-expiring mode. -/
def Obligations.LiveUpdatePassesThroughInfinite : Prop :=
  ∀ (s : State) (i : Instr), i.isStart = true → s.cmdF.instr = i →
    let p := s.cmdF.pin.toNat
    (s.phaseF = .l5 → exec i s =
        .next { s.setDesc p { s.desc p with mode := .infinite } with phaseF := .l6 })
      ∧ (s.phaseF = .l6 → s.cmdF.run = 0#32 → exec i s =
        .next { s.setDesc p { s.desc p with expiryCcy := s.cmdF.run } with phaseF := .l9 })
      ∧ (s.phaseF = .l6 → s.cmdF.run ≠ 0#32 → exec i s =
        .next { s.setDesc p { s.desc p with expiryCcy := s.cmdF.run } with phaseF := .l7 })
      ∧ (s.phaseF = .l7 → exec i s =
        .next { s.setDesc p { s.desc p with mode := .updateExpiry } with phaseF := .l8 })
      ∧ (s.phaseF = .l8 → s.toSet = pinNone →
        exec i s = .next { s with toSet := s.cmdF.pin, phaseF := .l9 })
      ∧ (s.phaseF = .l8 → s.toSet ≠ pinNone → exec i s = .next s)

/-- A fresh start runs from its acceptance to its wait: thirteen atomic steps stage the whole descriptor, publish the pin
and leave the timer running; no mask and no other descriptor changes (R81 to R89). -/
def Obligations.FreshStartRunsToItsWait : Prop :=
  ∀ (s : State) (i : Instr) (scale : Word → Word) (a : Bool) (l p : Byte),
    (i = .startUs a l p ∧ scale = us2Ccy s.cfg) ∨ (i = .startCcy a l p ∧ scale = id) →
    s.phaseF = .idle → s.toSet = pinNone → s.isEnabled p.toNat = false →
    validate s.cfg p l (scale s.arg0) (scale s.arg1) = none →
    ∃ t, execSteps i 13 s = .next t ∧ t.phaseF = .f12 ∧ t.toSet = p ∧ t.timerRunning = true
      ∧ t.enabled = s.enabled ∧ t.states = s.states ∧ t.toDisable = s.toDisable
      ∧ t.desc p.toNat = { s.desc p.toNat with
          dutyCcys := (stretch s.cfg (scale s.arg0) (scale s.arg1)).1
          periodCcys := (stretch s.cfg (scale s.arg0) (scale s.arg1)).2
          autoPwm := a
          nextPeriodCcy := scale s.arg3
          expiryCcy := scale s.arg2
          mode := .init
          alignPhase := if l.toInt < 0 then pinNone else l }
      ∧ ∀ q, q ≠ p.toNat → t.desc q = s.desc q

/-- A live update without a run time ends at once: nine atomic steps, no request, no kick, no `SERVICE` needed (R93 (e)). -/
def Obligations.LiveUpdateWithoutRunTimeEnds : Prop :=
  ∀ (s : State) (i : Instr) (scale : Word → Word) (a : Bool) (l p : Byte),
    (i = .startUs a l p ∧ scale = us2Ccy s.cfg) ∨ (i = .startCcy a l p ∧ scale = id) →
    s.phaseF = .idle → s.toSet = pinNone → s.isEnabled p.toNat = true → scale s.arg2 = 0#32 →
    validate s.cfg p l (scale s.arg0) (scale s.arg1) = none →
    ∃ t, execSteps i 9 s = .next t ∧ t.phaseF = .idle ∧ t.fResult = true ∧ t.toSet = pinNone
      ∧ t.enabled = s.enabled ∧ t.gpio = s.gpio ∧ t.tArmed = s.tArmed ∧ t.tFireAt = s.tFireAt
      ∧ t.desc p.toNat = { s.desc p.toNat with
          dutyCcys := (stretch s.cfg (scale s.arg0) (scale s.arg1)).1
          periodCcys := (stretch s.cfg (scale s.arg0) (scale s.arg1)).2
          autoPwm := a
          expiryCcy := 0#32
          mode := .infinite }
      ∧ ∀ q, q ≠ p.toNat → t.desc q = s.desc q

/-! ### STOP and ISTOP -/

/-- R101: step `T0` fails while the timer subsystem is dormant, whatever the pin, and changes nothing else. -/
def Obligations.StopFailsWhileDormant : Prop :=
  ∀ (s : State) (pin : Byte),
    (s.phaseF = .t .t0 → s.cmdF.instr = .stop pin →
        (s.timerRunning = false → exec (.stop pin) s = .next { s with fResult := false, phaseF := .idle })
          ∧ (s.timerRunning = true → exec (.stop pin) s = .next { s with phaseF := .t .t1 }))
      ∧ (s.phaseI = .t .t0 → s.cmdI.pin = pin →
        (s.timerRunning = false → exec (.istop pin) s = .next { s with iResult := false, phaseI := .idle })
          ∧ (s.timerRunning = true → exec (.istop pin) s = .next { s with phaseI := .t .t1 }))

/-- R102: step `T1` reads `enabled[pin]` into the live bit and branches; a pin `>= NPINS` reads as not enabled. -/
def Obligations.StopLooksAtEnabled : Prop :=
  ∀ (s : State) (pin : Byte) (live : Bool),
    (live = true ↔ pin.toNat < s.cfg.npins ∧ maskBit s.enabled pin.toNat = true) →
    (s.phaseF = .t .t1 → s.cmdF.instr = .stop pin →
        exec (.stop pin) s = .next { s with
          cmdF := { s.cmdF with live := live }, phaseF := .t (if live = true then .t2 else .t5) })
      ∧ (s.phaseI = .t .t1 → s.cmdI.pin = pin →
        exec (.istop pin) s = .next { s with
          cmdI := { s.cmdI with live := live }, phaseI := .t (if live = true then .t2 else .t5) })

/-- R103 and R105: step `T2` publishes the pin in one atomic step, and stays while the slot is taken; step `T4` waits,
without yielding, until the slot reads `NONE`. -/
def Obligations.StopPublishesAndWaits : Prop :=
  ∀ (s : State) (pin : Byte),
    (s.phaseF = .t .t2 → s.cmdF.instr = .stop pin →
        (s.toDisable = pinNone → exec (.stop pin) s = .next { s with toDisable := pin, phaseF := .t .t3 })
          ∧ (s.toDisable ≠ pinNone → exec (.stop pin) s = .next s))
      ∧ (s.phaseI = .t .t2 → s.cmdI.pin = pin →
        (s.toDisable = pinNone → exec (.istop pin) s = .next { s with toDisable := pin, phaseI := .t .t3 })
          ∧ (s.toDisable ≠ pinNone → exec (.istop pin) s = .next s))
      ∧ (s.phaseF = .t .t4 → s.cmdF.instr = .stop pin →
        s.fYield = false
          ∧ (s.toDisable = pinNone → exec (.stop pin) s = .next { s with phaseF := .t .t5 })
          ∧ (s.toDisable ≠ pinNone → exec (.stop pin) s = .next s))
      ∧ (s.phaseI = .t .t4 → s.cmdI.pin = pin →
        (s.toDisable = pinNone → exec (.istop pin) s = .next { s with phaseI := .t .t5 })
          ∧ (s.toDisable ≠ pinNone → exec (.istop pin) s = .next s))

/-- R104: step `T3` re-arms a timer that is further than `KICK_CCYS` away, else leaves it alone. -/
def Obligations.StopKicksTheTimer : Prop :=
  ∀ (s : State) (pin : Byte),
    (s.phaseF = .t .t3 → s.cmdF.instr = .stop pin →
        (s.cfg.kickCcys < s.timerRemaining → exec (.stop pin) s = .next { s with
            tArmed := true, tFireAt := s.ccount + BitVec.ofNat 32 s.cfg.kickCcys, phaseF := .t .t4 })
          ∧ (s.timerRemaining ≤ s.cfg.kickCcys → exec (.stop pin) s = .next { s with phaseF := .t .t4 }))
      ∧ (s.phaseI = .t .t3 → s.cmdI.pin = pin →
        (s.cfg.kickCcys < s.timerRemaining → exec (.istop pin) s = .next { s with
            tArmed := true, tFireAt := s.ccount + BitVec.ofNat 32 s.cfg.kickCcys, phaseI := .t .t4 })
          ∧ (s.timerRemaining ≤ s.cfg.kickCcys → exec (.istop pin) s = .next { s with phaseI := .t .t4 }))

/-- R106: step `T5` tears the timer subsystem down when no pin is enabled and no callback registered, and ends with
result 1. -/
def Obligations.StopTearsDownAnIdleTimer : Prop :=
  ∀ (s : State) (pin : Byte),
    (s.phaseF = .t .t5 → s.cmdF.instr = .stop pin →
        (s.enabled = 0#32 → s.cbRegistered = false → exec (.stop pin) s = .next { s with
            tEnabled := false, tArmed := false, svcPending := false, timerRunning := false
            fResult := true, phaseF := .idle })
          ∧ (s.enabled ≠ 0#32 ∨ s.cbRegistered = true →
            exec (.stop pin) s = .next { s with fResult := true, phaseF := .idle }))
      ∧ (s.phaseI = .t .t5 → s.cmdI.pin = pin →
        (s.enabled = 0#32 → s.cbRegistered = false → exec (.istop pin) s = .next { s with
            tEnabled := false, tArmed := false, svcPending := false, timerRunning := false
            iResult := true, phaseI := .idle })
          ∧ (s.enabled ≠ 0#32 ∨ s.cbRegistered = true →
            exec (.istop pin) s = .next { s with iResult := true, phaseI := .idle }))

/-- A stop of a pin that is not enabled, while the timer subsystem runs for something else, succeeds in four atomic steps
and changes nothing but its latch and its result (R108 (a)). -/
def Obligations.StopOfADisabledPinChangesNothing : Prop :=
  ∀ (s : State) (pin : Byte), s.timerRunning = true → s.isEnabled pin.toNat = false →
    s.enabled ≠ 0#32 ∨ s.cbRegistered = true →
    (s.phaseF = .idle → execSteps (.stop pin) 4 s = .next { s with
        cmdF := { s.cmdF with op := .stop, pin := pin, live := false }, fResult := true })
      ∧ (s.phaseI = .idle → execSteps (.istop pin) 4 s = .next { s with
        cmdI := { pin := pin, live := false }, iResult := true })

/-! ### SETCB and the timer -/

/-- R110: step `C0` writes `cbRegistered`; step `C1` wakes a dormant timer subsystem, or tears down one with no further
need, or neither, and ends with result 1. -/
def Obligations.SetcbRegistersAndManagesTheTimer : Prop :=
  ∀ (s : State) (en : Bool), s.cmdF.instr = .setcb en →
    (s.phaseF = .c0 → exec (.setcb en) s = .next { s with cbRegistered := en, phaseF := .c1 })
      ∧ (s.phaseF = .c1 →
        (s.timerRunning = false → en = true → exec (.setcb en) s = .next { s with
            tEnabled := true, timerRunning := true, tArmed := true
            tFireAt := s.ccount + BitVec.ofNat 32 s.cfg.kickCcys, fResult := true, phaseF := .idle })
          ∧ (s.timerRunning = true → en = false → s.enabled = 0#32 → exec (.setcb en) s = .next { s with
            tEnabled := false, tArmed := false, svcPending := false, timerRunning := false
            fResult := true, phaseF := .idle })
          ∧ ((s.timerRunning = false ∧ en = false) ∨ (s.timerRunning = true ∧ (en = true ∨ s.enabled ≠ 0#32)) →
            exec (.setcb en) s = .next { s with fResult := true, phaseF := .idle }))

/-- R183, R184, R185: `TimerWrite` arms and replaces a running count, `TimerRemaining` reads the cycles left and 0 once
fired, `TimerEnable` and `TimerDisable`. -/
def Obligations.TimerPrimitives : Prop :=
  ∀ s : State,
    (∀ n, s.timerWrite n = { s with tArmed := true, tFireAt := s.ccount + BitVec.ofNat 32 n })
      ∧ (∀ n, 1 ≤ n → n < 2 ^ 31 → (s.timerWrite n).timerRemaining = n)
      ∧ (s.tArmed = true → (s.timerRemaining : Int) = max 0 (s.tFireAt - s.ccount).toInt)
      ∧ (s.tArmed = false → s.timerRemaining = 0)
      ∧ s.timerEnable = { s with tEnabled := true }
      ∧ s.timerDisable = { s with tEnabled := false, tArmed := false, svcPending := false }

/-- R186: an armed timer fires when the counter reaches its instant, never early and once: before it only the counter
moves, and time that passes in two parts does what it does in one. -/
def Obligations.TimerFiresOncePerArming : Prop :=
  (∀ (s : State) (n : Nat), s.tArmed = true → n < (s.tFireAt - s.ccount).toNat →
      s.elapse n = { s with ccount := s.ccount + BitVec.ofNat 32 n })
    ∧ (∀ (s : State) (n : Nat), s.tArmed = true → (s.tFireAt - s.ccount).toNat ≤ n →
      s.elapse n = { s with ccount := s.ccount + BitVec.ofNat 32 n, tArmed := false, svcPending := true })
    ∧ (∀ (s : State) (n : Nat), s.tArmed = false → s.elapse n = { s with ccount := s.ccount + BitVec.ofNat 32 n })
    ∧ ∀ (s : State) (m n : Nat), (s.elapse m).elapse n = s.elapse (m + n)

/-! ### SERVICE: requests -/

/-- A `SERVICE` is its phases in their order, whatever the state (R120): the interrupt is taken and the counter read once,
which is `isrStart` (R121); the requests are applied (R122) and the pending set request resolved at `isrStart` (R124); the
counter is read again, at least one cycle later, and the time-out is `isrStart + ISR_BUDGET_CCYS` (R130); the scan loop
(R157, its count of passes is never used up, log 20) and the re-arm follow. So every `SERVICE` completes, consumes both
requests (R122, R128) and ends with the timer armed for a delay within the two clamps (R160, R161) and no interrupt pending
(R121). -/
def Obligations.ServiceCompletesAndRearms : Prop :=
  ∀ s : State, ∃ (n n' : Nat) (a b : State), n < 2 ^ 31 ∧ 1 ≤ n' ∧ n' ≤ 2 ^ 31
    ∧ a = { s with
        svcPending := false, tArmed := false, ccount := s.ccount + BitVec.ofNat 32 n
        delays := a.delays, draws := a.draws }
    ∧ b = { a.applyRequests.resolveSet a.ccount with
        ccount := a.ccount + BitVec.ofNat 32 n', delays := b.delays, draws := b.draws }
    ∧ let e := scanLoop s.cfg.isrBudgetCcys (a.ccount + BitVec.ofNat 32 s.cfg.isrBudgetCcys) b
      let t := e.st.rearm e.deadline
      exec .service s = .next t
        ∧ t.toSet = pinNone ∧ t.toDisable = pinNone ∧ t.tArmed = true ∧ t.svcPending = false
        ∧ s.cfg.minRearmCcys ≤ (t.tFireAt - t.ccount).toNat ∧ (t.tFireAt - t.ccount).toNat ≤ s.cfg.maxRearmCcys

/-- What a `SERVICE` never writes: the operands, the latches, the phases and results of the ports (R120, R174), the
configured fields of every descriptor, `timerRunning`, `cbRegistered` and the timer's enable (R34). -/
def Obligations.ServiceWritesOnlySchedulerState : Prop :=
  ∀ s t : State, exec .service s = .next t → SchedulerKeeps s t

/-- R122: both requests are applied in one assignment, the bounds recomputed and the disable slot cleared; with no request
to apply nothing is written; a set and a disable of the same pin leave it enabled (R173 (a)). -/
def Obligations.RequestsAreAppliedInOneAssignment : Prop :=
  ∀ s : State, MasksInMap s → s.toSet = pinNone ∨ s.toSet.toNat < s.cfg.npins →
    let m := (s.enabled &&& ~~~ pinBit s.toDisable) ||| pinBit s.toSet
    ((s.toSet ≠ pinNone ∧ s.isEnabled s.toSet.toNat = false) ∨ s.toDisable ≠ pinNone →
        s.applyRequests =
          { s with enabled := m, firstPin := (bounds m).1, lastPin := (bounds m).2, toDisable := pinNone })
      ∧ ((s.toSet = pinNone ∨ s.isEnabled s.toSet.toNat = true) → s.toDisable = pinNone → s.applyRequests = s)
      ∧ (s.toSet ≠ pinNone → s.applyRequests.isEnabled s.toSet.toNat = true)

/-- R123: `bounds` is the lowest and the highest set bit, and `(0, 0)` for the empty mask. -/
def Obligations.BoundsAreLowestAndHighest : Prop :=
  bounds 0#32 = (0#8, 0#8)
    ∧ ∀ m : Word, m ≠ 0#32 →
      maskBit m (bounds m).1.toNat = true ∧ maskBit m (bounds m).2.toNat = true
        ∧ ∀ p, maskBit m p = true → (bounds m).1.toNat ≤ p ∧ p ≤ (bounds m).2.toNat

/-- R124 to R128: the pending set request is resolved by its descriptor's mode and consumed. `INIT` clears the pin's
`states` bit, starts its first period "now" or at the enabled target's period start plus the offset, and is `INFINITE`
without a run time; with one, as for `UPDATEEXPIRY`, the run time is made absolute and the mode `EXPIRES`. -/
def Obligations.SetRequestIsResolved : Prop :=
  ∀ (s : State) (isrStart : Word),
    let p := s.toSet.toNat
    let d := s.desc p
    let a := d.alignPhase
    let t := s.resolveSet isrStart
    let start := if a ≠ pinNone ∧ s.isEnabled a.toNat = true then (s.desc a.toNat).nextPeriodCcy + d.nextPeriodCcy
      else isrStart
    (s.toSet = pinNone → t = s)
      ∧ (s.toSet ≠ pinNone → d.mode = .init → d.expiryCcy = 0#32 →
        t = { (s.setStateBit p false).setDesc p
          { d with nextPeriodCcy := start, nextEventCcy := start, mode := .infinite } with toSet := pinNone })
      ∧ (s.toSet ≠ pinNone → d.mode = .init → d.expiryCcy ≠ 0#32 →
        t = { (s.setStateBit p false).setDesc p
          { d with nextPeriodCcy := start, nextEventCcy := start
                   expiryCcy := start + d.expiryCcy, mode := .expires } with toSet := pinNone })
      ∧ (s.toSet ≠ pinNone → d.mode = .updateExpiry →
        t = { s.setDesc p { d with expiryCcy := d.nextPeriodCcy + d.expiryCcy, mode := .expires } with
          toSet := pinNone })
      ∧ (s.toSet ≠ pinNone → d.mode = .infinite ∨ d.mode = .expires → t = { s with toSet := pinNone })

/-! ### SERVICE: one pin -/

/-- R139: a due event that is the pin's expiry clears its `enabled` bit and does nothing else, whatever edge falls on the
same cycle. -/
def Obligations.ExpiryTerminatesWithoutAnEdge : Prop :=
  ∀ (s : State) (p : Nat) (now : Word), (s.desc p).mode = .expires → (s.desc p).nextEventCcy = (s.desc p).expiryCcy →
    MasksInMap s →
    (∀ q, (s.servicePin p now).isEnabled q = (s.isEnabled q && decide (q ≠ p)))
      ∧ s.servicePin p now = { s with enabled := (s.servicePin p now).enabled }

/-- R141 with R151: a due event whose edge has not been reached only reschedules the pin to the sooner of that edge and,
for an expiring pin, its expiry. -/
def Obligations.StaleEventOnlyReschedules : Prop :=
  ∀ (s : State) (p : Nat) (now : Word),
    let d := s.desc p
    let edge := if maskBit s.states p = true then d.endDutyCcy else d.nextPeriodCcy
    ¬(d.mode = .expires ∧ d.nextEventCcy = d.expiryCcy) → (now - edge).toInt < 0 →
    s.servicePin p now = s.setDesc p { d with
      nextEventCcy := if d.mode = .expires ∧ 0 < (edge - d.expiryCcy).toInt then d.expiryCcy else edge }

/-- R142: the whole periods missed at overshoot `o`, for every period but 0 (R142 divides by it; U3). With no idle period
every whole period elapsed; else none before one idle period has passed, and from then on `(o + duty) div period`. For a
duty within the period that is none exactly while less than an idle period has passed, and never so many that the schedule
would pass `now + duty`. -/
def Obligations.ForwardSkipCountsWholePeriods : Prop :=
  ∀ duty period o : Word, period ≠ 0#32 →
    (duty = period → fwdPeriods duty period o = o.toNat / period.toNat)
      ∧ (duty ≠ period → fwdPeriods duty period o =
        if (period - duty).toNat ≤ o.toNat then (o + duty).toNat / period.toNat else 0)
      ∧ (duty ≤ period → period < 0x80000000#32 → o < 0x80000000#32 →
        (duty ≠ period → (fwdPeriods duty period o = 0 ↔ o.toNat < period.toNat - duty.toNat))
          ∧ fwdPeriods duty period o * period.toNat ≤ o.toNat + duty.toNat)

/-- R143 to R151: the visit of a due pin whose edge has been reached, by cases. `f` is the fold of the missed periods,
`N`, `E` and `X` the folded schedule; each case gives the whole next state. -/
def Obligations.EdgeActionsByCase : Prop :=
  ∀ (s : State) (p : Nat) (now : Word), p < s.cfg.npins →
    let d := s.desc p
    let D := d.dutyCcys
    let P := d.periodCcys
    let high := maskBit s.states p
    let o := now - (if high = true then d.endDutyCcy else d.nextPeriodCcy)
    let f := BitVec.ofNat 32 (fwdPeriods D P o) * P
    let N := d.nextPeriodCcy + f
    let E := d.endDutyCcy + f
    let X := if d.mode = .expires then d.expiryCcy + f else d.expiryCcy
    let sooner := fun e2 : Word => if d.mode = .expires ∧ 0 < (e2 - X).toInt then X else e2
    let M := if d.autoPwm = true ∧ D ≠ 0#32 then N + nudge s.cfg (now - E) D (P - D) else N
    ¬(d.mode = .expires ∧ d.nextEventCcy = d.expiryCcy) → 0 ≤ o.toInt →
    (high = false → D ≠ 0#32 →
        s.servicePin p now = ((s.setDesc p { d with
          nextPeriodCcy := N + P, endDutyCcy := N + D, expiryCcy := X
          nextEventCcy := sooner (N + D) }).setStateBit p true).gpioWrite p true)
      ∧ (high = false → D = 0#32 →
        s.servicePin p now = s.setDesc p { d with
          nextPeriodCcy := N + P, endDutyCcy := N + P, expiryCcy := X, nextEventCcy := sooner (N + P) })
      ∧ (high = true → (now - E).toInt < 0 →
        s.servicePin p now = s.setDesc p { d with
          nextPeriodCcy := N, endDutyCcy := E, expiryCcy := X, nextEventCcy := sooner E })
      ∧ (high = true → 0 ≤ (now - E).toInt → E = N →
        s.servicePin p now = s.setDesc p { d with
          nextPeriodCcy := N + P, endDutyCcy := N + D, expiryCcy := X, nextEventCcy := sooner (N + D) })
      ∧ (high = true → 0 ≤ (now - E).toInt → E ≠ N →
        s.servicePin p now = ((s.setDesc p { d with
          nextPeriodCcy := M, endDutyCcy := E, expiryCcy := X
          nextEventCcy := sooner M }).setStateBit p false).gpioWrite p false)

/-- R150 and the constraint on `Nudge`: the default formula, and no nudge for an edge serviced exactly on time. -/
def Obligations.NudgeIsProportional : Prop :=
  ∀ (c : Cfg) (o duty idle : Word), duty ≠ 0#32 →
    (c.nudgeRule = .standard →
        (nudge c o duty idle).toNat = (o.toNat + o.toNat * idle.toNat / duty.toNat) % 2 ^ 32)
      ∧ nudge c 0#32 duty idle = 0#32

/-- At most one `GpioWrite` per visit, of the visited pin, exactly when its `states` bit changes, to the level written
(44_service_edges.md section 7); the `states` bits of the other pins are kept (R24). -/
def Obligations.OneGpioWritePerVisit : Prop :=
  ∀ (s : State) (p : Nat) (now : Word), p < s.cfg.npins →
    let t := s.servicePin p now
    ((t.trace = s.trace ∧ t.gpio = s.gpio ∧ maskBit t.states p = maskBit s.states p)
      ∨ ∃ v how, t.trace = .gpioWrite p v how s.ccount :: s.trace ∧ t.gpio = setMaskBit s.gpio p v
        ∧ maskBit t.states p = v ∧ maskBit s.states p = !v)
      ∧ (MasksInMap s → ∀ q, q ≠ p → maskBit t.states q = maskBit s.states q)

/-- The phase is kept: a visit moves a period start by whole periods, by none, by the `f` missed ones or by those and the
one that begins, unless it makes a falling edge of an `autoPwm` pin (R143 to R149); under the premises of 44_service_edges.md
section 7 these are periods within the overshoot, one duty and one period. -/
def Obligations.VisitKeepsThePhase : Prop :=
  ∀ (s : State) (p : Nat) (now : Word), p < s.cfg.npins →
    let d := s.desc p
    let o := now - (if maskBit s.states p = true then d.endDutyCcy else d.nextPeriodCcy)
    let f := fwdPeriods d.dutyCcys d.periodCcys o
    d.autoPwm = false ∨ maskBit s.states p = false →
    ∃ k : Nat, (k = 0 ∨ k = f ∨ k = f + 1)
      ∧ ((s.servicePin p now).desc p).nextPeriodCcy = d.nextPeriodCcy + BitVec.ofNat 32 k * d.periodCcys
      ∧ (d.dutyCcys ≤ d.periodCcys → 0#32 < d.periodCcys → d.periodCcys < 0x80000000#32 → o < 0x80000000#32 →
        k * d.periodCcys.toNat ≤ o.toNat + d.dutyCcys.toNat + d.periodCcys.toNat)

/-- After a low pin's visit its next period start lies ahead of `now`, by at most one period and one duty
(44_service_edges.md section 7). -/
def Obligations.RisingEdgeSchedulesAhead : Prop :=
  ∀ (s : State) (p : Nat) (now : Word), p < s.cfg.npins →
    let d := s.desc p
    ¬(d.mode = .expires ∧ d.nextEventCcy = d.expiryCcy) → maskBit s.states p = false →
    d.dutyCcys ≤ d.periodCcys → 0#32 < d.periodCcys → d.periodCcys < 0x80000000#32 →
    0 ≤ (now - d.nextPeriodCcy).toInt →
    let ahead := (((s.servicePin p now).desc p).nextPeriodCcy - now).toNat
    0 < ahead ∧ ahead ≤ d.periodCcys.toNat + d.dutyCcys.toNat

/-! ### SERVICE: the passes and the re-arm -/

/-- R136: the scan order starts at the cursor when it names an enabled pin within the bounds, else at `firstPin`, goes on
cyclically through the bounds, and so visits every index of the bounds once and no other. -/
def Obligations.ScanOrderVisitsTheBoundsOnce : Prop :=
  ∀ s : State, s.firstPin ≤ s.lastPin →
    let first := s.firstPin.toNat
    let n := s.lastPin.toNat + 1 - first
    let p0 := if s.firstPin ≤ s.cursor ∧ s.cursor ≤ s.lastPin ∧ s.isEnabled s.cursor.toNat = true then s.cursor.toNat
      else first
    s.scanOrder = (List.range n).map (fun k => first + (p0 - first + k) % n)
      ∧ s.scanOrder.Nodup
      ∧ ∀ p, p ∈ s.scanOrder ↔ first ≤ p ∧ p ≤ s.lastPin.toNat

/-- One pin of a scan pass, and the end of the pass. A pin that is not enabled is passed over (R135); once the budget is
reached no pin is visited (R137); a visit services a due pin (R138) and then the counter is read once, at least one cycle
later (R153); a later pin replaces only a later deadline (R152). With no pin left enabled the deadline is the idle one
(R155), else the pass names the cursor and its deadline (R156). The pass is that for every pin of the scan order in turn,
from no deadline and a budget not yet reached (R135). Phase `S4` is passes until the test of R157 fails; while it holds the
counter is read until the deadline is reached, and then another pass runs. Both recursions count down from a bound that is
never used up (R162, log 20). -/
def Obligations.ScanPassByCase : Prop :=
  (∀ (timeout : Word) (a : Scan) (p : Nat),
      let s := a.st
      let b := scanPin timeout a p
      let out := a.exhausted = true ∨ 0 ≤ (s.ccount - timeout).toInt
      (s.isEnabled p = false → b = a)
        ∧ (s.isEnabled p = true → out → b.st = s ∧ b.exhausted = true)
        ∧ (s.isEnabled p = true → ¬out → b.exhausted = false ∧ ∃ n : Nat, 1 ≤ n ∧ n ≤ 2 ^ 31
          ∧ (0 ≤ (s.ccount - (s.desc p).nextEventCcy).toInt →
            b.st = { s.servicePin p s.ccount with
              ccount := s.ccount + BitVec.ofNat 32 n, delays := b.st.delays, draws := b.st.draws })
          ∧ ((s.ccount - (s.desc p).nextEventCcy).toInt < 0 →
            b.st = { s with
              ccount := s.ccount + BitVec.ofNat 32 n, delays := b.st.delays, draws := b.st.draws }))
        ∧ (s.isEnabled p = true → b.best =
          if b.st.isEnabled p = false then a.best
          else match a.best with
            | none => some (p, (b.st.desc p).nextEventCcy)
            | some m => if 0 < (m.2 - (b.st.desc p).nextEventCcy).toInt then some (p, (b.st.desc p).nextEventCcy)
              else some m))
    ∧ (∀ (s : State) (timeout : Word),
      let a := s.scanPass timeout
      a = s.scanOrder.foldl (scanPin timeout) { st := s, exhausted := false, best := none }
        ∧ (a.best = none → s.endOfPass timeout =
          { st := a.st, deadline := a.st.ccount + BitVec.ofNat 32 s.cfg.idleDelayCcys, again := false })
        ∧ ∀ p e, a.best = some (p, e) → s.endOfPass timeout =
          { st := { a.st with cursor := BitVec.ofNat 8 p }, deadline := e
            again := decide (0 < (timeout - a.st.ccount).toInt ∧ 0 < (timeout - e).toInt) })
    ∧ (∀ (n : Nat) (timeout : Word) (s : State),
      let p := s.endOfPass timeout
      (p.again = false → scanLoop n timeout s = p)
        ∧ (p.again = true →
          scanLoop (n + 1) timeout s = scanLoop n timeout (spin p.st.cfg.isrBudgetCcys p.deadline p.st)))
    ∧ ∀ (n : Nat) (deadline : Word) (s : State),
      ((deadline - s.ccount).toInt ≤ 0 → spin n deadline s = s)
        ∧ (0 < (deadline - s.ccount).toInt → ∃ k : Nat, 1 ≤ k ∧ k ≤ 2 ^ 31 ∧ ∃ u : State,
          u = { s with ccount := s.ccount + BitVec.ofNat 32 k, delays := u.delays, draws := u.draws }
            ∧ spin (n + 1) deadline s = spin n deadline u)

/-- After a `SERVICE` that leaves a pin enabled the cursor names an enabled pin (R156). -/
def Obligations.CursorNamesAnEnabledPin : Prop :=
  ∀ s t : State, MasksInMap s → BoundsHold s → exec .service s = .next t → t.enabled ≠ 0#32 →
    t.isEnabled t.cursor.toNat = true

/-- R162: the scan passes end by the test of R157 and the spin by its deadline, never by the bounds the model counts
with (log 20); so every `SERVICE` reaches its re-arm. -/
def Obligations.ScanLoopEndsByItsOwnTest : Prop :=
  (∀ s : State,
      (scanLoop s.cfg.isrBudgetCcys (s.beginService.1 + BitVec.ofNat 32 s.cfg.isrBudgetCcys)
        s.beginService.2).again = false)
    ∧ ∀ (s : State) (timeout deadline : Word), (timeout - s.ccount).toNat ≤ s.cfg.isrBudgetCcys →
      after timeout s.ccount = true → after timeout deadline = true →
      after deadline (spin s.cfg.isrBudgetCcys deadline s).ccount = false

/-- R158 to R161: the last phase of a `SERVICE`, and the compensation and the clamp of its delay. With a callback
registered it is asked once (`us` is its reply, the next one given or any other, R187) and its saturated delay taken when it
is the sooner; without one the distance to the deadline is taken. `now` is the read that follows, at least one cycle later
(R181), and `m` cycles after it the timer is armed with the clamped delay (R161, R183). Nothing else changes. -/
def Obligations.RearmTakesTheSoonerOfEdgeAndCallback : Prop :=
  (∀ (s : State) (deadline : Word),
    let t := s.rearm deadline
    (s.cbRegistered = false → ∃ n m : Nat, 1 ≤ n ∧ n ≤ 2 ^ 31 ∧ m < 2 ^ 31
        ∧ let now := s.ccount + BitVec.ofNat 32 n
          let d := clampDelay s.cfg (deadline - now).toInt
          t = { s with
            ccount := now + BitVec.ofNat 32 m, tArmed := true
            tFireAt := now + BitVec.ofNat 32 m + BitVec.ofNat 32 d.toNat, delays := t.delays, draws := t.draws })
      ∧ (s.cbRegistered = true → ∃ (us : Word) (n m : Nat), 1 ≤ n ∧ n ≤ 2 ^ 31 ∧ m < 2 ^ 31
        ∧ (∀ r rest, s.replies = r :: rest → us = r ∧ t.replies = rest) ∧ (s.replies = [] → t.replies = [])
        ∧ let now := s.ccount + BitVec.ofNat 32 n
          let cb := min (us.toNat * s.cfg.ccyPerUs) (2 ^ 31 - 1)
          let d := clampDelay s.cfg (min (cb : Int) (deadline - now).toInt)
          t = { s with
            trace := .callback us :: s.trace, ccount := now + BitVec.ofNat 32 m, tArmed := true
            tFireAt := now + BitVec.ofNat 32 m + BitVec.ofNat 32 d.toNat
            replies := t.replies, delays := t.delays, draws := t.draws }))
    ∧ ∀ (c : Cfg) (d : Int),
      (d - c.irqLatencyCcys < c.minRearmCcys → clampDelay c d = c.minRearmCcys)
        ∧ ((c.maxRearmCcys : Int) < d - c.irqLatencyCcys → clampDelay c d = c.maxRearmCcys)
        ∧ ((c.minRearmCcys : Int) ≤ d - c.irqLatencyCcys → d - c.irqLatencyCcys ≤ c.maxRearmCcys →
          clampDelay c d = d - c.irqLatencyCcys)

/-! ### Invariants and whole-machine rules -/

/-- The state after reset meets every invariant below. -/
def Obligations.ResetMeetsTheInvariants : Prop :=
  MasksInMap State.reset ∧ BoundsHold State.reset ∧ TimerCoherent State.reset ∧ EnabledImpliesRunning State.reset
    ∧ CommandsCoherent State.reset ∧ PeriodsPositive State.reset

/-- The values the table of R35 gives, after the reset input in any state (R195), and the pins and the counter as they
were (R196). -/
def Obligations.ResetInputResets : Prop :=
  ∀ s : State, ∃ t, perform .reset s = .next t
    ∧ t.enabled = 0#32 ∧ t.states = 0#32 ∧ t.toSet = 0xFF#8 ∧ t.toDisable = 0xFF#8
    ∧ t.firstPin = 0#8 ∧ t.lastPin = 0#8 ∧ t.cursor = 0#8 ∧ t.timerRunning = false ∧ t.cbRegistered = false
    ∧ t.phaseF = .idle ∧ t.phaseI = .idle ∧ t.fResult = false ∧ t.iResult = false
    ∧ t.tEnabled = false ∧ t.tArmed = false ∧ t.svcPending = false
    ∧ t.gpio = s.gpio ∧ t.ccount = s.ccount ∧ t.cfg = s.cfg

/-- Every step keeps the timer coherent: attached exactly while the subsystem runs, and then exactly one of "armed" and
"pending" (R111, R112, R161, R170, R186); and no pin is enabled while the subsystem is dormant (R113). -/
def Obligations.StepKeepsTheTimerCoherent : Prop :=
  ∀ s t : State, TimerCoherent s → EnabledImpliesRunning s → step s = .next t →
    TimerCoherent t ∧ EnabledImpliesRunning t

/-- Every step keeps the hardwired bits of the masks 0 (R23, R24) and every enabled pin within the bounds (R36). -/
def Obligations.StepKeepsMasksAndBounds : Prop :=
  ∀ s t : State, MasksInMap s → BoundsHold s → step s = .next t → MasksInMap t ∧ BoundsHold t

/-- Every step keeps the commands in progress and the request slots coherent (R12, R25, R88) and the period of every
enabled pin in `1 .. 2^31 - 1` (R22). -/
def Obligations.StepKeepsCommandsAndPeriods : Prop :=
  ∀ s t : State, CommandsCoherent s → PeriodsPositive s → step s = .next t →
    CommandsCoherent t ∧ PeriodsPositive t

/-- R34: nothing but a `SERVICE` or a reset writes the masks, the bounds, the cursor, `nextEventCcy` or `endDutyCcy`; and
no command and no event writes `ARG[0..3]` (R10); and no step changes a parameter (R9). -/
def Obligations.OnlyTheSchedulerWritesItsState : Prop :=
  (∀ (e : Input) (s t : State), e ≠ .timerIrq → e ≠ .reset → perform e s = .next t →
      t.enabled = s.enabled ∧ t.states = s.states ∧ t.firstPin = s.firstPin ∧ t.lastPin = s.lastPin
        ∧ t.cursor = s.cursor
        ∧ ∀ p, (t.desc p).nextEventCcy = (s.desc p).nextEventCcy ∧ (t.desc p).endDutyCcy = (s.desc p).endDutyCcy)
    ∧ (∀ (i : Instr) (s t : State), exec i s = .next t →
      t.arg0 = s.arg0 ∧ t.arg1 = s.arg1 ∧ t.arg2 = s.arg2 ∧ t.arg3 = s.arg3)
    ∧ ∀ s t : State, step s = .next t → t.cfg = s.cfg

/-- The stuck port of R201 (U6): a start that waits at `F12` for a request that no `SERVICE` will consume, the timer
subsystem torn down, stays there through every step but a reset. -/
def Obligations.TornDownStartWaitsForever : Prop :=
  ∀ s t : State, s.phaseF = .f12 → s.toSet ≠ pinNone → s.timerRunning = false → s.tEnabled = false →
    s.nextInput.1 ≠ .reset → step s = .next t →
    t.phaseF = .f12 ∧ t.toSet = s.toSet ∧ t.timerRunning = false ∧ t.tEnabled = false

/-! ### Runs -/

/-- R188, its consequence for the Scheduler. Once a `SERVICE` is over, and while the timer subsystem runs, the next
interrupt is pending before `MAX_REARM_CCYS` cycles have passed: at an instant at which none is, fewer have. And in a fair
run (log 29) another `SERVICE` follows every instant, unless the timer subsystem is torn down or reset, and consumes what is
published in both slots. -/
def Obligations.FairRunServesEveryRequest : Prop :=
  ∀ (e : Nat → Input) (r : Nat → State), RunOf e r →
    (∀ n m, n < m → (r n).serviceStarts (e n) →
        (∀ i, n < i → i ≤ m → (r i).timerRunning = true ∧ (r i).svcPending = false) →
        (Finset.sum (Finset.Ico (n + 1) m) fun i => cyclesOf (e i)) < (r n).cfg.maxRearmCcys)
      ∧ (Fair e r → ∀ n, TimerCoherent (r n) →
        ∃ m, n ≤ m ∧ ((r m).timerRunning = false
          ∨ ((r m).serviceStarts (e m) ∧ (r (m + 1)).toSet = pinNone ∧ (r (m + 1)).toDisable = pinNone)))

/-- R188, its consequence for the ports: in a fair run (log 29) every waiting step of either port completes, unless the timer
subsystem is torn down under it (R201) or reset. A step that is not enabled changes nothing when its port is given a turn,
which is what waiting is (R12). -/
def Obligations.FairRunEndsEveryWait : Prop :=
  (∀ (e : Nat → Input) (r : Nat → State), RunOf e r → Fair e r → ∀ n, TimerCoherent (r n) → CommandsCoherent (r n) →
      (∀ k ∈ [PhaseF.f10, .f12, .l8, .l9, .t .t2, .t .t4], (r n).phaseF = k →
          ∃ m, n ≤ m ∧ ((r m).timerRunning = false ∨ (r m).phaseF ≠ k))
        ∧ ∀ k ∈ [StopStep.t2, .t4], (r n).phaseI = .t k →
          ∃ m, n ≤ m ∧ ((r m).timerRunning = false ∨ (r m).phaseI ≠ .t k))
    ∧ ∀ s : State, CommandsCoherent s → (s.readyF = false → perform .portF s = .next s)
      ∧ (s.readyI = false → perform .portI s = .next s)
end

