-- ==== Sys2Proof/Laws/PerInstr.lean ====
section
/-! SUPPORT. The family `EncodeSelectsRow`, one lemma per instruction: its encoding selects its own row of its port's
table (R66, R68), and the row reads every field back (R64). -/

namespace Sys2Proof.Laws.EncodeSelectsRow

open Sys2Proof

/-- The mask of the table row of an instruction (R66, R68); for `SERVICE` the one bit of the line (R69). -/
def rowMask : Instr → Word
  | .startUs .. => 0xFE0000FF#32
  | .startCcy .. => 0xFE0000FF#32
  | .stop _ => 0xFFFF00FF#32
  | .setcb _ => 0xFFFFFEFF#32
  | .istop _ => 0xFFFF00FF#32
  | .service => 0xFFFFFFFF#32

/-- The pattern of the table row of an instruction (R66, R68, R69). -/
def rowPattern : Instr → Word
  | .startUs .. => 1#32
  | .startCcy .. => 2#32
  | .stop _ => 3#32
  | .setcb _ => 4#32
  | .istop _ => 3#32
  | .service => 1#32

/-- The instruction a word is read as by the row of `i`. -/
def readBack (i : Instr) (w : Word) : Instr :=
  match i with
  | .startUs .. => .startUs (fieldAutoPwm w) (fieldAlign w) (fieldPin w)
  | .startCcy .. => .startCcy (fieldAutoPwm w) (fieldAlign w) (fieldPin w)
  | .stop _ => .stop (fieldPin w)
  | .setcb _ => .setcb (fieldEn w)
  | .istop _ => .istop (fieldPin w)
  | .service => .service

/-- The encoding of `i` selects the row of `i`, which reads `i` back from it. -/
def Statement (i : Instr) : Prop :=
  encode i &&& rowMask i = rowPattern i ∧ readBack i (encode i) = i

/-- The bits of the format of the two starts (R61). -/
theorem getLsbD_startFormat (a : Bool) (l p : Byte) (c : BitVec 4) (k : Nat) :
    BitVec.getLsbD (w := 32) (0#7 ++ BitVec.ofBool a ++ l ++ p ++ 0#4 ++ c) k =
      if k < 4 then c.getLsbD k else if k < 8 then false else if k < 16 then p.getLsbD (k - 8)
      else if k < 24 then l.getLsbD (k - 16) else (decide (k = 24) && a) := by
  refine (BitVec.getLsbD_append (x := 0#7 ++ BitVec.ofBool a ++ l ++ p ++ 0#4) (y := c)).trans ?_
  rw [BitVec.getLsbD_append, BitVec.getLsbD_append, BitVec.getLsbD_append, BitVec.getLsbD_append]
  simp only [BitVec.getLsbD_ofBool, BitVec.getLsbD_zero, Nat.sub_sub]
  split_ifs <;> first | rfl | omega | skip
  · have : k = 24 := by omega
    subst this; simp
  · have : k ≠ 24 := by omega
    simp [this]

/-- The bits of the format of the two stops (R61). -/
theorem getLsbD_stopFormat (p : Byte) (c : BitVec 4) (k : Nat) :
    BitVec.getLsbD (w := 32) (0#16 ++ p ++ 0#4 ++ c) k =
      if k < 4 then c.getLsbD k else if k < 8 then false else if k < 16 then p.getLsbD (k - 8) else false := by
  refine (BitVec.getLsbD_append (x := 0#16 ++ p ++ 0#4) (y := c)).trans ?_
  rw [BitVec.getLsbD_append, BitVec.getLsbD_append]
  simp only [BitVec.getLsbD_zero, Nat.sub_sub]
  split_ifs <;> first | rfl | omega

theorem startUs (autoPwm : Bool) (align pin : Byte) : Statement (.startUs autoPwm align pin) := by
  refine ⟨?_, ?_⟩
  · apply BitVec.eq_of_getLsbD_eq
    intro k hk
    rw [encode, rowMask, rowPattern, BitVec.getLsbD_and, getLsbD_startFormat]
    interval_cases k <;> simp
  · simp only [readBack, Instr.startUs.injEq]
    refine ⟨?_, ?_, ?_⟩
    · rw [encode, fieldAutoPwm, getLsbD_startFormat]; simp
    · apply BitVec.eq_of_getLsbD_eq
      intro k hk
      rw [encode, fieldAlign, BitVec.getLsbD_extractLsb', getLsbD_startFormat]
      interval_cases k <;> simp
    · apply BitVec.eq_of_getLsbD_eq
      intro k hk
      rw [encode, fieldPin, BitVec.getLsbD_extractLsb', getLsbD_startFormat]
      interval_cases k <;> simp

theorem startCcy (autoPwm : Bool) (align pin : Byte) : Statement (.startCcy autoPwm align pin) := by
  refine ⟨?_, ?_⟩
  · apply BitVec.eq_of_getLsbD_eq
    intro k hk
    rw [encode, rowMask, rowPattern, BitVec.getLsbD_and, getLsbD_startFormat]
    interval_cases k <;> simp
  · simp only [readBack, Instr.startCcy.injEq]
    refine ⟨?_, ?_, ?_⟩
    · rw [encode, fieldAutoPwm, getLsbD_startFormat]; simp
    · apply BitVec.eq_of_getLsbD_eq
      intro k hk
      rw [encode, fieldAlign, BitVec.getLsbD_extractLsb', getLsbD_startFormat]
      interval_cases k <;> simp
    · apply BitVec.eq_of_getLsbD_eq
      intro k hk
      rw [encode, fieldPin, BitVec.getLsbD_extractLsb', getLsbD_startFormat]
      interval_cases k <;> simp

theorem stop (pin : Byte) : Statement (.stop pin) := by
  refine ⟨?_, ?_⟩
  · apply BitVec.eq_of_getLsbD_eq
    intro k hk
    rw [encode, rowMask, rowPattern, BitVec.getLsbD_and, getLsbD_stopFormat]
    interval_cases k <;> simp
  · simp only [readBack, Instr.stop.injEq]
    apply BitVec.eq_of_getLsbD_eq
    intro k hk
    rw [encode, fieldPin, BitVec.getLsbD_extractLsb', getLsbD_stopFormat]
    interval_cases k <;> simp

theorem setcb (en : Bool) : Statement (.setcb en) := by
  cases en <;> exact ⟨rfl, rfl⟩

theorem istop (pin : Byte) : Statement (.istop pin) := by
  refine ⟨?_, ?_⟩
  · apply BitVec.eq_of_getLsbD_eq
    intro k hk
    rw [encode, rowMask, rowPattern, BitVec.getLsbD_and, getLsbD_stopFormat]
    interval_cases k <;> simp
  · simp only [readBack, Instr.istop.injEq]
    apply BitVec.eq_of_getLsbD_eq
    intro k hk
    rw [encode, fieldPin, BitVec.getLsbD_extractLsb', getLsbD_stopFormat]
    interval_cases k <;> simp

theorem service : Statement .service := ⟨rfl, rfl⟩

end Sys2Proof.Laws.EncodeSelectsRow
end

