-- ==== Sys2Proof/Laws/State.lean ====
section
/-! SUPPORT. One lemma per field per update of the state: what each named operation leaves alone and what it sets, so
that no proof unfolds a record update. -/

namespace Sys2Proof.Machine

/-! #### `WT[p] <- d` -/

@[simp] theorem setDesc_cfg (s : State) (p : Nat) (d : Desc) : (s.setDesc p d).cfg = s.cfg := rfl
@[simp] theorem setDesc_arg0 (s : State) (p : Nat) (d : Desc) : (s.setDesc p d).arg0 = s.arg0 := rfl
@[simp] theorem setDesc_arg1 (s : State) (p : Nat) (d : Desc) : (s.setDesc p d).arg1 = s.arg1 := rfl
@[simp] theorem setDesc_arg2 (s : State) (p : Nat) (d : Desc) : (s.setDesc p d).arg2 = s.arg2 := rfl
@[simp] theorem setDesc_arg3 (s : State) (p : Nat) (d : Desc) : (s.setDesc p d).arg3 = s.arg3 := rfl
@[simp] theorem setDesc_cmdWordF (s : State) (p : Nat) (d : Desc) : (s.setDesc p d).cmdWordF = s.cmdWordF := rfl
@[simp] theorem setDesc_cmdWordI (s : State) (p : Nat) (d : Desc) : (s.setDesc p d).cmdWordI = s.cmdWordI := rfl
@[simp] theorem setDesc_cmdF (s : State) (p : Nat) (d : Desc) : (s.setDesc p d).cmdF = s.cmdF := rfl
@[simp] theorem setDesc_cmdI (s : State) (p : Nat) (d : Desc) : (s.setDesc p d).cmdI = s.cmdI := rfl
@[simp] theorem setDesc_phaseF (s : State) (p : Nat) (d : Desc) : (s.setDesc p d).phaseF = s.phaseF := rfl
@[simp] theorem setDesc_phaseI (s : State) (p : Nat) (d : Desc) : (s.setDesc p d).phaseI = s.phaseI := rfl
@[simp] theorem setDesc_fResult (s : State) (p : Nat) (d : Desc) : (s.setDesc p d).fResult = s.fResult := rfl
@[simp] theorem setDesc_iResult (s : State) (p : Nat) (d : Desc) : (s.setDesc p d).iResult = s.iResult := rfl
@[simp] theorem setDesc_enabled (s : State) (p : Nat) (d : Desc) : (s.setDesc p d).enabled = s.enabled := rfl
@[simp] theorem setDesc_states (s : State) (p : Nat) (d : Desc) : (s.setDesc p d).states = s.states := rfl
@[simp] theorem setDesc_toSet (s : State) (p : Nat) (d : Desc) : (s.setDesc p d).toSet = s.toSet := rfl
@[simp] theorem setDesc_toDisable (s : State) (p : Nat) (d : Desc) : (s.setDesc p d).toDisable = s.toDisable := rfl
@[simp] theorem setDesc_firstPin (s : State) (p : Nat) (d : Desc) : (s.setDesc p d).firstPin = s.firstPin := rfl
@[simp] theorem setDesc_lastPin (s : State) (p : Nat) (d : Desc) : (s.setDesc p d).lastPin = s.lastPin := rfl
@[simp] theorem setDesc_cursor (s : State) (p : Nat) (d : Desc) : (s.setDesc p d).cursor = s.cursor := rfl
@[simp] theorem setDesc_timerRunning (s : State) (p : Nat) (d : Desc) : (s.setDesc p d).timerRunning = s.timerRunning := rfl
@[simp] theorem setDesc_cbRegistered (s : State) (p : Nat) (d : Desc) : (s.setDesc p d).cbRegistered = s.cbRegistered := rfl
@[simp] theorem setDesc_tEnabled (s : State) (p : Nat) (d : Desc) : (s.setDesc p d).tEnabled = s.tEnabled := rfl
@[simp] theorem setDesc_tArmed (s : State) (p : Nat) (d : Desc) : (s.setDesc p d).tArmed = s.tArmed := rfl
@[simp] theorem setDesc_svcPending (s : State) (p : Nat) (d : Desc) : (s.setDesc p d).svcPending = s.svcPending := rfl
@[simp] theorem setDesc_tFireAt (s : State) (p : Nat) (d : Desc) : (s.setDesc p d).tFireAt = s.tFireAt := rfl
@[simp] theorem setDesc_ccount (s : State) (p : Nat) (d : Desc) : (s.setDesc p d).ccount = s.ccount := rfl
@[simp] theorem setDesc_gpio (s : State) (p : Nat) (d : Desc) : (s.setDesc p d).gpio = s.gpio := rfl
@[simp] theorem setDesc_inputs (s : State) (p : Nat) (d : Desc) : (s.setDesc p d).inputs = s.inputs := rfl
@[simp] theorem setDesc_delays (s : State) (p : Nat) (d : Desc) : (s.setDesc p d).delays = s.delays := rfl
@[simp] theorem setDesc_replies (s : State) (p : Nat) (d : Desc) : (s.setDesc p d).replies = s.replies := rfl
@[simp] theorem setDesc_draws (s : State) (p : Nat) (d : Desc) : (s.setDesc p d).draws = s.draws := rfl
@[simp] theorem setDesc_busData (s : State) (p : Nat) (d : Desc) : (s.setDesc p d).busData = s.busData := rfl
@[simp] theorem setDesc_trace (s : State) (p : Nat) (d : Desc) : (s.setDesc p d).trace = s.trace := rfl
@[simp] theorem setDesc_isEnabled (s : State) (p : Nat) (d : Desc) (q : Nat) : (s.setDesc p d).isEnabled q = s.isEnabled q := by simp [State.isEnabled]

/-! #### A write of fields of `WT[p]` -/

@[simp] theorem modDesc_cfg (s : State) (p : Nat) (f : Desc → Desc) : (s.modDesc p f).cfg = s.cfg := rfl
@[simp] theorem modDesc_arg0 (s : State) (p : Nat) (f : Desc → Desc) : (s.modDesc p f).arg0 = s.arg0 := rfl
@[simp] theorem modDesc_arg1 (s : State) (p : Nat) (f : Desc → Desc) : (s.modDesc p f).arg1 = s.arg1 := rfl
@[simp] theorem modDesc_arg2 (s : State) (p : Nat) (f : Desc → Desc) : (s.modDesc p f).arg2 = s.arg2 := rfl
@[simp] theorem modDesc_arg3 (s : State) (p : Nat) (f : Desc → Desc) : (s.modDesc p f).arg3 = s.arg3 := rfl
@[simp] theorem modDesc_cmdWordF (s : State) (p : Nat) (f : Desc → Desc) : (s.modDesc p f).cmdWordF = s.cmdWordF := rfl
@[simp] theorem modDesc_cmdWordI (s : State) (p : Nat) (f : Desc → Desc) : (s.modDesc p f).cmdWordI = s.cmdWordI := rfl
@[simp] theorem modDesc_cmdF (s : State) (p : Nat) (f : Desc → Desc) : (s.modDesc p f).cmdF = s.cmdF := rfl
@[simp] theorem modDesc_cmdI (s : State) (p : Nat) (f : Desc → Desc) : (s.modDesc p f).cmdI = s.cmdI := rfl
@[simp] theorem modDesc_phaseF (s : State) (p : Nat) (f : Desc → Desc) : (s.modDesc p f).phaseF = s.phaseF := rfl
@[simp] theorem modDesc_phaseI (s : State) (p : Nat) (f : Desc → Desc) : (s.modDesc p f).phaseI = s.phaseI := rfl
@[simp] theorem modDesc_fResult (s : State) (p : Nat) (f : Desc → Desc) : (s.modDesc p f).fResult = s.fResult := rfl
@[simp] theorem modDesc_iResult (s : State) (p : Nat) (f : Desc → Desc) : (s.modDesc p f).iResult = s.iResult := rfl
@[simp] theorem modDesc_enabled (s : State) (p : Nat) (f : Desc → Desc) : (s.modDesc p f).enabled = s.enabled := rfl
@[simp] theorem modDesc_states (s : State) (p : Nat) (f : Desc → Desc) : (s.modDesc p f).states = s.states := rfl
@[simp] theorem modDesc_toSet (s : State) (p : Nat) (f : Desc → Desc) : (s.modDesc p f).toSet = s.toSet := rfl
@[simp] theorem modDesc_toDisable (s : State) (p : Nat) (f : Desc → Desc) : (s.modDesc p f).toDisable = s.toDisable := rfl
@[simp] theorem modDesc_firstPin (s : State) (p : Nat) (f : Desc → Desc) : (s.modDesc p f).firstPin = s.firstPin := rfl
@[simp] theorem modDesc_lastPin (s : State) (p : Nat) (f : Desc → Desc) : (s.modDesc p f).lastPin = s.lastPin := rfl
@[simp] theorem modDesc_cursor (s : State) (p : Nat) (f : Desc → Desc) : (s.modDesc p f).cursor = s.cursor := rfl
@[simp] theorem modDesc_timerRunning (s : State) (p : Nat) (f : Desc → Desc) : (s.modDesc p f).timerRunning = s.timerRunning := rfl
@[simp] theorem modDesc_cbRegistered (s : State) (p : Nat) (f : Desc → Desc) : (s.modDesc p f).cbRegistered = s.cbRegistered := rfl
@[simp] theorem modDesc_tEnabled (s : State) (p : Nat) (f : Desc → Desc) : (s.modDesc p f).tEnabled = s.tEnabled := rfl
@[simp] theorem modDesc_tArmed (s : State) (p : Nat) (f : Desc → Desc) : (s.modDesc p f).tArmed = s.tArmed := rfl
@[simp] theorem modDesc_svcPending (s : State) (p : Nat) (f : Desc → Desc) : (s.modDesc p f).svcPending = s.svcPending := rfl
@[simp] theorem modDesc_tFireAt (s : State) (p : Nat) (f : Desc → Desc) : (s.modDesc p f).tFireAt = s.tFireAt := rfl
@[simp] theorem modDesc_ccount (s : State) (p : Nat) (f : Desc → Desc) : (s.modDesc p f).ccount = s.ccount := rfl
@[simp] theorem modDesc_gpio (s : State) (p : Nat) (f : Desc → Desc) : (s.modDesc p f).gpio = s.gpio := rfl
@[simp] theorem modDesc_inputs (s : State) (p : Nat) (f : Desc → Desc) : (s.modDesc p f).inputs = s.inputs := rfl
@[simp] theorem modDesc_delays (s : State) (p : Nat) (f : Desc → Desc) : (s.modDesc p f).delays = s.delays := rfl
@[simp] theorem modDesc_replies (s : State) (p : Nat) (f : Desc → Desc) : (s.modDesc p f).replies = s.replies := rfl
@[simp] theorem modDesc_draws (s : State) (p : Nat) (f : Desc → Desc) : (s.modDesc p f).draws = s.draws := rfl
@[simp] theorem modDesc_busData (s : State) (p : Nat) (f : Desc → Desc) : (s.modDesc p f).busData = s.busData := rfl
@[simp] theorem modDesc_trace (s : State) (p : Nat) (f : Desc → Desc) : (s.modDesc p f).trace = s.trace := rfl
@[simp] theorem modDesc_isEnabled (s : State) (p : Nat) (f : Desc → Desc) (q : Nat) : (s.modDesc p f).isEnabled q = s.isEnabled q := by simp [State.isEnabled]

/-! #### A write of `enabled` -/

@[simp] theorem setEnabled_cfg (s : State) (m : Word) : (s.setEnabled m).cfg = s.cfg := rfl
@[simp] theorem setEnabled_arg0 (s : State) (m : Word) : (s.setEnabled m).arg0 = s.arg0 := rfl
@[simp] theorem setEnabled_arg1 (s : State) (m : Word) : (s.setEnabled m).arg1 = s.arg1 := rfl
@[simp] theorem setEnabled_arg2 (s : State) (m : Word) : (s.setEnabled m).arg2 = s.arg2 := rfl
@[simp] theorem setEnabled_arg3 (s : State) (m : Word) : (s.setEnabled m).arg3 = s.arg3 := rfl
@[simp] theorem setEnabled_cmdWordF (s : State) (m : Word) : (s.setEnabled m).cmdWordF = s.cmdWordF := rfl
@[simp] theorem setEnabled_cmdWordI (s : State) (m : Word) : (s.setEnabled m).cmdWordI = s.cmdWordI := rfl
@[simp] theorem setEnabled_cmdF (s : State) (m : Word) : (s.setEnabled m).cmdF = s.cmdF := rfl
@[simp] theorem setEnabled_cmdI (s : State) (m : Word) : (s.setEnabled m).cmdI = s.cmdI := rfl
@[simp] theorem setEnabled_phaseF (s : State) (m : Word) : (s.setEnabled m).phaseF = s.phaseF := rfl
@[simp] theorem setEnabled_phaseI (s : State) (m : Word) : (s.setEnabled m).phaseI = s.phaseI := rfl
@[simp] theorem setEnabled_fResult (s : State) (m : Word) : (s.setEnabled m).fResult = s.fResult := rfl
@[simp] theorem setEnabled_iResult (s : State) (m : Word) : (s.setEnabled m).iResult = s.iResult := rfl
@[simp] theorem setEnabled_wt (s : State) (m : Word) : (s.setEnabled m).wt = s.wt := rfl
@[simp] theorem setEnabled_states (s : State) (m : Word) : (s.setEnabled m).states = s.states := rfl
@[simp] theorem setEnabled_toSet (s : State) (m : Word) : (s.setEnabled m).toSet = s.toSet := rfl
@[simp] theorem setEnabled_toDisable (s : State) (m : Word) : (s.setEnabled m).toDisable = s.toDisable := rfl
@[simp] theorem setEnabled_firstPin (s : State) (m : Word) : (s.setEnabled m).firstPin = s.firstPin := rfl
@[simp] theorem setEnabled_lastPin (s : State) (m : Word) : (s.setEnabled m).lastPin = s.lastPin := rfl
@[simp] theorem setEnabled_cursor (s : State) (m : Word) : (s.setEnabled m).cursor = s.cursor := rfl
@[simp] theorem setEnabled_timerRunning (s : State) (m : Word) : (s.setEnabled m).timerRunning = s.timerRunning := rfl
@[simp] theorem setEnabled_cbRegistered (s : State) (m : Word) : (s.setEnabled m).cbRegistered = s.cbRegistered := rfl
@[simp] theorem setEnabled_tEnabled (s : State) (m : Word) : (s.setEnabled m).tEnabled = s.tEnabled := rfl
@[simp] theorem setEnabled_tArmed (s : State) (m : Word) : (s.setEnabled m).tArmed = s.tArmed := rfl
@[simp] theorem setEnabled_svcPending (s : State) (m : Word) : (s.setEnabled m).svcPending = s.svcPending := rfl
@[simp] theorem setEnabled_tFireAt (s : State) (m : Word) : (s.setEnabled m).tFireAt = s.tFireAt := rfl
@[simp] theorem setEnabled_ccount (s : State) (m : Word) : (s.setEnabled m).ccount = s.ccount := rfl
@[simp] theorem setEnabled_gpio (s : State) (m : Word) : (s.setEnabled m).gpio = s.gpio := rfl
@[simp] theorem setEnabled_inputs (s : State) (m : Word) : (s.setEnabled m).inputs = s.inputs := rfl
@[simp] theorem setEnabled_delays (s : State) (m : Word) : (s.setEnabled m).delays = s.delays := rfl
@[simp] theorem setEnabled_replies (s : State) (m : Word) : (s.setEnabled m).replies = s.replies := rfl
@[simp] theorem setEnabled_draws (s : State) (m : Word) : (s.setEnabled m).draws = s.draws := rfl
@[simp] theorem setEnabled_busData (s : State) (m : Word) : (s.setEnabled m).busData = s.busData := rfl
@[simp] theorem setEnabled_trace (s : State) (m : Word) : (s.setEnabled m).trace = s.trace := rfl
@[simp] theorem setEnabled_desc (s : State) (m : Word) (q : Nat) : (s.setEnabled m).desc q = s.desc q := by simp [State.desc]
@[simp] theorem setEnabled_enabled (s : State) (m : Word) : (s.setEnabled m).enabled = m &&& pinMask s.cfg := rfl

/-! #### `states[p] <- v` -/

@[simp] theorem setStateBit_cfg (s : State) (p : Nat) (v : Bool) : (s.setStateBit p v).cfg = s.cfg := rfl
@[simp] theorem setStateBit_arg0 (s : State) (p : Nat) (v : Bool) : (s.setStateBit p v).arg0 = s.arg0 := rfl
@[simp] theorem setStateBit_arg1 (s : State) (p : Nat) (v : Bool) : (s.setStateBit p v).arg1 = s.arg1 := rfl
@[simp] theorem setStateBit_arg2 (s : State) (p : Nat) (v : Bool) : (s.setStateBit p v).arg2 = s.arg2 := rfl
@[simp] theorem setStateBit_arg3 (s : State) (p : Nat) (v : Bool) : (s.setStateBit p v).arg3 = s.arg3 := rfl
@[simp] theorem setStateBit_cmdWordF (s : State) (p : Nat) (v : Bool) : (s.setStateBit p v).cmdWordF = s.cmdWordF := rfl
@[simp] theorem setStateBit_cmdWordI (s : State) (p : Nat) (v : Bool) : (s.setStateBit p v).cmdWordI = s.cmdWordI := rfl
@[simp] theorem setStateBit_cmdF (s : State) (p : Nat) (v : Bool) : (s.setStateBit p v).cmdF = s.cmdF := rfl
@[simp] theorem setStateBit_cmdI (s : State) (p : Nat) (v : Bool) : (s.setStateBit p v).cmdI = s.cmdI := rfl
@[simp] theorem setStateBit_phaseF (s : State) (p : Nat) (v : Bool) : (s.setStateBit p v).phaseF = s.phaseF := rfl
@[simp] theorem setStateBit_phaseI (s : State) (p : Nat) (v : Bool) : (s.setStateBit p v).phaseI = s.phaseI := rfl
@[simp] theorem setStateBit_fResult (s : State) (p : Nat) (v : Bool) : (s.setStateBit p v).fResult = s.fResult := rfl
@[simp] theorem setStateBit_iResult (s : State) (p : Nat) (v : Bool) : (s.setStateBit p v).iResult = s.iResult := rfl
@[simp] theorem setStateBit_wt (s : State) (p : Nat) (v : Bool) : (s.setStateBit p v).wt = s.wt := rfl
@[simp] theorem setStateBit_enabled (s : State) (p : Nat) (v : Bool) : (s.setStateBit p v).enabled = s.enabled := rfl
@[simp] theorem setStateBit_toSet (s : State) (p : Nat) (v : Bool) : (s.setStateBit p v).toSet = s.toSet := rfl
@[simp] theorem setStateBit_toDisable (s : State) (p : Nat) (v : Bool) : (s.setStateBit p v).toDisable = s.toDisable := rfl
@[simp] theorem setStateBit_firstPin (s : State) (p : Nat) (v : Bool) : (s.setStateBit p v).firstPin = s.firstPin := rfl
@[simp] theorem setStateBit_lastPin (s : State) (p : Nat) (v : Bool) : (s.setStateBit p v).lastPin = s.lastPin := rfl
@[simp] theorem setStateBit_cursor (s : State) (p : Nat) (v : Bool) : (s.setStateBit p v).cursor = s.cursor := rfl
@[simp] theorem setStateBit_timerRunning (s : State) (p : Nat) (v : Bool) : (s.setStateBit p v).timerRunning = s.timerRunning := rfl
@[simp] theorem setStateBit_cbRegistered (s : State) (p : Nat) (v : Bool) : (s.setStateBit p v).cbRegistered = s.cbRegistered := rfl
@[simp] theorem setStateBit_tEnabled (s : State) (p : Nat) (v : Bool) : (s.setStateBit p v).tEnabled = s.tEnabled := rfl
@[simp] theorem setStateBit_tArmed (s : State) (p : Nat) (v : Bool) : (s.setStateBit p v).tArmed = s.tArmed := rfl
@[simp] theorem setStateBit_svcPending (s : State) (p : Nat) (v : Bool) : (s.setStateBit p v).svcPending = s.svcPending := rfl
@[simp] theorem setStateBit_tFireAt (s : State) (p : Nat) (v : Bool) : (s.setStateBit p v).tFireAt = s.tFireAt := rfl
@[simp] theorem setStateBit_ccount (s : State) (p : Nat) (v : Bool) : (s.setStateBit p v).ccount = s.ccount := rfl
@[simp] theorem setStateBit_gpio (s : State) (p : Nat) (v : Bool) : (s.setStateBit p v).gpio = s.gpio := rfl
@[simp] theorem setStateBit_inputs (s : State) (p : Nat) (v : Bool) : (s.setStateBit p v).inputs = s.inputs := rfl
@[simp] theorem setStateBit_delays (s : State) (p : Nat) (v : Bool) : (s.setStateBit p v).delays = s.delays := rfl
@[simp] theorem setStateBit_replies (s : State) (p : Nat) (v : Bool) : (s.setStateBit p v).replies = s.replies := rfl
@[simp] theorem setStateBit_draws (s : State) (p : Nat) (v : Bool) : (s.setStateBit p v).draws = s.draws := rfl
@[simp] theorem setStateBit_busData (s : State) (p : Nat) (v : Bool) : (s.setStateBit p v).busData = s.busData := rfl
@[simp] theorem setStateBit_trace (s : State) (p : Nat) (v : Bool) : (s.setStateBit p v).trace = s.trace := rfl
@[simp] theorem setStateBit_desc (s : State) (p : Nat) (v : Bool) (q : Nat) : (s.setStateBit p v).desc q = s.desc q := by simp [State.desc]
@[simp] theorem setStateBit_isEnabled (s : State) (p : Nat) (v : Bool) (q : Nat) : (s.setStateBit p v).isEnabled q = s.isEnabled q := by simp [State.isEnabled]
@[simp] theorem setStateBit_states (s : State) (p : Nat) (v : Bool) :
    (s.setStateBit p v).states = setMaskBit s.states p v &&& pinMask s.cfg := rfl

/-! #### `GpioWrite(p, v)` -/

@[simp] theorem gpioWrite_cfg (s : State) (p : Nat) (v : Bool) : (s.gpioWrite p v).cfg = s.cfg := rfl
@[simp] theorem gpioWrite_arg0 (s : State) (p : Nat) (v : Bool) : (s.gpioWrite p v).arg0 = s.arg0 := rfl
@[simp] theorem gpioWrite_arg1 (s : State) (p : Nat) (v : Bool) : (s.gpioWrite p v).arg1 = s.arg1 := rfl
@[simp] theorem gpioWrite_arg2 (s : State) (p : Nat) (v : Bool) : (s.gpioWrite p v).arg2 = s.arg2 := rfl
@[simp] theorem gpioWrite_arg3 (s : State) (p : Nat) (v : Bool) : (s.gpioWrite p v).arg3 = s.arg3 := rfl
@[simp] theorem gpioWrite_cmdWordF (s : State) (p : Nat) (v : Bool) : (s.gpioWrite p v).cmdWordF = s.cmdWordF := rfl
@[simp] theorem gpioWrite_cmdWordI (s : State) (p : Nat) (v : Bool) : (s.gpioWrite p v).cmdWordI = s.cmdWordI := rfl
@[simp] theorem gpioWrite_cmdF (s : State) (p : Nat) (v : Bool) : (s.gpioWrite p v).cmdF = s.cmdF := rfl
@[simp] theorem gpioWrite_cmdI (s : State) (p : Nat) (v : Bool) : (s.gpioWrite p v).cmdI = s.cmdI := rfl
@[simp] theorem gpioWrite_phaseF (s : State) (p : Nat) (v : Bool) : (s.gpioWrite p v).phaseF = s.phaseF := rfl
@[simp] theorem gpioWrite_phaseI (s : State) (p : Nat) (v : Bool) : (s.gpioWrite p v).phaseI = s.phaseI := rfl
@[simp] theorem gpioWrite_fResult (s : State) (p : Nat) (v : Bool) : (s.gpioWrite p v).fResult = s.fResult := rfl
@[simp] theorem gpioWrite_iResult (s : State) (p : Nat) (v : Bool) : (s.gpioWrite p v).iResult = s.iResult := rfl
@[simp] theorem gpioWrite_wt (s : State) (p : Nat) (v : Bool) : (s.gpioWrite p v).wt = s.wt := rfl
@[simp] theorem gpioWrite_enabled (s : State) (p : Nat) (v : Bool) : (s.gpioWrite p v).enabled = s.enabled := rfl
@[simp] theorem gpioWrite_states (s : State) (p : Nat) (v : Bool) : (s.gpioWrite p v).states = s.states := rfl
@[simp] theorem gpioWrite_toSet (s : State) (p : Nat) (v : Bool) : (s.gpioWrite p v).toSet = s.toSet := rfl
@[simp] theorem gpioWrite_toDisable (s : State) (p : Nat) (v : Bool) : (s.gpioWrite p v).toDisable = s.toDisable := rfl
@[simp] theorem gpioWrite_firstPin (s : State) (p : Nat) (v : Bool) : (s.gpioWrite p v).firstPin = s.firstPin := rfl
@[simp] theorem gpioWrite_lastPin (s : State) (p : Nat) (v : Bool) : (s.gpioWrite p v).lastPin = s.lastPin := rfl
@[simp] theorem gpioWrite_cursor (s : State) (p : Nat) (v : Bool) : (s.gpioWrite p v).cursor = s.cursor := rfl
@[simp] theorem gpioWrite_timerRunning (s : State) (p : Nat) (v : Bool) : (s.gpioWrite p v).timerRunning = s.timerRunning := rfl
@[simp] theorem gpioWrite_cbRegistered (s : State) (p : Nat) (v : Bool) : (s.gpioWrite p v).cbRegistered = s.cbRegistered := rfl
@[simp] theorem gpioWrite_tEnabled (s : State) (p : Nat) (v : Bool) : (s.gpioWrite p v).tEnabled = s.tEnabled := rfl
@[simp] theorem gpioWrite_tArmed (s : State) (p : Nat) (v : Bool) : (s.gpioWrite p v).tArmed = s.tArmed := rfl
@[simp] theorem gpioWrite_svcPending (s : State) (p : Nat) (v : Bool) : (s.gpioWrite p v).svcPending = s.svcPending := rfl
@[simp] theorem gpioWrite_tFireAt (s : State) (p : Nat) (v : Bool) : (s.gpioWrite p v).tFireAt = s.tFireAt := rfl
@[simp] theorem gpioWrite_ccount (s : State) (p : Nat) (v : Bool) : (s.gpioWrite p v).ccount = s.ccount := rfl
@[simp] theorem gpioWrite_inputs (s : State) (p : Nat) (v : Bool) : (s.gpioWrite p v).inputs = s.inputs := rfl
@[simp] theorem gpioWrite_delays (s : State) (p : Nat) (v : Bool) : (s.gpioWrite p v).delays = s.delays := rfl
@[simp] theorem gpioWrite_replies (s : State) (p : Nat) (v : Bool) : (s.gpioWrite p v).replies = s.replies := rfl
@[simp] theorem gpioWrite_draws (s : State) (p : Nat) (v : Bool) : (s.gpioWrite p v).draws = s.draws := rfl
@[simp] theorem gpioWrite_busData (s : State) (p : Nat) (v : Bool) : (s.gpioWrite p v).busData = s.busData := rfl
@[simp] theorem gpioWrite_desc (s : State) (p : Nat) (v : Bool) (q : Nat) : (s.gpioWrite p v).desc q = s.desc q := by simp [State.desc]
@[simp] theorem gpioWrite_isEnabled (s : State) (p : Nat) (v : Bool) (q : Nat) : (s.gpioWrite p v).isEnabled q = s.isEnabled q := by simp [State.isEnabled]
@[simp] theorem gpioWrite_gpio (s : State) (p : Nat) (v : Bool) : (s.gpioWrite p v).gpio = setMaskBit s.gpio p v := rfl

/-! #### `TimerWrite(n)` -/

@[simp] theorem timerWrite_cfg (s : State) (n : Nat) : (s.timerWrite n).cfg = s.cfg := rfl
@[simp] theorem timerWrite_arg0 (s : State) (n : Nat) : (s.timerWrite n).arg0 = s.arg0 := rfl
@[simp] theorem timerWrite_arg1 (s : State) (n : Nat) : (s.timerWrite n).arg1 = s.arg1 := rfl
@[simp] theorem timerWrite_arg2 (s : State) (n : Nat) : (s.timerWrite n).arg2 = s.arg2 := rfl
@[simp] theorem timerWrite_arg3 (s : State) (n : Nat) : (s.timerWrite n).arg3 = s.arg3 := rfl
@[simp] theorem timerWrite_cmdWordF (s : State) (n : Nat) : (s.timerWrite n).cmdWordF = s.cmdWordF := rfl
@[simp] theorem timerWrite_cmdWordI (s : State) (n : Nat) : (s.timerWrite n).cmdWordI = s.cmdWordI := rfl
@[simp] theorem timerWrite_cmdF (s : State) (n : Nat) : (s.timerWrite n).cmdF = s.cmdF := rfl
@[simp] theorem timerWrite_cmdI (s : State) (n : Nat) : (s.timerWrite n).cmdI = s.cmdI := rfl
@[simp] theorem timerWrite_phaseF (s : State) (n : Nat) : (s.timerWrite n).phaseF = s.phaseF := rfl
@[simp] theorem timerWrite_phaseI (s : State) (n : Nat) : (s.timerWrite n).phaseI = s.phaseI := rfl
@[simp] theorem timerWrite_fResult (s : State) (n : Nat) : (s.timerWrite n).fResult = s.fResult := rfl
@[simp] theorem timerWrite_iResult (s : State) (n : Nat) : (s.timerWrite n).iResult = s.iResult := rfl
@[simp] theorem timerWrite_wt (s : State) (n : Nat) : (s.timerWrite n).wt = s.wt := rfl
@[simp] theorem timerWrite_enabled (s : State) (n : Nat) : (s.timerWrite n).enabled = s.enabled := rfl
@[simp] theorem timerWrite_states (s : State) (n : Nat) : (s.timerWrite n).states = s.states := rfl
@[simp] theorem timerWrite_toSet (s : State) (n : Nat) : (s.timerWrite n).toSet = s.toSet := rfl
@[simp] theorem timerWrite_toDisable (s : State) (n : Nat) : (s.timerWrite n).toDisable = s.toDisable := rfl
@[simp] theorem timerWrite_firstPin (s : State) (n : Nat) : (s.timerWrite n).firstPin = s.firstPin := rfl
@[simp] theorem timerWrite_lastPin (s : State) (n : Nat) : (s.timerWrite n).lastPin = s.lastPin := rfl
@[simp] theorem timerWrite_cursor (s : State) (n : Nat) : (s.timerWrite n).cursor = s.cursor := rfl
@[simp] theorem timerWrite_timerRunning (s : State) (n : Nat) : (s.timerWrite n).timerRunning = s.timerRunning := rfl
@[simp] theorem timerWrite_cbRegistered (s : State) (n : Nat) : (s.timerWrite n).cbRegistered = s.cbRegistered := rfl
@[simp] theorem timerWrite_tEnabled (s : State) (n : Nat) : (s.timerWrite n).tEnabled = s.tEnabled := rfl
@[simp] theorem timerWrite_svcPending (s : State) (n : Nat) : (s.timerWrite n).svcPending = s.svcPending := rfl
@[simp] theorem timerWrite_ccount (s : State) (n : Nat) : (s.timerWrite n).ccount = s.ccount := rfl
@[simp] theorem timerWrite_gpio (s : State) (n : Nat) : (s.timerWrite n).gpio = s.gpio := rfl
@[simp] theorem timerWrite_inputs (s : State) (n : Nat) : (s.timerWrite n).inputs = s.inputs := rfl
@[simp] theorem timerWrite_delays (s : State) (n : Nat) : (s.timerWrite n).delays = s.delays := rfl
@[simp] theorem timerWrite_replies (s : State) (n : Nat) : (s.timerWrite n).replies = s.replies := rfl
@[simp] theorem timerWrite_draws (s : State) (n : Nat) : (s.timerWrite n).draws = s.draws := rfl
@[simp] theorem timerWrite_busData (s : State) (n : Nat) : (s.timerWrite n).busData = s.busData := rfl
@[simp] theorem timerWrite_trace (s : State) (n : Nat) : (s.timerWrite n).trace = s.trace := rfl
@[simp] theorem timerWrite_desc (s : State) (n : Nat) (q : Nat) : (s.timerWrite n).desc q = s.desc q := by simp [State.desc]
@[simp] theorem timerWrite_isEnabled (s : State) (n : Nat) (q : Nat) : (s.timerWrite n).isEnabled q = s.isEnabled q := by simp [State.isEnabled]
@[simp] theorem timerWrite_tArmed (s : State) (n : Nat) : (s.timerWrite n).tArmed = true := rfl
@[simp] theorem timerWrite_tFireAt (s : State) (n : Nat) : (s.timerWrite n).tFireAt = s.ccount + BitVec.ofNat 32 n := rfl

/-! #### `TimerEnable()` -/

@[simp] theorem timerEnable_cfg (s : State) : s.timerEnable.cfg = s.cfg := rfl
@[simp] theorem timerEnable_arg0 (s : State) : s.timerEnable.arg0 = s.arg0 := rfl
@[simp] theorem timerEnable_arg1 (s : State) : s.timerEnable.arg1 = s.arg1 := rfl
@[simp] theorem timerEnable_arg2 (s : State) : s.timerEnable.arg2 = s.arg2 := rfl
@[simp] theorem timerEnable_arg3 (s : State) : s.timerEnable.arg3 = s.arg3 := rfl
@[simp] theorem timerEnable_cmdWordF (s : State) : s.timerEnable.cmdWordF = s.cmdWordF := rfl
@[simp] theorem timerEnable_cmdWordI (s : State) : s.timerEnable.cmdWordI = s.cmdWordI := rfl
@[simp] theorem timerEnable_cmdF (s : State) : s.timerEnable.cmdF = s.cmdF := rfl
@[simp] theorem timerEnable_cmdI (s : State) : s.timerEnable.cmdI = s.cmdI := rfl
@[simp] theorem timerEnable_phaseF (s : State) : s.timerEnable.phaseF = s.phaseF := rfl
@[simp] theorem timerEnable_phaseI (s : State) : s.timerEnable.phaseI = s.phaseI := rfl
@[simp] theorem timerEnable_fResult (s : State) : s.timerEnable.fResult = s.fResult := rfl
@[simp] theorem timerEnable_iResult (s : State) : s.timerEnable.iResult = s.iResult := rfl
@[simp] theorem timerEnable_wt (s : State) : s.timerEnable.wt = s.wt := rfl
@[simp] theorem timerEnable_enabled (s : State) : s.timerEnable.enabled = s.enabled := rfl
@[simp] theorem timerEnable_states (s : State) : s.timerEnable.states = s.states := rfl
@[simp] theorem timerEnable_toSet (s : State) : s.timerEnable.toSet = s.toSet := rfl
@[simp] theorem timerEnable_toDisable (s : State) : s.timerEnable.toDisable = s.toDisable := rfl
@[simp] theorem timerEnable_firstPin (s : State) : s.timerEnable.firstPin = s.firstPin := rfl
@[simp] theorem timerEnable_lastPin (s : State) : s.timerEnable.lastPin = s.lastPin := rfl
@[simp] theorem timerEnable_cursor (s : State) : s.timerEnable.cursor = s.cursor := rfl
@[simp] theorem timerEnable_timerRunning (s : State) : s.timerEnable.timerRunning = s.timerRunning := rfl
@[simp] theorem timerEnable_cbRegistered (s : State) : s.timerEnable.cbRegistered = s.cbRegistered := rfl
@[simp] theorem timerEnable_tArmed (s : State) : s.timerEnable.tArmed = s.tArmed := rfl
@[simp] theorem timerEnable_svcPending (s : State) : s.timerEnable.svcPending = s.svcPending := rfl
@[simp] theorem timerEnable_tFireAt (s : State) : s.timerEnable.tFireAt = s.tFireAt := rfl
@[simp] theorem timerEnable_ccount (s : State) : s.timerEnable.ccount = s.ccount := rfl
@[simp] theorem timerEnable_gpio (s : State) : s.timerEnable.gpio = s.gpio := rfl
@[simp] theorem timerEnable_inputs (s : State) : s.timerEnable.inputs = s.inputs := rfl
@[simp] theorem timerEnable_delays (s : State) : s.timerEnable.delays = s.delays := rfl
@[simp] theorem timerEnable_replies (s : State) : s.timerEnable.replies = s.replies := rfl
@[simp] theorem timerEnable_draws (s : State) : s.timerEnable.draws = s.draws := rfl
@[simp] theorem timerEnable_busData (s : State) : s.timerEnable.busData = s.busData := rfl
@[simp] theorem timerEnable_trace (s : State) : s.timerEnable.trace = s.trace := rfl
@[simp] theorem timerEnable_desc (s : State) (q : Nat) : s.timerEnable.desc q = s.desc q := by simp [State.desc]
@[simp] theorem timerEnable_isEnabled (s : State) (q : Nat) : s.timerEnable.isEnabled q = s.isEnabled q := by simp [State.isEnabled]
@[simp] theorem timerEnable_tEnabled (s : State) : s.timerEnable.tEnabled = true := rfl

/-! #### `TimerDisable()` -/

@[simp] theorem timerDisable_cfg (s : State) : s.timerDisable.cfg = s.cfg := rfl
@[simp] theorem timerDisable_arg0 (s : State) : s.timerDisable.arg0 = s.arg0 := rfl
@[simp] theorem timerDisable_arg1 (s : State) : s.timerDisable.arg1 = s.arg1 := rfl
@[simp] theorem timerDisable_arg2 (s : State) : s.timerDisable.arg2 = s.arg2 := rfl
@[simp] theorem timerDisable_arg3 (s : State) : s.timerDisable.arg3 = s.arg3 := rfl
@[simp] theorem timerDisable_cmdWordF (s : State) : s.timerDisable.cmdWordF = s.cmdWordF := rfl
@[simp] theorem timerDisable_cmdWordI (s : State) : s.timerDisable.cmdWordI = s.cmdWordI := rfl
@[simp] theorem timerDisable_cmdF (s : State) : s.timerDisable.cmdF = s.cmdF := rfl
@[simp] theorem timerDisable_cmdI (s : State) : s.timerDisable.cmdI = s.cmdI := rfl
@[simp] theorem timerDisable_phaseF (s : State) : s.timerDisable.phaseF = s.phaseF := rfl
@[simp] theorem timerDisable_phaseI (s : State) : s.timerDisable.phaseI = s.phaseI := rfl
@[simp] theorem timerDisable_fResult (s : State) : s.timerDisable.fResult = s.fResult := rfl
@[simp] theorem timerDisable_iResult (s : State) : s.timerDisable.iResult = s.iResult := rfl
@[simp] theorem timerDisable_wt (s : State) : s.timerDisable.wt = s.wt := rfl
@[simp] theorem timerDisable_enabled (s : State) : s.timerDisable.enabled = s.enabled := rfl
@[simp] theorem timerDisable_states (s : State) : s.timerDisable.states = s.states := rfl
@[simp] theorem timerDisable_toSet (s : State) : s.timerDisable.toSet = s.toSet := rfl
@[simp] theorem timerDisable_toDisable (s : State) : s.timerDisable.toDisable = s.toDisable := rfl
@[simp] theorem timerDisable_firstPin (s : State) : s.timerDisable.firstPin = s.firstPin := rfl
@[simp] theorem timerDisable_lastPin (s : State) : s.timerDisable.lastPin = s.lastPin := rfl
@[simp] theorem timerDisable_cursor (s : State) : s.timerDisable.cursor = s.cursor := rfl
@[simp] theorem timerDisable_timerRunning (s : State) : s.timerDisable.timerRunning = s.timerRunning := rfl
@[simp] theorem timerDisable_cbRegistered (s : State) : s.timerDisable.cbRegistered = s.cbRegistered := rfl
@[simp] theorem timerDisable_tFireAt (s : State) : s.timerDisable.tFireAt = s.tFireAt := rfl
@[simp] theorem timerDisable_ccount (s : State) : s.timerDisable.ccount = s.ccount := rfl
@[simp] theorem timerDisable_gpio (s : State) : s.timerDisable.gpio = s.gpio := rfl
@[simp] theorem timerDisable_inputs (s : State) : s.timerDisable.inputs = s.inputs := rfl
@[simp] theorem timerDisable_delays (s : State) : s.timerDisable.delays = s.delays := rfl
@[simp] theorem timerDisable_replies (s : State) : s.timerDisable.replies = s.replies := rfl
@[simp] theorem timerDisable_draws (s : State) : s.timerDisable.draws = s.draws := rfl
@[simp] theorem timerDisable_busData (s : State) : s.timerDisable.busData = s.busData := rfl
@[simp] theorem timerDisable_trace (s : State) : s.timerDisable.trace = s.trace := rfl
@[simp] theorem timerDisable_desc (s : State) (q : Nat) : s.timerDisable.desc q = s.desc q := by simp [State.desc]
@[simp] theorem timerDisable_isEnabled (s : State) (q : Nat) : s.timerDisable.isEnabled q = s.isEnabled q := by simp [State.isEnabled]
@[simp] theorem timerDisable_tEnabled (s : State) : s.timerDisable.tEnabled = false := rfl
@[simp] theorem timerDisable_tArmed (s : State) : s.timerDisable.tArmed = false := rfl
@[simp] theorem timerDisable_svcPending (s : State) : s.timerDisable.svcPending = false := rfl

/-! #### `InitTimer()` -/

@[simp] theorem initTimer_cfg (s : State) : s.initTimer.cfg = s.cfg := rfl
@[simp] theorem initTimer_arg0 (s : State) : s.initTimer.arg0 = s.arg0 := rfl
@[simp] theorem initTimer_arg1 (s : State) : s.initTimer.arg1 = s.arg1 := rfl
@[simp] theorem initTimer_arg2 (s : State) : s.initTimer.arg2 = s.arg2 := rfl
@[simp] theorem initTimer_arg3 (s : State) : s.initTimer.arg3 = s.arg3 := rfl
@[simp] theorem initTimer_cmdWordF (s : State) : s.initTimer.cmdWordF = s.cmdWordF := rfl
@[simp] theorem initTimer_cmdWordI (s : State) : s.initTimer.cmdWordI = s.cmdWordI := rfl
@[simp] theorem initTimer_cmdF (s : State) : s.initTimer.cmdF = s.cmdF := rfl
@[simp] theorem initTimer_cmdI (s : State) : s.initTimer.cmdI = s.cmdI := rfl
@[simp] theorem initTimer_phaseF (s : State) : s.initTimer.phaseF = s.phaseF := rfl
@[simp] theorem initTimer_phaseI (s : State) : s.initTimer.phaseI = s.phaseI := rfl
@[simp] theorem initTimer_fResult (s : State) : s.initTimer.fResult = s.fResult := rfl
@[simp] theorem initTimer_iResult (s : State) : s.initTimer.iResult = s.iResult := rfl
@[simp] theorem initTimer_wt (s : State) : s.initTimer.wt = s.wt := rfl
@[simp] theorem initTimer_enabled (s : State) : s.initTimer.enabled = s.enabled := rfl
@[simp] theorem initTimer_states (s : State) : s.initTimer.states = s.states := rfl
@[simp] theorem initTimer_toSet (s : State) : s.initTimer.toSet = s.toSet := rfl
@[simp] theorem initTimer_toDisable (s : State) : s.initTimer.toDisable = s.toDisable := rfl
@[simp] theorem initTimer_firstPin (s : State) : s.initTimer.firstPin = s.firstPin := rfl
@[simp] theorem initTimer_lastPin (s : State) : s.initTimer.lastPin = s.lastPin := rfl
@[simp] theorem initTimer_cursor (s : State) : s.initTimer.cursor = s.cursor := rfl
@[simp] theorem initTimer_cbRegistered (s : State) : s.initTimer.cbRegistered = s.cbRegistered := rfl
@[simp] theorem initTimer_svcPending (s : State) : s.initTimer.svcPending = s.svcPending := rfl
@[simp] theorem initTimer_ccount (s : State) : s.initTimer.ccount = s.ccount := rfl
@[simp] theorem initTimer_gpio (s : State) : s.initTimer.gpio = s.gpio := rfl
@[simp] theorem initTimer_inputs (s : State) : s.initTimer.inputs = s.inputs := rfl
@[simp] theorem initTimer_delays (s : State) : s.initTimer.delays = s.delays := rfl
@[simp] theorem initTimer_replies (s : State) : s.initTimer.replies = s.replies := rfl
@[simp] theorem initTimer_draws (s : State) : s.initTimer.draws = s.draws := rfl
@[simp] theorem initTimer_busData (s : State) : s.initTimer.busData = s.busData := rfl
@[simp] theorem initTimer_trace (s : State) : s.initTimer.trace = s.trace := rfl
@[simp] theorem initTimer_desc (s : State) (q : Nat) : s.initTimer.desc q = s.desc q := by simp [State.desc]
@[simp] theorem initTimer_isEnabled (s : State) (q : Nat) : s.initTimer.isEnabled q = s.isEnabled q := by simp [State.isEnabled]
@[simp] theorem initTimer_tEnabled (s : State) : s.initTimer.tEnabled = true := rfl
@[simp] theorem initTimer_timerRunning (s : State) : s.initTimer.timerRunning = true := rfl
@[simp] theorem initTimer_tArmed (s : State) : s.initTimer.tArmed = true := rfl
@[simp] theorem initTimer_tFireAt (s : State) :
    s.initTimer.tFireAt = s.ccount + BitVec.ofNat 32 s.cfg.kickCcys := rfl

/-! #### `DeinitTimer()` -/

@[simp] theorem deinitTimer_cfg (s : State) : s.deinitTimer.cfg = s.cfg := rfl
@[simp] theorem deinitTimer_arg0 (s : State) : s.deinitTimer.arg0 = s.arg0 := rfl
@[simp] theorem deinitTimer_arg1 (s : State) : s.deinitTimer.arg1 = s.arg1 := rfl
@[simp] theorem deinitTimer_arg2 (s : State) : s.deinitTimer.arg2 = s.arg2 := rfl
@[simp] theorem deinitTimer_arg3 (s : State) : s.deinitTimer.arg3 = s.arg3 := rfl
@[simp] theorem deinitTimer_cmdWordF (s : State) : s.deinitTimer.cmdWordF = s.cmdWordF := rfl
@[simp] theorem deinitTimer_cmdWordI (s : State) : s.deinitTimer.cmdWordI = s.cmdWordI := rfl
@[simp] theorem deinitTimer_cmdF (s : State) : s.deinitTimer.cmdF = s.cmdF := rfl
@[simp] theorem deinitTimer_cmdI (s : State) : s.deinitTimer.cmdI = s.cmdI := rfl
@[simp] theorem deinitTimer_phaseF (s : State) : s.deinitTimer.phaseF = s.phaseF := rfl
@[simp] theorem deinitTimer_phaseI (s : State) : s.deinitTimer.phaseI = s.phaseI := rfl
@[simp] theorem deinitTimer_fResult (s : State) : s.deinitTimer.fResult = s.fResult := rfl
@[simp] theorem deinitTimer_iResult (s : State) : s.deinitTimer.iResult = s.iResult := rfl
@[simp] theorem deinitTimer_wt (s : State) : s.deinitTimer.wt = s.wt := rfl
@[simp] theorem deinitTimer_enabled (s : State) : s.deinitTimer.enabled = s.enabled := rfl
@[simp] theorem deinitTimer_states (s : State) : s.deinitTimer.states = s.states := rfl
@[simp] theorem deinitTimer_toSet (s : State) : s.deinitTimer.toSet = s.toSet := rfl
@[simp] theorem deinitTimer_toDisable (s : State) : s.deinitTimer.toDisable = s.toDisable := rfl
@[simp] theorem deinitTimer_firstPin (s : State) : s.deinitTimer.firstPin = s.firstPin := rfl
@[simp] theorem deinitTimer_lastPin (s : State) : s.deinitTimer.lastPin = s.lastPin := rfl
@[simp] theorem deinitTimer_cursor (s : State) : s.deinitTimer.cursor = s.cursor := rfl
@[simp] theorem deinitTimer_cbRegistered (s : State) : s.deinitTimer.cbRegistered = s.cbRegistered := rfl
@[simp] theorem deinitTimer_tFireAt (s : State) : s.deinitTimer.tFireAt = s.tFireAt := rfl
@[simp] theorem deinitTimer_ccount (s : State) : s.deinitTimer.ccount = s.ccount := rfl
@[simp] theorem deinitTimer_gpio (s : State) : s.deinitTimer.gpio = s.gpio := rfl
@[simp] theorem deinitTimer_inputs (s : State) : s.deinitTimer.inputs = s.inputs := rfl
@[simp] theorem deinitTimer_delays (s : State) : s.deinitTimer.delays = s.delays := rfl
@[simp] theorem deinitTimer_replies (s : State) : s.deinitTimer.replies = s.replies := rfl
@[simp] theorem deinitTimer_draws (s : State) : s.deinitTimer.draws = s.draws := rfl
@[simp] theorem deinitTimer_busData (s : State) : s.deinitTimer.busData = s.busData := rfl
@[simp] theorem deinitTimer_trace (s : State) : s.deinitTimer.trace = s.trace := rfl
@[simp] theorem deinitTimer_desc (s : State) (q : Nat) : s.deinitTimer.desc q = s.desc q := by simp [State.desc]
@[simp] theorem deinitTimer_isEnabled (s : State) (q : Nat) : s.deinitTimer.isEnabled q = s.isEnabled q := by simp [State.isEnabled]
@[simp] theorem deinitTimer_tEnabled (s : State) : s.deinitTimer.tEnabled = false := rfl
@[simp] theorem deinitTimer_timerRunning (s : State) : s.deinitTimer.timerRunning = false := rfl
@[simp] theorem deinitTimer_tArmed (s : State) : s.deinitTimer.tArmed = false := rfl
@[simp] theorem deinitTimer_svcPending (s : State) : s.deinitTimer.svcPending = false := rfl

/-! #### The kick -/

@[simp] theorem kick_cfg (s : State) : s.kick.cfg = s.cfg := by unfold State.kick; split <;> rfl
@[simp] theorem kick_arg0 (s : State) : s.kick.arg0 = s.arg0 := by unfold State.kick; split <;> rfl
@[simp] theorem kick_arg1 (s : State) : s.kick.arg1 = s.arg1 := by unfold State.kick; split <;> rfl
@[simp] theorem kick_arg2 (s : State) : s.kick.arg2 = s.arg2 := by unfold State.kick; split <;> rfl
@[simp] theorem kick_arg3 (s : State) : s.kick.arg3 = s.arg3 := by unfold State.kick; split <;> rfl
@[simp] theorem kick_cmdWordF (s : State) : s.kick.cmdWordF = s.cmdWordF := by unfold State.kick; split <;> rfl
@[simp] theorem kick_cmdWordI (s : State) : s.kick.cmdWordI = s.cmdWordI := by unfold State.kick; split <;> rfl
@[simp] theorem kick_cmdF (s : State) : s.kick.cmdF = s.cmdF := by unfold State.kick; split <;> rfl
@[simp] theorem kick_cmdI (s : State) : s.kick.cmdI = s.cmdI := by unfold State.kick; split <;> rfl
@[simp] theorem kick_phaseF (s : State) : s.kick.phaseF = s.phaseF := by unfold State.kick; split <;> rfl
@[simp] theorem kick_phaseI (s : State) : s.kick.phaseI = s.phaseI := by unfold State.kick; split <;> rfl
@[simp] theorem kick_fResult (s : State) : s.kick.fResult = s.fResult := by unfold State.kick; split <;> rfl
@[simp] theorem kick_iResult (s : State) : s.kick.iResult = s.iResult := by unfold State.kick; split <;> rfl
@[simp] theorem kick_wt (s : State) : s.kick.wt = s.wt := by unfold State.kick; split <;> rfl
@[simp] theorem kick_enabled (s : State) : s.kick.enabled = s.enabled := by unfold State.kick; split <;> rfl
@[simp] theorem kick_states (s : State) : s.kick.states = s.states := by unfold State.kick; split <;> rfl
@[simp] theorem kick_toSet (s : State) : s.kick.toSet = s.toSet := by unfold State.kick; split <;> rfl
@[simp] theorem kick_toDisable (s : State) : s.kick.toDisable = s.toDisable := by unfold State.kick; split <;> rfl
@[simp] theorem kick_firstPin (s : State) : s.kick.firstPin = s.firstPin := by unfold State.kick; split <;> rfl
@[simp] theorem kick_lastPin (s : State) : s.kick.lastPin = s.lastPin := by unfold State.kick; split <;> rfl
@[simp] theorem kick_cursor (s : State) : s.kick.cursor = s.cursor := by unfold State.kick; split <;> rfl
@[simp] theorem kick_timerRunning (s : State) : s.kick.timerRunning = s.timerRunning := by unfold State.kick; split <;> rfl
@[simp] theorem kick_cbRegistered (s : State) : s.kick.cbRegistered = s.cbRegistered := by unfold State.kick; split <;> rfl
@[simp] theorem kick_tEnabled (s : State) : s.kick.tEnabled = s.tEnabled := by unfold State.kick; split <;> rfl
@[simp] theorem kick_svcPending (s : State) : s.kick.svcPending = s.svcPending := by unfold State.kick; split <;> rfl
@[simp] theorem kick_ccount (s : State) : s.kick.ccount = s.ccount := by unfold State.kick; split <;> rfl
@[simp] theorem kick_gpio (s : State) : s.kick.gpio = s.gpio := by unfold State.kick; split <;> rfl
@[simp] theorem kick_inputs (s : State) : s.kick.inputs = s.inputs := by unfold State.kick; split <;> rfl
@[simp] theorem kick_delays (s : State) : s.kick.delays = s.delays := by unfold State.kick; split <;> rfl
@[simp] theorem kick_replies (s : State) : s.kick.replies = s.replies := by unfold State.kick; split <;> rfl
@[simp] theorem kick_draws (s : State) : s.kick.draws = s.draws := by unfold State.kick; split <;> rfl
@[simp] theorem kick_busData (s : State) : s.kick.busData = s.busData := by unfold State.kick; split <;> rfl
@[simp] theorem kick_trace (s : State) : s.kick.trace = s.trace := by unfold State.kick; split <;> rfl
@[simp] theorem kick_desc (s : State) (q : Nat) : s.kick.desc q = s.desc q := by simp [State.desc]
@[simp] theorem kick_isEnabled (s : State) (q : Nat) : s.kick.isEnabled q = s.isEnabled q := by simp [State.isEnabled]

/-! #### Time passing -/

@[simp] theorem elapse_cfg (s : State) (n : Nat) : (s.elapse n).cfg = s.cfg := by unfold State.elapse; split <;> rfl
@[simp] theorem elapse_arg0 (s : State) (n : Nat) : (s.elapse n).arg0 = s.arg0 := by unfold State.elapse; split <;> rfl
@[simp] theorem elapse_arg1 (s : State) (n : Nat) : (s.elapse n).arg1 = s.arg1 := by unfold State.elapse; split <;> rfl
@[simp] theorem elapse_arg2 (s : State) (n : Nat) : (s.elapse n).arg2 = s.arg2 := by unfold State.elapse; split <;> rfl
@[simp] theorem elapse_arg3 (s : State) (n : Nat) : (s.elapse n).arg3 = s.arg3 := by unfold State.elapse; split <;> rfl
@[simp] theorem elapse_cmdWordF (s : State) (n : Nat) : (s.elapse n).cmdWordF = s.cmdWordF := by unfold State.elapse; split <;> rfl
@[simp] theorem elapse_cmdWordI (s : State) (n : Nat) : (s.elapse n).cmdWordI = s.cmdWordI := by unfold State.elapse; split <;> rfl
@[simp] theorem elapse_cmdF (s : State) (n : Nat) : (s.elapse n).cmdF = s.cmdF := by unfold State.elapse; split <;> rfl
@[simp] theorem elapse_cmdI (s : State) (n : Nat) : (s.elapse n).cmdI = s.cmdI := by unfold State.elapse; split <;> rfl
@[simp] theorem elapse_phaseF (s : State) (n : Nat) : (s.elapse n).phaseF = s.phaseF := by unfold State.elapse; split <;> rfl
@[simp] theorem elapse_phaseI (s : State) (n : Nat) : (s.elapse n).phaseI = s.phaseI := by unfold State.elapse; split <;> rfl
@[simp] theorem elapse_fResult (s : State) (n : Nat) : (s.elapse n).fResult = s.fResult := by unfold State.elapse; split <;> rfl
@[simp] theorem elapse_iResult (s : State) (n : Nat) : (s.elapse n).iResult = s.iResult := by unfold State.elapse; split <;> rfl
@[simp] theorem elapse_wt (s : State) (n : Nat) : (s.elapse n).wt = s.wt := by unfold State.elapse; split <;> rfl
@[simp] theorem elapse_enabled (s : State) (n : Nat) : (s.elapse n).enabled = s.enabled := by unfold State.elapse; split <;> rfl
@[simp] theorem elapse_states (s : State) (n : Nat) : (s.elapse n).states = s.states := by unfold State.elapse; split <;> rfl
@[simp] theorem elapse_toSet (s : State) (n : Nat) : (s.elapse n).toSet = s.toSet := by unfold State.elapse; split <;> rfl
@[simp] theorem elapse_toDisable (s : State) (n : Nat) : (s.elapse n).toDisable = s.toDisable := by unfold State.elapse; split <;> rfl
@[simp] theorem elapse_firstPin (s : State) (n : Nat) : (s.elapse n).firstPin = s.firstPin := by unfold State.elapse; split <;> rfl
@[simp] theorem elapse_lastPin (s : State) (n : Nat) : (s.elapse n).lastPin = s.lastPin := by unfold State.elapse; split <;> rfl
@[simp] theorem elapse_cursor (s : State) (n : Nat) : (s.elapse n).cursor = s.cursor := by unfold State.elapse; split <;> rfl
@[simp] theorem elapse_timerRunning (s : State) (n : Nat) : (s.elapse n).timerRunning = s.timerRunning := by unfold State.elapse; split <;> rfl
@[simp] theorem elapse_cbRegistered (s : State) (n : Nat) : (s.elapse n).cbRegistered = s.cbRegistered := by unfold State.elapse; split <;> rfl
@[simp] theorem elapse_tEnabled (s : State) (n : Nat) : (s.elapse n).tEnabled = s.tEnabled := by unfold State.elapse; split <;> rfl
@[simp] theorem elapse_tFireAt (s : State) (n : Nat) : (s.elapse n).tFireAt = s.tFireAt := by unfold State.elapse; split <;> rfl
@[simp] theorem elapse_gpio (s : State) (n : Nat) : (s.elapse n).gpio = s.gpio := by unfold State.elapse; split <;> rfl
@[simp] theorem elapse_inputs (s : State) (n : Nat) : (s.elapse n).inputs = s.inputs := by unfold State.elapse; split <;> rfl
@[simp] theorem elapse_delays (s : State) (n : Nat) : (s.elapse n).delays = s.delays := by unfold State.elapse; split <;> rfl
@[simp] theorem elapse_replies (s : State) (n : Nat) : (s.elapse n).replies = s.replies := by unfold State.elapse; split <;> rfl
@[simp] theorem elapse_draws (s : State) (n : Nat) : (s.elapse n).draws = s.draws := by unfold State.elapse; split <;> rfl
@[simp] theorem elapse_busData (s : State) (n : Nat) : (s.elapse n).busData = s.busData := by unfold State.elapse; split <;> rfl
@[simp] theorem elapse_trace (s : State) (n : Nat) : (s.elapse n).trace = s.trace := by unfold State.elapse; split <;> rfl
@[simp] theorem elapse_desc (s : State) (n : Nat) (q : Nat) : (s.elapse n).desc q = s.desc q := by simp [State.desc]
@[simp] theorem elapse_isEnabled (s : State) (n : Nat) (q : Nat) : (s.elapse n).isEnabled q = s.isEnabled q := by simp [State.isEnabled]

/-! #### A draw -/

@[simp] theorem drawDelay_cfg (s : State) : s.drawDelay.2.cfg = s.cfg := by unfold State.drawDelay; split <;> rfl
@[simp] theorem drawDelay_arg0 (s : State) : s.drawDelay.2.arg0 = s.arg0 := by unfold State.drawDelay; split <;> rfl
@[simp] theorem drawDelay_arg1 (s : State) : s.drawDelay.2.arg1 = s.arg1 := by unfold State.drawDelay; split <;> rfl
@[simp] theorem drawDelay_arg2 (s : State) : s.drawDelay.2.arg2 = s.arg2 := by unfold State.drawDelay; split <;> rfl
@[simp] theorem drawDelay_arg3 (s : State) : s.drawDelay.2.arg3 = s.arg3 := by unfold State.drawDelay; split <;> rfl
@[simp] theorem drawDelay_cmdWordF (s : State) : s.drawDelay.2.cmdWordF = s.cmdWordF := by unfold State.drawDelay; split <;> rfl
@[simp] theorem drawDelay_cmdWordI (s : State) : s.drawDelay.2.cmdWordI = s.cmdWordI := by unfold State.drawDelay; split <;> rfl
@[simp] theorem drawDelay_cmdF (s : State) : s.drawDelay.2.cmdF = s.cmdF := by unfold State.drawDelay; split <;> rfl
@[simp] theorem drawDelay_cmdI (s : State) : s.drawDelay.2.cmdI = s.cmdI := by unfold State.drawDelay; split <;> rfl
@[simp] theorem drawDelay_phaseF (s : State) : s.drawDelay.2.phaseF = s.phaseF := by unfold State.drawDelay; split <;> rfl
@[simp] theorem drawDelay_phaseI (s : State) : s.drawDelay.2.phaseI = s.phaseI := by unfold State.drawDelay; split <;> rfl
@[simp] theorem drawDelay_fResult (s : State) : s.drawDelay.2.fResult = s.fResult := by unfold State.drawDelay; split <;> rfl
@[simp] theorem drawDelay_iResult (s : State) : s.drawDelay.2.iResult = s.iResult := by unfold State.drawDelay; split <;> rfl
@[simp] theorem drawDelay_wt (s : State) : s.drawDelay.2.wt = s.wt := by unfold State.drawDelay; split <;> rfl
@[simp] theorem drawDelay_enabled (s : State) : s.drawDelay.2.enabled = s.enabled := by unfold State.drawDelay; split <;> rfl
@[simp] theorem drawDelay_states (s : State) : s.drawDelay.2.states = s.states := by unfold State.drawDelay; split <;> rfl
@[simp] theorem drawDelay_toSet (s : State) : s.drawDelay.2.toSet = s.toSet := by unfold State.drawDelay; split <;> rfl
@[simp] theorem drawDelay_toDisable (s : State) : s.drawDelay.2.toDisable = s.toDisable := by unfold State.drawDelay; split <;> rfl
@[simp] theorem drawDelay_firstPin (s : State) : s.drawDelay.2.firstPin = s.firstPin := by unfold State.drawDelay; split <;> rfl
@[simp] theorem drawDelay_lastPin (s : State) : s.drawDelay.2.lastPin = s.lastPin := by unfold State.drawDelay; split <;> rfl
@[simp] theorem drawDelay_cursor (s : State) : s.drawDelay.2.cursor = s.cursor := by unfold State.drawDelay; split <;> rfl
@[simp] theorem drawDelay_timerRunning (s : State) : s.drawDelay.2.timerRunning = s.timerRunning := by unfold State.drawDelay; split <;> rfl
@[simp] theorem drawDelay_cbRegistered (s : State) : s.drawDelay.2.cbRegistered = s.cbRegistered := by unfold State.drawDelay; split <;> rfl
@[simp] theorem drawDelay_tEnabled (s : State) : s.drawDelay.2.tEnabled = s.tEnabled := by unfold State.drawDelay; split <;> rfl
@[simp] theorem drawDelay_tArmed (s : State) : s.drawDelay.2.tArmed = s.tArmed := by unfold State.drawDelay; split <;> rfl
@[simp] theorem drawDelay_svcPending (s : State) : s.drawDelay.2.svcPending = s.svcPending := by unfold State.drawDelay; split <;> rfl
@[simp] theorem drawDelay_tFireAt (s : State) : s.drawDelay.2.tFireAt = s.tFireAt := by unfold State.drawDelay; split <;> rfl
@[simp] theorem drawDelay_ccount (s : State) : s.drawDelay.2.ccount = s.ccount := by unfold State.drawDelay; split <;> rfl
@[simp] theorem drawDelay_gpio (s : State) : s.drawDelay.2.gpio = s.gpio := by unfold State.drawDelay; split <;> rfl
@[simp] theorem drawDelay_inputs (s : State) : s.drawDelay.2.inputs = s.inputs := by unfold State.drawDelay; split <;> rfl
@[simp] theorem drawDelay_replies (s : State) : s.drawDelay.2.replies = s.replies := by unfold State.drawDelay; split <;> rfl
@[simp] theorem drawDelay_busData (s : State) : s.drawDelay.2.busData = s.busData := by unfold State.drawDelay; split <;> rfl
@[simp] theorem drawDelay_trace (s : State) : s.drawDelay.2.trace = s.trace := by unfold State.drawDelay; split <;> rfl
@[simp] theorem drawDelay_desc (s : State) (q : Nat) : s.drawDelay.2.desc q = s.desc q := by simp [State.desc]
@[simp] theorem drawDelay_isEnabled (s : State) (q : Nat) : s.drawDelay.2.isEnabled q = s.isEnabled q := by simp [State.isEnabled]

/-! #### A read of the counter -/

@[simp] theorem readNow_cfg (s : State) (n : Nat) : (s.readNow n).cfg = s.cfg := by simp [State.readNow]
@[simp] theorem readNow_arg0 (s : State) (n : Nat) : (s.readNow n).arg0 = s.arg0 := by simp [State.readNow]
@[simp] theorem readNow_arg1 (s : State) (n : Nat) : (s.readNow n).arg1 = s.arg1 := by simp [State.readNow]
@[simp] theorem readNow_arg2 (s : State) (n : Nat) : (s.readNow n).arg2 = s.arg2 := by simp [State.readNow]
@[simp] theorem readNow_arg3 (s : State) (n : Nat) : (s.readNow n).arg3 = s.arg3 := by simp [State.readNow]
@[simp] theorem readNow_cmdWordF (s : State) (n : Nat) : (s.readNow n).cmdWordF = s.cmdWordF := by simp [State.readNow]
@[simp] theorem readNow_cmdWordI (s : State) (n : Nat) : (s.readNow n).cmdWordI = s.cmdWordI := by simp [State.readNow]
@[simp] theorem readNow_cmdF (s : State) (n : Nat) : (s.readNow n).cmdF = s.cmdF := by simp [State.readNow]
@[simp] theorem readNow_cmdI (s : State) (n : Nat) : (s.readNow n).cmdI = s.cmdI := by simp [State.readNow]
@[simp] theorem readNow_phaseF (s : State) (n : Nat) : (s.readNow n).phaseF = s.phaseF := by simp [State.readNow]
@[simp] theorem readNow_phaseI (s : State) (n : Nat) : (s.readNow n).phaseI = s.phaseI := by simp [State.readNow]
@[simp] theorem readNow_fResult (s : State) (n : Nat) : (s.readNow n).fResult = s.fResult := by simp [State.readNow]
@[simp] theorem readNow_iResult (s : State) (n : Nat) : (s.readNow n).iResult = s.iResult := by simp [State.readNow]
@[simp] theorem readNow_wt (s : State) (n : Nat) : (s.readNow n).wt = s.wt := by simp [State.readNow]
@[simp] theorem readNow_enabled (s : State) (n : Nat) : (s.readNow n).enabled = s.enabled := by simp [State.readNow]
@[simp] theorem readNow_states (s : State) (n : Nat) : (s.readNow n).states = s.states := by simp [State.readNow]
@[simp] theorem readNow_toSet (s : State) (n : Nat) : (s.readNow n).toSet = s.toSet := by simp [State.readNow]
@[simp] theorem readNow_toDisable (s : State) (n : Nat) : (s.readNow n).toDisable = s.toDisable := by simp [State.readNow]
@[simp] theorem readNow_firstPin (s : State) (n : Nat) : (s.readNow n).firstPin = s.firstPin := by simp [State.readNow]
@[simp] theorem readNow_lastPin (s : State) (n : Nat) : (s.readNow n).lastPin = s.lastPin := by simp [State.readNow]
@[simp] theorem readNow_cursor (s : State) (n : Nat) : (s.readNow n).cursor = s.cursor := by simp [State.readNow]
@[simp] theorem readNow_timerRunning (s : State) (n : Nat) : (s.readNow n).timerRunning = s.timerRunning := by simp [State.readNow]
@[simp] theorem readNow_cbRegistered (s : State) (n : Nat) : (s.readNow n).cbRegistered = s.cbRegistered := by simp [State.readNow]
@[simp] theorem readNow_tEnabled (s : State) (n : Nat) : (s.readNow n).tEnabled = s.tEnabled := by simp [State.readNow]
@[simp] theorem readNow_tArmed (s : State) (n : Nat) : (s.readNow n).tArmed = s.tArmed := by simp [State.readNow]
@[simp] theorem readNow_svcPending (s : State) (n : Nat) : (s.readNow n).svcPending = s.svcPending := by simp [State.readNow]
@[simp] theorem readNow_tFireAt (s : State) (n : Nat) : (s.readNow n).tFireAt = s.tFireAt := by simp [State.readNow]
@[simp] theorem readNow_gpio (s : State) (n : Nat) : (s.readNow n).gpio = s.gpio := by simp [State.readNow]
@[simp] theorem readNow_inputs (s : State) (n : Nat) : (s.readNow n).inputs = s.inputs := by simp [State.readNow]
@[simp] theorem readNow_replies (s : State) (n : Nat) : (s.readNow n).replies = s.replies := by simp [State.readNow]
@[simp] theorem readNow_busData (s : State) (n : Nat) : (s.readNow n).busData = s.busData := by simp [State.readNow]
@[simp] theorem readNow_trace (s : State) (n : Nat) : (s.readNow n).trace = s.trace := by simp [State.readNow]
@[simp] theorem readNow_desc (s : State) (n : Nat) (q : Nat) : (s.readNow n).desc q = s.desc q := by simp [State.desc]
@[simp] theorem readNow_isEnabled (s : State) (n : Nat) (q : Nat) : (s.readNow n).isEnabled q = s.isEnabled q := by simp [State.isEnabled]

/-! #### The callback -/

@[simp] theorem callback_cfg (s : State) : s.callback.2.cfg = s.cfg := by unfold State.callback; split <;> rfl
@[simp] theorem callback_arg0 (s : State) : s.callback.2.arg0 = s.arg0 := by unfold State.callback; split <;> rfl
@[simp] theorem callback_arg1 (s : State) : s.callback.2.arg1 = s.arg1 := by unfold State.callback; split <;> rfl
@[simp] theorem callback_arg2 (s : State) : s.callback.2.arg2 = s.arg2 := by unfold State.callback; split <;> rfl
@[simp] theorem callback_arg3 (s : State) : s.callback.2.arg3 = s.arg3 := by unfold State.callback; split <;> rfl
@[simp] theorem callback_cmdWordF (s : State) : s.callback.2.cmdWordF = s.cmdWordF := by unfold State.callback; split <;> rfl
@[simp] theorem callback_cmdWordI (s : State) : s.callback.2.cmdWordI = s.cmdWordI := by unfold State.callback; split <;> rfl
@[simp] theorem callback_cmdF (s : State) : s.callback.2.cmdF = s.cmdF := by unfold State.callback; split <;> rfl
@[simp] theorem callback_cmdI (s : State) : s.callback.2.cmdI = s.cmdI := by unfold State.callback; split <;> rfl
@[simp] theorem callback_phaseF (s : State) : s.callback.2.phaseF = s.phaseF := by unfold State.callback; split <;> rfl
@[simp] theorem callback_phaseI (s : State) : s.callback.2.phaseI = s.phaseI := by unfold State.callback; split <;> rfl
@[simp] theorem callback_fResult (s : State) : s.callback.2.fResult = s.fResult := by unfold State.callback; split <;> rfl
@[simp] theorem callback_iResult (s : State) : s.callback.2.iResult = s.iResult := by unfold State.callback; split <;> rfl
@[simp] theorem callback_wt (s : State) : s.callback.2.wt = s.wt := by unfold State.callback; split <;> rfl
@[simp] theorem callback_enabled (s : State) : s.callback.2.enabled = s.enabled := by unfold State.callback; split <;> rfl
@[simp] theorem callback_states (s : State) : s.callback.2.states = s.states := by unfold State.callback; split <;> rfl
@[simp] theorem callback_toSet (s : State) : s.callback.2.toSet = s.toSet := by unfold State.callback; split <;> rfl
@[simp] theorem callback_toDisable (s : State) : s.callback.2.toDisable = s.toDisable := by unfold State.callback; split <;> rfl
@[simp] theorem callback_firstPin (s : State) : s.callback.2.firstPin = s.firstPin := by unfold State.callback; split <;> rfl
@[simp] theorem callback_lastPin (s : State) : s.callback.2.lastPin = s.lastPin := by unfold State.callback; split <;> rfl
@[simp] theorem callback_cursor (s : State) : s.callback.2.cursor = s.cursor := by unfold State.callback; split <;> rfl
@[simp] theorem callback_timerRunning (s : State) : s.callback.2.timerRunning = s.timerRunning := by unfold State.callback; split <;> rfl
@[simp] theorem callback_cbRegistered (s : State) : s.callback.2.cbRegistered = s.cbRegistered := by unfold State.callback; split <;> rfl
@[simp] theorem callback_tEnabled (s : State) : s.callback.2.tEnabled = s.tEnabled := by unfold State.callback; split <;> rfl
@[simp] theorem callback_tArmed (s : State) : s.callback.2.tArmed = s.tArmed := by unfold State.callback; split <;> rfl
@[simp] theorem callback_svcPending (s : State) : s.callback.2.svcPending = s.svcPending := by unfold State.callback; split <;> rfl
@[simp] theorem callback_tFireAt (s : State) : s.callback.2.tFireAt = s.tFireAt := by unfold State.callback; split <;> rfl
@[simp] theorem callback_ccount (s : State) : s.callback.2.ccount = s.ccount := by unfold State.callback; split <;> rfl
@[simp] theorem callback_gpio (s : State) : s.callback.2.gpio = s.gpio := by unfold State.callback; split <;> rfl
@[simp] theorem callback_inputs (s : State) : s.callback.2.inputs = s.inputs := by unfold State.callback; split <;> rfl
@[simp] theorem callback_delays (s : State) : s.callback.2.delays = s.delays := by unfold State.callback; split <;> rfl
@[simp] theorem callback_busData (s : State) : s.callback.2.busData = s.busData := by unfold State.callback; split <;> rfl
@[simp] theorem callback_desc (s : State) (q : Nat) : s.callback.2.desc q = s.desc q := by simp [State.desc]
@[simp] theorem callback_isEnabled (s : State) (q : Nat) : s.callback.2.isEnabled q = s.isEnabled q := by simp [State.isEnabled]

/-! #### The end of a command -/

@[simp] theorem endCommand_cfg (s : State) (port : CmdPort) (r : Bool) : (s.endCommand port r).cfg = s.cfg := by cases port <;> rfl
@[simp] theorem endCommand_arg0 (s : State) (port : CmdPort) (r : Bool) : (s.endCommand port r).arg0 = s.arg0 := by cases port <;> rfl
@[simp] theorem endCommand_arg1 (s : State) (port : CmdPort) (r : Bool) : (s.endCommand port r).arg1 = s.arg1 := by cases port <;> rfl
@[simp] theorem endCommand_arg2 (s : State) (port : CmdPort) (r : Bool) : (s.endCommand port r).arg2 = s.arg2 := by cases port <;> rfl
@[simp] theorem endCommand_arg3 (s : State) (port : CmdPort) (r : Bool) : (s.endCommand port r).arg3 = s.arg3 := by cases port <;> rfl
@[simp] theorem endCommand_cmdWordF (s : State) (port : CmdPort) (r : Bool) : (s.endCommand port r).cmdWordF = s.cmdWordF := by cases port <;> rfl
@[simp] theorem endCommand_cmdWordI (s : State) (port : CmdPort) (r : Bool) : (s.endCommand port r).cmdWordI = s.cmdWordI := by cases port <;> rfl
@[simp] theorem endCommand_cmdF (s : State) (port : CmdPort) (r : Bool) : (s.endCommand port r).cmdF = s.cmdF := by cases port <;> rfl
@[simp] theorem endCommand_cmdI (s : State) (port : CmdPort) (r : Bool) : (s.endCommand port r).cmdI = s.cmdI := by cases port <;> rfl
@[simp] theorem endCommand_wt (s : State) (port : CmdPort) (r : Bool) : (s.endCommand port r).wt = s.wt := by cases port <;> rfl
@[simp] theorem endCommand_enabled (s : State) (port : CmdPort) (r : Bool) : (s.endCommand port r).enabled = s.enabled := by cases port <;> rfl
@[simp] theorem endCommand_states (s : State) (port : CmdPort) (r : Bool) : (s.endCommand port r).states = s.states := by cases port <;> rfl
@[simp] theorem endCommand_toSet (s : State) (port : CmdPort) (r : Bool) : (s.endCommand port r).toSet = s.toSet := by cases port <;> rfl
@[simp] theorem endCommand_toDisable (s : State) (port : CmdPort) (r : Bool) : (s.endCommand port r).toDisable = s.toDisable := by cases port <;> rfl
@[simp] theorem endCommand_firstPin (s : State) (port : CmdPort) (r : Bool) : (s.endCommand port r).firstPin = s.firstPin := by cases port <;> rfl
@[simp] theorem endCommand_lastPin (s : State) (port : CmdPort) (r : Bool) : (s.endCommand port r).lastPin = s.lastPin := by cases port <;> rfl
@[simp] theorem endCommand_cursor (s : State) (port : CmdPort) (r : Bool) : (s.endCommand port r).cursor = s.cursor := by cases port <;> rfl
@[simp] theorem endCommand_timerRunning (s : State) (port : CmdPort) (r : Bool) : (s.endCommand port r).timerRunning = s.timerRunning := by cases port <;> rfl
@[simp] theorem endCommand_cbRegistered (s : State) (port : CmdPort) (r : Bool) : (s.endCommand port r).cbRegistered = s.cbRegistered := by cases port <;> rfl
@[simp] theorem endCommand_tEnabled (s : State) (port : CmdPort) (r : Bool) : (s.endCommand port r).tEnabled = s.tEnabled := by cases port <;> rfl
@[simp] theorem endCommand_tArmed (s : State) (port : CmdPort) (r : Bool) : (s.endCommand port r).tArmed = s.tArmed := by cases port <;> rfl
@[simp] theorem endCommand_svcPending (s : State) (port : CmdPort) (r : Bool) : (s.endCommand port r).svcPending = s.svcPending := by cases port <;> rfl
@[simp] theorem endCommand_tFireAt (s : State) (port : CmdPort) (r : Bool) : (s.endCommand port r).tFireAt = s.tFireAt := by cases port <;> rfl
@[simp] theorem endCommand_ccount (s : State) (port : CmdPort) (r : Bool) : (s.endCommand port r).ccount = s.ccount := by cases port <;> rfl
@[simp] theorem endCommand_gpio (s : State) (port : CmdPort) (r : Bool) : (s.endCommand port r).gpio = s.gpio := by cases port <;> rfl
@[simp] theorem endCommand_inputs (s : State) (port : CmdPort) (r : Bool) : (s.endCommand port r).inputs = s.inputs := by cases port <;> rfl
@[simp] theorem endCommand_delays (s : State) (port : CmdPort) (r : Bool) : (s.endCommand port r).delays = s.delays := by cases port <;> rfl
@[simp] theorem endCommand_replies (s : State) (port : CmdPort) (r : Bool) : (s.endCommand port r).replies = s.replies := by cases port <;> rfl
@[simp] theorem endCommand_draws (s : State) (port : CmdPort) (r : Bool) : (s.endCommand port r).draws = s.draws := by cases port <;> rfl
@[simp] theorem endCommand_busData (s : State) (port : CmdPort) (r : Bool) : (s.endCommand port r).busData = s.busData := by cases port <;> rfl
@[simp] theorem endCommand_trace (s : State) (port : CmdPort) (r : Bool) : (s.endCommand port r).trace = s.trace := by cases port <;> rfl
@[simp] theorem endCommand_desc (s : State) (port : CmdPort) (r : Bool) (q : Nat) : (s.endCommand port r).desc q = s.desc q := by simp [State.desc]
@[simp] theorem endCommand_isEnabled (s : State) (port : CmdPort) (r : Bool) (q : Nat) : (s.endCommand port r).isEnabled q = s.isEnabled q := by simp [State.isEnabled]
@[simp] theorem endCommand_f (s : State) (r : Bool) : s.endCommand .f r = { s with fResult := r, phaseF := .idle } := rfl
@[simp] theorem endCommand_i (s : State) (r : Bool) : s.endCommand .i r = { s with iResult := r, phaseI := .idle } := rfl

/-! #### A failure -/

@[simp] theorem fail_eq (s : State) (port : CmdPort) (c : Cause) : s.fail port c = s.endCommand port false := rfl

/-! #### Entry to the Scheduler -/

@[simp] theorem enterService_cfg (s : State) : s.enterService.cfg = s.cfg := rfl
@[simp] theorem enterService_arg0 (s : State) : s.enterService.arg0 = s.arg0 := rfl
@[simp] theorem enterService_arg1 (s : State) : s.enterService.arg1 = s.arg1 := rfl
@[simp] theorem enterService_arg2 (s : State) : s.enterService.arg2 = s.arg2 := rfl
@[simp] theorem enterService_arg3 (s : State) : s.enterService.arg3 = s.arg3 := rfl
@[simp] theorem enterService_cmdWordF (s : State) : s.enterService.cmdWordF = s.cmdWordF := rfl
@[simp] theorem enterService_cmdWordI (s : State) : s.enterService.cmdWordI = s.cmdWordI := rfl
@[simp] theorem enterService_cmdF (s : State) : s.enterService.cmdF = s.cmdF := rfl
@[simp] theorem enterService_cmdI (s : State) : s.enterService.cmdI = s.cmdI := rfl
@[simp] theorem enterService_phaseF (s : State) : s.enterService.phaseF = s.phaseF := rfl
@[simp] theorem enterService_phaseI (s : State) : s.enterService.phaseI = s.phaseI := rfl
@[simp] theorem enterService_fResult (s : State) : s.enterService.fResult = s.fResult := rfl
@[simp] theorem enterService_iResult (s : State) : s.enterService.iResult = s.iResult := rfl
@[simp] theorem enterService_wt (s : State) : s.enterService.wt = s.wt := rfl
@[simp] theorem enterService_enabled (s : State) : s.enterService.enabled = s.enabled := rfl
@[simp] theorem enterService_states (s : State) : s.enterService.states = s.states := rfl
@[simp] theorem enterService_toSet (s : State) : s.enterService.toSet = s.toSet := rfl
@[simp] theorem enterService_toDisable (s : State) : s.enterService.toDisable = s.toDisable := rfl
@[simp] theorem enterService_firstPin (s : State) : s.enterService.firstPin = s.firstPin := rfl
@[simp] theorem enterService_lastPin (s : State) : s.enterService.lastPin = s.lastPin := rfl
@[simp] theorem enterService_cursor (s : State) : s.enterService.cursor = s.cursor := rfl
@[simp] theorem enterService_timerRunning (s : State) : s.enterService.timerRunning = s.timerRunning := rfl
@[simp] theorem enterService_cbRegistered (s : State) : s.enterService.cbRegistered = s.cbRegistered := rfl
@[simp] theorem enterService_tEnabled (s : State) : s.enterService.tEnabled = s.tEnabled := rfl
@[simp] theorem enterService_tFireAt (s : State) : s.enterService.tFireAt = s.tFireAt := rfl
@[simp] theorem enterService_ccount (s : State) : s.enterService.ccount = s.ccount := rfl
@[simp] theorem enterService_gpio (s : State) : s.enterService.gpio = s.gpio := rfl
@[simp] theorem enterService_inputs (s : State) : s.enterService.inputs = s.inputs := rfl
@[simp] theorem enterService_delays (s : State) : s.enterService.delays = s.delays := rfl
@[simp] theorem enterService_replies (s : State) : s.enterService.replies = s.replies := rfl
@[simp] theorem enterService_draws (s : State) : s.enterService.draws = s.draws := rfl
@[simp] theorem enterService_busData (s : State) : s.enterService.busData = s.busData := rfl
@[simp] theorem enterService_trace (s : State) : s.enterService.trace = s.trace := rfl
@[simp] theorem enterService_desc (s : State) (q : Nat) : s.enterService.desc q = s.desc q := by simp [State.desc]
@[simp] theorem enterService_isEnabled (s : State) (q : Nat) : s.enterService.isEnabled q = s.isEnabled q := by simp [State.isEnabled]
@[simp] theorem enterService_svcPending (s : State) : s.enterService.svcPending = false := rfl
@[simp] theorem enterService_tArmed (s : State) : s.enterService.tArmed = false := rfl

/-! #### The return from the Scheduler -/

@[simp] theorem leaveService_cfg (s : State) (n : Nat) : (s.leaveService n).cfg = s.cfg := by simp [State.leaveService]
@[simp] theorem leaveService_arg0 (s : State) (n : Nat) : (s.leaveService n).arg0 = s.arg0 := by simp [State.leaveService]
@[simp] theorem leaveService_arg1 (s : State) (n : Nat) : (s.leaveService n).arg1 = s.arg1 := by simp [State.leaveService]
@[simp] theorem leaveService_arg2 (s : State) (n : Nat) : (s.leaveService n).arg2 = s.arg2 := by simp [State.leaveService]
@[simp] theorem leaveService_arg3 (s : State) (n : Nat) : (s.leaveService n).arg3 = s.arg3 := by simp [State.leaveService]
@[simp] theorem leaveService_cmdWordF (s : State) (n : Nat) : (s.leaveService n).cmdWordF = s.cmdWordF := by simp [State.leaveService]
@[simp] theorem leaveService_cmdWordI (s : State) (n : Nat) : (s.leaveService n).cmdWordI = s.cmdWordI := by simp [State.leaveService]
@[simp] theorem leaveService_cmdF (s : State) (n : Nat) : (s.leaveService n).cmdF = s.cmdF := by simp [State.leaveService]
@[simp] theorem leaveService_cmdI (s : State) (n : Nat) : (s.leaveService n).cmdI = s.cmdI := by simp [State.leaveService]
@[simp] theorem leaveService_phaseF (s : State) (n : Nat) : (s.leaveService n).phaseF = s.phaseF := by simp [State.leaveService]
@[simp] theorem leaveService_phaseI (s : State) (n : Nat) : (s.leaveService n).phaseI = s.phaseI := by simp [State.leaveService]
@[simp] theorem leaveService_fResult (s : State) (n : Nat) : (s.leaveService n).fResult = s.fResult := by simp [State.leaveService]
@[simp] theorem leaveService_iResult (s : State) (n : Nat) : (s.leaveService n).iResult = s.iResult := by simp [State.leaveService]
@[simp] theorem leaveService_wt (s : State) (n : Nat) : (s.leaveService n).wt = s.wt := by simp [State.leaveService]
@[simp] theorem leaveService_enabled (s : State) (n : Nat) : (s.leaveService n).enabled = s.enabled := by simp [State.leaveService]
@[simp] theorem leaveService_states (s : State) (n : Nat) : (s.leaveService n).states = s.states := by simp [State.leaveService]
@[simp] theorem leaveService_toSet (s : State) (n : Nat) : (s.leaveService n).toSet = s.toSet := by simp [State.leaveService]
@[simp] theorem leaveService_toDisable (s : State) (n : Nat) : (s.leaveService n).toDisable = s.toDisable := by simp [State.leaveService]
@[simp] theorem leaveService_firstPin (s : State) (n : Nat) : (s.leaveService n).firstPin = s.firstPin := by simp [State.leaveService]
@[simp] theorem leaveService_lastPin (s : State) (n : Nat) : (s.leaveService n).lastPin = s.lastPin := by simp [State.leaveService]
@[simp] theorem leaveService_cursor (s : State) (n : Nat) : (s.leaveService n).cursor = s.cursor := by simp [State.leaveService]
@[simp] theorem leaveService_timerRunning (s : State) (n : Nat) : (s.leaveService n).timerRunning = s.timerRunning := by simp [State.leaveService]
@[simp] theorem leaveService_cbRegistered (s : State) (n : Nat) : (s.leaveService n).cbRegistered = s.cbRegistered := by simp [State.leaveService]
@[simp] theorem leaveService_tEnabled (s : State) (n : Nat) : (s.leaveService n).tEnabled = s.tEnabled := by simp [State.leaveService]
@[simp] theorem leaveService_svcPending (s : State) (n : Nat) : (s.leaveService n).svcPending = s.svcPending := by simp [State.leaveService]
@[simp] theorem leaveService_gpio (s : State) (n : Nat) : (s.leaveService n).gpio = s.gpio := by simp [State.leaveService]
@[simp] theorem leaveService_inputs (s : State) (n : Nat) : (s.leaveService n).inputs = s.inputs := by simp [State.leaveService]
@[simp] theorem leaveService_replies (s : State) (n : Nat) : (s.leaveService n).replies = s.replies := by simp [State.leaveService]
@[simp] theorem leaveService_busData (s : State) (n : Nat) : (s.leaveService n).busData = s.busData := by simp [State.leaveService]
@[simp] theorem leaveService_trace (s : State) (n : Nat) : (s.leaveService n).trace = s.trace := by simp [State.leaveService]
@[simp] theorem leaveService_desc (s : State) (n : Nat) (q : Nat) : (s.leaveService n).desc q = s.desc q := by simp [State.desc]
@[simp] theorem leaveService_isEnabled (s : State) (n : Nat) (q : Nat) : (s.leaveService n).isEnabled q = s.isEnabled q := by simp [State.isEnabled]
@[simp] theorem leaveService_tArmed (s : State) (n : Nat) : (s.leaveService n).tArmed = true := rfl

/-! #### Port F going on -/

@[simp] theorem goF_cfg (s : State) (k : PhaseF) : (s.goF k).cfg = s.cfg := rfl
@[simp] theorem goF_arg0 (s : State) (k : PhaseF) : (s.goF k).arg0 = s.arg0 := rfl
@[simp] theorem goF_arg1 (s : State) (k : PhaseF) : (s.goF k).arg1 = s.arg1 := rfl
@[simp] theorem goF_arg2 (s : State) (k : PhaseF) : (s.goF k).arg2 = s.arg2 := rfl
@[simp] theorem goF_arg3 (s : State) (k : PhaseF) : (s.goF k).arg3 = s.arg3 := rfl
@[simp] theorem goF_cmdWordF (s : State) (k : PhaseF) : (s.goF k).cmdWordF = s.cmdWordF := rfl
@[simp] theorem goF_cmdWordI (s : State) (k : PhaseF) : (s.goF k).cmdWordI = s.cmdWordI := rfl
@[simp] theorem goF_cmdF (s : State) (k : PhaseF) : (s.goF k).cmdF = s.cmdF := rfl
@[simp] theorem goF_cmdI (s : State) (k : PhaseF) : (s.goF k).cmdI = s.cmdI := rfl
@[simp] theorem goF_phaseI (s : State) (k : PhaseF) : (s.goF k).phaseI = s.phaseI := rfl
@[simp] theorem goF_fResult (s : State) (k : PhaseF) : (s.goF k).fResult = s.fResult := rfl
@[simp] theorem goF_iResult (s : State) (k : PhaseF) : (s.goF k).iResult = s.iResult := rfl
@[simp] theorem goF_wt (s : State) (k : PhaseF) : (s.goF k).wt = s.wt := rfl
@[simp] theorem goF_enabled (s : State) (k : PhaseF) : (s.goF k).enabled = s.enabled := rfl
@[simp] theorem goF_states (s : State) (k : PhaseF) : (s.goF k).states = s.states := rfl
@[simp] theorem goF_toSet (s : State) (k : PhaseF) : (s.goF k).toSet = s.toSet := rfl
@[simp] theorem goF_toDisable (s : State) (k : PhaseF) : (s.goF k).toDisable = s.toDisable := rfl
@[simp] theorem goF_firstPin (s : State) (k : PhaseF) : (s.goF k).firstPin = s.firstPin := rfl
@[simp] theorem goF_lastPin (s : State) (k : PhaseF) : (s.goF k).lastPin = s.lastPin := rfl
@[simp] theorem goF_cursor (s : State) (k : PhaseF) : (s.goF k).cursor = s.cursor := rfl
@[simp] theorem goF_timerRunning (s : State) (k : PhaseF) : (s.goF k).timerRunning = s.timerRunning := rfl
@[simp] theorem goF_cbRegistered (s : State) (k : PhaseF) : (s.goF k).cbRegistered = s.cbRegistered := rfl
@[simp] theorem goF_tEnabled (s : State) (k : PhaseF) : (s.goF k).tEnabled = s.tEnabled := rfl
@[simp] theorem goF_tArmed (s : State) (k : PhaseF) : (s.goF k).tArmed = s.tArmed := rfl
@[simp] theorem goF_svcPending (s : State) (k : PhaseF) : (s.goF k).svcPending = s.svcPending := rfl
@[simp] theorem goF_tFireAt (s : State) (k : PhaseF) : (s.goF k).tFireAt = s.tFireAt := rfl
@[simp] theorem goF_ccount (s : State) (k : PhaseF) : (s.goF k).ccount = s.ccount := rfl
@[simp] theorem goF_gpio (s : State) (k : PhaseF) : (s.goF k).gpio = s.gpio := rfl
@[simp] theorem goF_inputs (s : State) (k : PhaseF) : (s.goF k).inputs = s.inputs := rfl
@[simp] theorem goF_delays (s : State) (k : PhaseF) : (s.goF k).delays = s.delays := rfl
@[simp] theorem goF_replies (s : State) (k : PhaseF) : (s.goF k).replies = s.replies := rfl
@[simp] theorem goF_draws (s : State) (k : PhaseF) : (s.goF k).draws = s.draws := rfl
@[simp] theorem goF_busData (s : State) (k : PhaseF) : (s.goF k).busData = s.busData := rfl
@[simp] theorem goF_trace (s : State) (k : PhaseF) : (s.goF k).trace = s.trace := rfl
@[simp] theorem goF_desc (s : State) (k : PhaseF) (q : Nat) : (s.goF k).desc q = s.desc q := by simp [State.desc]
@[simp] theorem goF_isEnabled (s : State) (k : PhaseF) (q : Nat) : (s.goF k).isEnabled q = s.isEnabled q := by simp [State.isEnabled]
@[simp] theorem goF_phaseF (s : State) (k : PhaseF) : (s.goF k).phaseF = k := rfl

/-! #### A stop going on -/

@[simp] theorem goStop_cfg (s : State) (port : CmdPort) (k : StopStep) : (s.goStop port k).cfg = s.cfg := by cases port <;> rfl
@[simp] theorem goStop_arg0 (s : State) (port : CmdPort) (k : StopStep) : (s.goStop port k).arg0 = s.arg0 := by cases port <;> rfl
@[simp] theorem goStop_arg1 (s : State) (port : CmdPort) (k : StopStep) : (s.goStop port k).arg1 = s.arg1 := by cases port <;> rfl
@[simp] theorem goStop_arg2 (s : State) (port : CmdPort) (k : StopStep) : (s.goStop port k).arg2 = s.arg2 := by cases port <;> rfl
@[simp] theorem goStop_arg3 (s : State) (port : CmdPort) (k : StopStep) : (s.goStop port k).arg3 = s.arg3 := by cases port <;> rfl
@[simp] theorem goStop_cmdWordF (s : State) (port : CmdPort) (k : StopStep) : (s.goStop port k).cmdWordF = s.cmdWordF := by cases port <;> rfl
@[simp] theorem goStop_cmdWordI (s : State) (port : CmdPort) (k : StopStep) : (s.goStop port k).cmdWordI = s.cmdWordI := by cases port <;> rfl
@[simp] theorem goStop_cmdF (s : State) (port : CmdPort) (k : StopStep) : (s.goStop port k).cmdF = s.cmdF := by cases port <;> rfl
@[simp] theorem goStop_cmdI (s : State) (port : CmdPort) (k : StopStep) : (s.goStop port k).cmdI = s.cmdI := by cases port <;> rfl
@[simp] theorem goStop_fResult (s : State) (port : CmdPort) (k : StopStep) : (s.goStop port k).fResult = s.fResult := by cases port <;> rfl
@[simp] theorem goStop_iResult (s : State) (port : CmdPort) (k : StopStep) : (s.goStop port k).iResult = s.iResult := by cases port <;> rfl
@[simp] theorem goStop_wt (s : State) (port : CmdPort) (k : StopStep) : (s.goStop port k).wt = s.wt := by cases port <;> rfl
@[simp] theorem goStop_enabled (s : State) (port : CmdPort) (k : StopStep) : (s.goStop port k).enabled = s.enabled := by cases port <;> rfl
@[simp] theorem goStop_states (s : State) (port : CmdPort) (k : StopStep) : (s.goStop port k).states = s.states := by cases port <;> rfl
@[simp] theorem goStop_toSet (s : State) (port : CmdPort) (k : StopStep) : (s.goStop port k).toSet = s.toSet := by cases port <;> rfl
@[simp] theorem goStop_toDisable (s : State) (port : CmdPort) (k : StopStep) : (s.goStop port k).toDisable = s.toDisable := by cases port <;> rfl
@[simp] theorem goStop_firstPin (s : State) (port : CmdPort) (k : StopStep) : (s.goStop port k).firstPin = s.firstPin := by cases port <;> rfl
@[simp] theorem goStop_lastPin (s : State) (port : CmdPort) (k : StopStep) : (s.goStop port k).lastPin = s.lastPin := by cases port <;> rfl
@[simp] theorem goStop_cursor (s : State) (port : CmdPort) (k : StopStep) : (s.goStop port k).cursor = s.cursor := by cases port <;> rfl
@[simp] theorem goStop_timerRunning (s : State) (port : CmdPort) (k : StopStep) : (s.goStop port k).timerRunning = s.timerRunning := by cases port <;> rfl
@[simp] theorem goStop_cbRegistered (s : State) (port : CmdPort) (k : StopStep) : (s.goStop port k).cbRegistered = s.cbRegistered := by cases port <;> rfl
@[simp] theorem goStop_tEnabled (s : State) (port : CmdPort) (k : StopStep) : (s.goStop port k).tEnabled = s.tEnabled := by cases port <;> rfl
@[simp] theorem goStop_tArmed (s : State) (port : CmdPort) (k : StopStep) : (s.goStop port k).tArmed = s.tArmed := by cases port <;> rfl
@[simp] theorem goStop_svcPending (s : State) (port : CmdPort) (k : StopStep) : (s.goStop port k).svcPending = s.svcPending := by cases port <;> rfl
@[simp] theorem goStop_tFireAt (s : State) (port : CmdPort) (k : StopStep) : (s.goStop port k).tFireAt = s.tFireAt := by cases port <;> rfl
@[simp] theorem goStop_ccount (s : State) (port : CmdPort) (k : StopStep) : (s.goStop port k).ccount = s.ccount := by cases port <;> rfl
@[simp] theorem goStop_gpio (s : State) (port : CmdPort) (k : StopStep) : (s.goStop port k).gpio = s.gpio := by cases port <;> rfl
@[simp] theorem goStop_inputs (s : State) (port : CmdPort) (k : StopStep) : (s.goStop port k).inputs = s.inputs := by cases port <;> rfl
@[simp] theorem goStop_delays (s : State) (port : CmdPort) (k : StopStep) : (s.goStop port k).delays = s.delays := by cases port <;> rfl
@[simp] theorem goStop_replies (s : State) (port : CmdPort) (k : StopStep) : (s.goStop port k).replies = s.replies := by cases port <;> rfl
@[simp] theorem goStop_draws (s : State) (port : CmdPort) (k : StopStep) : (s.goStop port k).draws = s.draws := by cases port <;> rfl
@[simp] theorem goStop_busData (s : State) (port : CmdPort) (k : StopStep) : (s.goStop port k).busData = s.busData := by cases port <;> rfl
@[simp] theorem goStop_trace (s : State) (port : CmdPort) (k : StopStep) : (s.goStop port k).trace = s.trace := by cases port <;> rfl
@[simp] theorem goStop_desc (s : State) (port : CmdPort) (k : StopStep) (q : Nat) : (s.goStop port k).desc q = s.desc q := by simp [State.desc]
@[simp] theorem goStop_isEnabled (s : State) (port : CmdPort) (k : StopStep) (q : Nat) : (s.goStop port k).isEnabled q = s.isEnabled q := by simp [State.isEnabled]
@[simp] theorem goStop_f (s : State) (k : StopStep) : s.goStop .f k = { s with phaseF := .t k } := rfl
@[simp] theorem goStop_i (s : State) (k : StopStep) : s.goStop .i k = { s with phaseI := .t k } := rfl

/-! #### The live bit -/

@[simp] theorem setLive_cfg (s : State) (port : CmdPort) (v : Bool) : (s.setLive port v).cfg = s.cfg := by cases port <;> rfl
@[simp] theorem setLive_arg0 (s : State) (port : CmdPort) (v : Bool) : (s.setLive port v).arg0 = s.arg0 := by cases port <;> rfl
@[simp] theorem setLive_arg1 (s : State) (port : CmdPort) (v : Bool) : (s.setLive port v).arg1 = s.arg1 := by cases port <;> rfl
@[simp] theorem setLive_arg2 (s : State) (port : CmdPort) (v : Bool) : (s.setLive port v).arg2 = s.arg2 := by cases port <;> rfl
@[simp] theorem setLive_arg3 (s : State) (port : CmdPort) (v : Bool) : (s.setLive port v).arg3 = s.arg3 := by cases port <;> rfl
@[simp] theorem setLive_cmdWordF (s : State) (port : CmdPort) (v : Bool) : (s.setLive port v).cmdWordF = s.cmdWordF := by cases port <;> rfl
@[simp] theorem setLive_cmdWordI (s : State) (port : CmdPort) (v : Bool) : (s.setLive port v).cmdWordI = s.cmdWordI := by cases port <;> rfl
@[simp] theorem setLive_phaseF (s : State) (port : CmdPort) (v : Bool) : (s.setLive port v).phaseF = s.phaseF := by cases port <;> rfl
@[simp] theorem setLive_phaseI (s : State) (port : CmdPort) (v : Bool) : (s.setLive port v).phaseI = s.phaseI := by cases port <;> rfl
@[simp] theorem setLive_fResult (s : State) (port : CmdPort) (v : Bool) : (s.setLive port v).fResult = s.fResult := by cases port <;> rfl
@[simp] theorem setLive_iResult (s : State) (port : CmdPort) (v : Bool) : (s.setLive port v).iResult = s.iResult := by cases port <;> rfl
@[simp] theorem setLive_wt (s : State) (port : CmdPort) (v : Bool) : (s.setLive port v).wt = s.wt := by cases port <;> rfl
@[simp] theorem setLive_enabled (s : State) (port : CmdPort) (v : Bool) : (s.setLive port v).enabled = s.enabled := by cases port <;> rfl
@[simp] theorem setLive_states (s : State) (port : CmdPort) (v : Bool) : (s.setLive port v).states = s.states := by cases port <;> rfl
@[simp] theorem setLive_toSet (s : State) (port : CmdPort) (v : Bool) : (s.setLive port v).toSet = s.toSet := by cases port <;> rfl
@[simp] theorem setLive_toDisable (s : State) (port : CmdPort) (v : Bool) : (s.setLive port v).toDisable = s.toDisable := by cases port <;> rfl
@[simp] theorem setLive_firstPin (s : State) (port : CmdPort) (v : Bool) : (s.setLive port v).firstPin = s.firstPin := by cases port <;> rfl
@[simp] theorem setLive_lastPin (s : State) (port : CmdPort) (v : Bool) : (s.setLive port v).lastPin = s.lastPin := by cases port <;> rfl
@[simp] theorem setLive_cursor (s : State) (port : CmdPort) (v : Bool) : (s.setLive port v).cursor = s.cursor := by cases port <;> rfl
@[simp] theorem setLive_timerRunning (s : State) (port : CmdPort) (v : Bool) : (s.setLive port v).timerRunning = s.timerRunning := by cases port <;> rfl
@[simp] theorem setLive_cbRegistered (s : State) (port : CmdPort) (v : Bool) : (s.setLive port v).cbRegistered = s.cbRegistered := by cases port <;> rfl
@[simp] theorem setLive_tEnabled (s : State) (port : CmdPort) (v : Bool) : (s.setLive port v).tEnabled = s.tEnabled := by cases port <;> rfl
@[simp] theorem setLive_tArmed (s : State) (port : CmdPort) (v : Bool) : (s.setLive port v).tArmed = s.tArmed := by cases port <;> rfl
@[simp] theorem setLive_svcPending (s : State) (port : CmdPort) (v : Bool) : (s.setLive port v).svcPending = s.svcPending := by cases port <;> rfl
@[simp] theorem setLive_tFireAt (s : State) (port : CmdPort) (v : Bool) : (s.setLive port v).tFireAt = s.tFireAt := by cases port <;> rfl
@[simp] theorem setLive_ccount (s : State) (port : CmdPort) (v : Bool) : (s.setLive port v).ccount = s.ccount := by cases port <;> rfl
@[simp] theorem setLive_gpio (s : State) (port : CmdPort) (v : Bool) : (s.setLive port v).gpio = s.gpio := by cases port <;> rfl
@[simp] theorem setLive_inputs (s : State) (port : CmdPort) (v : Bool) : (s.setLive port v).inputs = s.inputs := by cases port <;> rfl
@[simp] theorem setLive_delays (s : State) (port : CmdPort) (v : Bool) : (s.setLive port v).delays = s.delays := by cases port <;> rfl
@[simp] theorem setLive_replies (s : State) (port : CmdPort) (v : Bool) : (s.setLive port v).replies = s.replies := by cases port <;> rfl
@[simp] theorem setLive_draws (s : State) (port : CmdPort) (v : Bool) : (s.setLive port v).draws = s.draws := by cases port <;> rfl
@[simp] theorem setLive_busData (s : State) (port : CmdPort) (v : Bool) : (s.setLive port v).busData = s.busData := by cases port <;> rfl
@[simp] theorem setLive_trace (s : State) (port : CmdPort) (v : Bool) : (s.setLive port v).trace = s.trace := by cases port <;> rfl
@[simp] theorem setLive_desc (s : State) (port : CmdPort) (v : Bool) (q : Nat) : (s.setLive port v).desc q = s.desc q := by simp [State.desc]
@[simp] theorem setLive_isEnabled (s : State) (port : CmdPort) (v : Bool) (q : Nat) : (s.setLive port v).isEnabled q = s.isEnabled q := by simp [State.isEnabled]
@[simp] theorem setLive_f (s : State) (v : Bool) : s.setLive .f v = { s with cmdF := { s.cmdF with live := v } } := rfl
@[simp] theorem setLive_i (s : State) (v : Bool) : s.setLive .i v = { s with cmdI := { s.cmdI with live := v } } := rfl

/-! #### Acceptance of a start -/

@[simp] theorem acceptStart_cfg (s : State) (o : Op) (g : Word → Word) (a : Bool) (l p : Byte) : (s.acceptStart o g a l p).cfg = s.cfg := rfl
@[simp] theorem acceptStart_arg0 (s : State) (o : Op) (g : Word → Word) (a : Bool) (l p : Byte) : (s.acceptStart o g a l p).arg0 = s.arg0 := rfl
@[simp] theorem acceptStart_arg1 (s : State) (o : Op) (g : Word → Word) (a : Bool) (l p : Byte) : (s.acceptStart o g a l p).arg1 = s.arg1 := rfl
@[simp] theorem acceptStart_arg2 (s : State) (o : Op) (g : Word → Word) (a : Bool) (l p : Byte) : (s.acceptStart o g a l p).arg2 = s.arg2 := rfl
@[simp] theorem acceptStart_arg3 (s : State) (o : Op) (g : Word → Word) (a : Bool) (l p : Byte) : (s.acceptStart o g a l p).arg3 = s.arg3 := rfl
@[simp] theorem acceptStart_cmdWordF (s : State) (o : Op) (g : Word → Word) (a : Bool) (l p : Byte) : (s.acceptStart o g a l p).cmdWordF = s.cmdWordF := rfl
@[simp] theorem acceptStart_cmdWordI (s : State) (o : Op) (g : Word → Word) (a : Bool) (l p : Byte) : (s.acceptStart o g a l p).cmdWordI = s.cmdWordI := rfl
@[simp] theorem acceptStart_cmdI (s : State) (o : Op) (g : Word → Word) (a : Bool) (l p : Byte) : (s.acceptStart o g a l p).cmdI = s.cmdI := rfl
@[simp] theorem acceptStart_phaseI (s : State) (o : Op) (g : Word → Word) (a : Bool) (l p : Byte) : (s.acceptStart o g a l p).phaseI = s.phaseI := rfl
@[simp] theorem acceptStart_fResult (s : State) (o : Op) (g : Word → Word) (a : Bool) (l p : Byte) : (s.acceptStart o g a l p).fResult = s.fResult := rfl
@[simp] theorem acceptStart_iResult (s : State) (o : Op) (g : Word → Word) (a : Bool) (l p : Byte) : (s.acceptStart o g a l p).iResult = s.iResult := rfl
@[simp] theorem acceptStart_wt (s : State) (o : Op) (g : Word → Word) (a : Bool) (l p : Byte) : (s.acceptStart o g a l p).wt = s.wt := rfl
@[simp] theorem acceptStart_enabled (s : State) (o : Op) (g : Word → Word) (a : Bool) (l p : Byte) : (s.acceptStart o g a l p).enabled = s.enabled := rfl
@[simp] theorem acceptStart_states (s : State) (o : Op) (g : Word → Word) (a : Bool) (l p : Byte) : (s.acceptStart o g a l p).states = s.states := rfl
@[simp] theorem acceptStart_toSet (s : State) (o : Op) (g : Word → Word) (a : Bool) (l p : Byte) : (s.acceptStart o g a l p).toSet = s.toSet := rfl
@[simp] theorem acceptStart_toDisable (s : State) (o : Op) (g : Word → Word) (a : Bool) (l p : Byte) : (s.acceptStart o g a l p).toDisable = s.toDisable := rfl
@[simp] theorem acceptStart_firstPin (s : State) (o : Op) (g : Word → Word) (a : Bool) (l p : Byte) : (s.acceptStart o g a l p).firstPin = s.firstPin := rfl
@[simp] theorem acceptStart_lastPin (s : State) (o : Op) (g : Word → Word) (a : Bool) (l p : Byte) : (s.acceptStart o g a l p).lastPin = s.lastPin := rfl
@[simp] theorem acceptStart_cursor (s : State) (o : Op) (g : Word → Word) (a : Bool) (l p : Byte) : (s.acceptStart o g a l p).cursor = s.cursor := rfl
@[simp] theorem acceptStart_timerRunning (s : State) (o : Op) (g : Word → Word) (a : Bool) (l p : Byte) : (s.acceptStart o g a l p).timerRunning = s.timerRunning := rfl
@[simp] theorem acceptStart_cbRegistered (s : State) (o : Op) (g : Word → Word) (a : Bool) (l p : Byte) : (s.acceptStart o g a l p).cbRegistered = s.cbRegistered := rfl
@[simp] theorem acceptStart_tEnabled (s : State) (o : Op) (g : Word → Word) (a : Bool) (l p : Byte) : (s.acceptStart o g a l p).tEnabled = s.tEnabled := rfl
@[simp] theorem acceptStart_tArmed (s : State) (o : Op) (g : Word → Word) (a : Bool) (l p : Byte) : (s.acceptStart o g a l p).tArmed = s.tArmed := rfl
@[simp] theorem acceptStart_svcPending (s : State) (o : Op) (g : Word → Word) (a : Bool) (l p : Byte) : (s.acceptStart o g a l p).svcPending = s.svcPending := rfl
@[simp] theorem acceptStart_tFireAt (s : State) (o : Op) (g : Word → Word) (a : Bool) (l p : Byte) : (s.acceptStart o g a l p).tFireAt = s.tFireAt := rfl
@[simp] theorem acceptStart_ccount (s : State) (o : Op) (g : Word → Word) (a : Bool) (l p : Byte) : (s.acceptStart o g a l p).ccount = s.ccount := rfl
@[simp] theorem acceptStart_gpio (s : State) (o : Op) (g : Word → Word) (a : Bool) (l p : Byte) : (s.acceptStart o g a l p).gpio = s.gpio := rfl
@[simp] theorem acceptStart_inputs (s : State) (o : Op) (g : Word → Word) (a : Bool) (l p : Byte) : (s.acceptStart o g a l p).inputs = s.inputs := rfl
@[simp] theorem acceptStart_delays (s : State) (o : Op) (g : Word → Word) (a : Bool) (l p : Byte) : (s.acceptStart o g a l p).delays = s.delays := rfl
@[simp] theorem acceptStart_replies (s : State) (o : Op) (g : Word → Word) (a : Bool) (l p : Byte) : (s.acceptStart o g a l p).replies = s.replies := rfl
@[simp] theorem acceptStart_draws (s : State) (o : Op) (g : Word → Word) (a : Bool) (l p : Byte) : (s.acceptStart o g a l p).draws = s.draws := rfl
@[simp] theorem acceptStart_busData (s : State) (o : Op) (g : Word → Word) (a : Bool) (l p : Byte) : (s.acceptStart o g a l p).busData = s.busData := rfl
@[simp] theorem acceptStart_trace (s : State) (o : Op) (g : Word → Word) (a : Bool) (l p : Byte) : (s.acceptStart o g a l p).trace = s.trace := rfl
@[simp] theorem acceptStart_desc (s : State) (o : Op) (g : Word → Word) (a : Bool) (l p : Byte) (q : Nat) : (s.acceptStart o g a l p).desc q = s.desc q := by simp [State.desc]
@[simp] theorem acceptStart_isEnabled (s : State) (o : Op) (g : Word → Word) (a : Bool) (l p : Byte) (q : Nat) : (s.acceptStart o g a l p).isEnabled q = s.isEnabled q := by simp [State.isEnabled]

/-! #### Acceptance of `STOP` -/

@[simp] theorem acceptStop_cfg (s : State) (p : Byte) : (s.acceptStop p).cfg = s.cfg := rfl
@[simp] theorem acceptStop_arg0 (s : State) (p : Byte) : (s.acceptStop p).arg0 = s.arg0 := rfl
@[simp] theorem acceptStop_arg1 (s : State) (p : Byte) : (s.acceptStop p).arg1 = s.arg1 := rfl
@[simp] theorem acceptStop_arg2 (s : State) (p : Byte) : (s.acceptStop p).arg2 = s.arg2 := rfl
@[simp] theorem acceptStop_arg3 (s : State) (p : Byte) : (s.acceptStop p).arg3 = s.arg3 := rfl
@[simp] theorem acceptStop_cmdWordF (s : State) (p : Byte) : (s.acceptStop p).cmdWordF = s.cmdWordF := rfl
@[simp] theorem acceptStop_cmdWordI (s : State) (p : Byte) : (s.acceptStop p).cmdWordI = s.cmdWordI := rfl
@[simp] theorem acceptStop_cmdI (s : State) (p : Byte) : (s.acceptStop p).cmdI = s.cmdI := rfl
@[simp] theorem acceptStop_phaseI (s : State) (p : Byte) : (s.acceptStop p).phaseI = s.phaseI := rfl
@[simp] theorem acceptStop_fResult (s : State) (p : Byte) : (s.acceptStop p).fResult = s.fResult := rfl
@[simp] theorem acceptStop_iResult (s : State) (p : Byte) : (s.acceptStop p).iResult = s.iResult := rfl
@[simp] theorem acceptStop_wt (s : State) (p : Byte) : (s.acceptStop p).wt = s.wt := rfl
@[simp] theorem acceptStop_enabled (s : State) (p : Byte) : (s.acceptStop p).enabled = s.enabled := rfl
@[simp] theorem acceptStop_states (s : State) (p : Byte) : (s.acceptStop p).states = s.states := rfl
@[simp] theorem acceptStop_toSet (s : State) (p : Byte) : (s.acceptStop p).toSet = s.toSet := rfl
@[simp] theorem acceptStop_toDisable (s : State) (p : Byte) : (s.acceptStop p).toDisable = s.toDisable := rfl
@[simp] theorem acceptStop_firstPin (s : State) (p : Byte) : (s.acceptStop p).firstPin = s.firstPin := rfl
@[simp] theorem acceptStop_lastPin (s : State) (p : Byte) : (s.acceptStop p).lastPin = s.lastPin := rfl
@[simp] theorem acceptStop_cursor (s : State) (p : Byte) : (s.acceptStop p).cursor = s.cursor := rfl
@[simp] theorem acceptStop_timerRunning (s : State) (p : Byte) : (s.acceptStop p).timerRunning = s.timerRunning := rfl
@[simp] theorem acceptStop_cbRegistered (s : State) (p : Byte) : (s.acceptStop p).cbRegistered = s.cbRegistered := rfl
@[simp] theorem acceptStop_tEnabled (s : State) (p : Byte) : (s.acceptStop p).tEnabled = s.tEnabled := rfl
@[simp] theorem acceptStop_tArmed (s : State) (p : Byte) : (s.acceptStop p).tArmed = s.tArmed := rfl
@[simp] theorem acceptStop_svcPending (s : State) (p : Byte) : (s.acceptStop p).svcPending = s.svcPending := rfl
@[simp] theorem acceptStop_tFireAt (s : State) (p : Byte) : (s.acceptStop p).tFireAt = s.tFireAt := rfl
@[simp] theorem acceptStop_ccount (s : State) (p : Byte) : (s.acceptStop p).ccount = s.ccount := rfl
@[simp] theorem acceptStop_gpio (s : State) (p : Byte) : (s.acceptStop p).gpio = s.gpio := rfl
@[simp] theorem acceptStop_inputs (s : State) (p : Byte) : (s.acceptStop p).inputs = s.inputs := rfl
@[simp] theorem acceptStop_delays (s : State) (p : Byte) : (s.acceptStop p).delays = s.delays := rfl
@[simp] theorem acceptStop_replies (s : State) (p : Byte) : (s.acceptStop p).replies = s.replies := rfl
@[simp] theorem acceptStop_draws (s : State) (p : Byte) : (s.acceptStop p).draws = s.draws := rfl
@[simp] theorem acceptStop_busData (s : State) (p : Byte) : (s.acceptStop p).busData = s.busData := rfl
@[simp] theorem acceptStop_trace (s : State) (p : Byte) : (s.acceptStop p).trace = s.trace := rfl
@[simp] theorem acceptStop_desc (s : State) (p : Byte) (q : Nat) : (s.acceptStop p).desc q = s.desc q := by simp [State.desc]
@[simp] theorem acceptStop_isEnabled (s : State) (p : Byte) (q : Nat) : (s.acceptStop p).isEnabled q = s.isEnabled q := by simp [State.isEnabled]

/-! #### Acceptance of `SETCB` -/

@[simp] theorem acceptSetcb_cfg (s : State) (e : Bool) : (s.acceptSetcb e).cfg = s.cfg := rfl
@[simp] theorem acceptSetcb_arg0 (s : State) (e : Bool) : (s.acceptSetcb e).arg0 = s.arg0 := rfl
@[simp] theorem acceptSetcb_arg1 (s : State) (e : Bool) : (s.acceptSetcb e).arg1 = s.arg1 := rfl
@[simp] theorem acceptSetcb_arg2 (s : State) (e : Bool) : (s.acceptSetcb e).arg2 = s.arg2 := rfl
@[simp] theorem acceptSetcb_arg3 (s : State) (e : Bool) : (s.acceptSetcb e).arg3 = s.arg3 := rfl
@[simp] theorem acceptSetcb_cmdWordF (s : State) (e : Bool) : (s.acceptSetcb e).cmdWordF = s.cmdWordF := rfl
@[simp] theorem acceptSetcb_cmdWordI (s : State) (e : Bool) : (s.acceptSetcb e).cmdWordI = s.cmdWordI := rfl
@[simp] theorem acceptSetcb_cmdI (s : State) (e : Bool) : (s.acceptSetcb e).cmdI = s.cmdI := rfl
@[simp] theorem acceptSetcb_phaseI (s : State) (e : Bool) : (s.acceptSetcb e).phaseI = s.phaseI := rfl
@[simp] theorem acceptSetcb_fResult (s : State) (e : Bool) : (s.acceptSetcb e).fResult = s.fResult := rfl
@[simp] theorem acceptSetcb_iResult (s : State) (e : Bool) : (s.acceptSetcb e).iResult = s.iResult := rfl
@[simp] theorem acceptSetcb_wt (s : State) (e : Bool) : (s.acceptSetcb e).wt = s.wt := rfl
@[simp] theorem acceptSetcb_enabled (s : State) (e : Bool) : (s.acceptSetcb e).enabled = s.enabled := rfl
@[simp] theorem acceptSetcb_states (s : State) (e : Bool) : (s.acceptSetcb e).states = s.states := rfl
@[simp] theorem acceptSetcb_toSet (s : State) (e : Bool) : (s.acceptSetcb e).toSet = s.toSet := rfl
@[simp] theorem acceptSetcb_toDisable (s : State) (e : Bool) : (s.acceptSetcb e).toDisable = s.toDisable := rfl
@[simp] theorem acceptSetcb_firstPin (s : State) (e : Bool) : (s.acceptSetcb e).firstPin = s.firstPin := rfl
@[simp] theorem acceptSetcb_lastPin (s : State) (e : Bool) : (s.acceptSetcb e).lastPin = s.lastPin := rfl
@[simp] theorem acceptSetcb_cursor (s : State) (e : Bool) : (s.acceptSetcb e).cursor = s.cursor := rfl
@[simp] theorem acceptSetcb_timerRunning (s : State) (e : Bool) : (s.acceptSetcb e).timerRunning = s.timerRunning := rfl
@[simp] theorem acceptSetcb_cbRegistered (s : State) (e : Bool) : (s.acceptSetcb e).cbRegistered = s.cbRegistered := rfl
@[simp] theorem acceptSetcb_tEnabled (s : State) (e : Bool) : (s.acceptSetcb e).tEnabled = s.tEnabled := rfl
@[simp] theorem acceptSetcb_tArmed (s : State) (e : Bool) : (s.acceptSetcb e).tArmed = s.tArmed := rfl
@[simp] theorem acceptSetcb_svcPending (s : State) (e : Bool) : (s.acceptSetcb e).svcPending = s.svcPending := rfl
@[simp] theorem acceptSetcb_tFireAt (s : State) (e : Bool) : (s.acceptSetcb e).tFireAt = s.tFireAt := rfl
@[simp] theorem acceptSetcb_ccount (s : State) (e : Bool) : (s.acceptSetcb e).ccount = s.ccount := rfl
@[simp] theorem acceptSetcb_gpio (s : State) (e : Bool) : (s.acceptSetcb e).gpio = s.gpio := rfl
@[simp] theorem acceptSetcb_inputs (s : State) (e : Bool) : (s.acceptSetcb e).inputs = s.inputs := rfl
@[simp] theorem acceptSetcb_delays (s : State) (e : Bool) : (s.acceptSetcb e).delays = s.delays := rfl
@[simp] theorem acceptSetcb_replies (s : State) (e : Bool) : (s.acceptSetcb e).replies = s.replies := rfl
@[simp] theorem acceptSetcb_draws (s : State) (e : Bool) : (s.acceptSetcb e).draws = s.draws := rfl
@[simp] theorem acceptSetcb_busData (s : State) (e : Bool) : (s.acceptSetcb e).busData = s.busData := rfl
@[simp] theorem acceptSetcb_trace (s : State) (e : Bool) : (s.acceptSetcb e).trace = s.trace := rfl
@[simp] theorem acceptSetcb_desc (s : State) (e : Bool) (q : Nat) : (s.acceptSetcb e).desc q = s.desc q := by simp [State.desc]
@[simp] theorem acceptSetcb_isEnabled (s : State) (e : Bool) (q : Nat) : (s.acceptSetcb e).isEnabled q = s.isEnabled q := by simp [State.isEnabled]

/-! #### Acceptance of `ISTOP` -/

@[simp] theorem acceptIstop_cfg (s : State) (p : Byte) : (s.acceptIstop p).cfg = s.cfg := rfl
@[simp] theorem acceptIstop_arg0 (s : State) (p : Byte) : (s.acceptIstop p).arg0 = s.arg0 := rfl
@[simp] theorem acceptIstop_arg1 (s : State) (p : Byte) : (s.acceptIstop p).arg1 = s.arg1 := rfl
@[simp] theorem acceptIstop_arg2 (s : State) (p : Byte) : (s.acceptIstop p).arg2 = s.arg2 := rfl
@[simp] theorem acceptIstop_arg3 (s : State) (p : Byte) : (s.acceptIstop p).arg3 = s.arg3 := rfl
@[simp] theorem acceptIstop_cmdWordF (s : State) (p : Byte) : (s.acceptIstop p).cmdWordF = s.cmdWordF := rfl
@[simp] theorem acceptIstop_cmdWordI (s : State) (p : Byte) : (s.acceptIstop p).cmdWordI = s.cmdWordI := rfl
@[simp] theorem acceptIstop_cmdF (s : State) (p : Byte) : (s.acceptIstop p).cmdF = s.cmdF := rfl
@[simp] theorem acceptIstop_phaseF (s : State) (p : Byte) : (s.acceptIstop p).phaseF = s.phaseF := rfl
@[simp] theorem acceptIstop_fResult (s : State) (p : Byte) : (s.acceptIstop p).fResult = s.fResult := rfl
@[simp] theorem acceptIstop_iResult (s : State) (p : Byte) : (s.acceptIstop p).iResult = s.iResult := rfl
@[simp] theorem acceptIstop_wt (s : State) (p : Byte) : (s.acceptIstop p).wt = s.wt := rfl
@[simp] theorem acceptIstop_enabled (s : State) (p : Byte) : (s.acceptIstop p).enabled = s.enabled := rfl
@[simp] theorem acceptIstop_states (s : State) (p : Byte) : (s.acceptIstop p).states = s.states := rfl
@[simp] theorem acceptIstop_toSet (s : State) (p : Byte) : (s.acceptIstop p).toSet = s.toSet := rfl
@[simp] theorem acceptIstop_toDisable (s : State) (p : Byte) : (s.acceptIstop p).toDisable = s.toDisable := rfl
@[simp] theorem acceptIstop_firstPin (s : State) (p : Byte) : (s.acceptIstop p).firstPin = s.firstPin := rfl
@[simp] theorem acceptIstop_lastPin (s : State) (p : Byte) : (s.acceptIstop p).lastPin = s.lastPin := rfl
@[simp] theorem acceptIstop_cursor (s : State) (p : Byte) : (s.acceptIstop p).cursor = s.cursor := rfl
@[simp] theorem acceptIstop_timerRunning (s : State) (p : Byte) : (s.acceptIstop p).timerRunning = s.timerRunning := rfl
@[simp] theorem acceptIstop_cbRegistered (s : State) (p : Byte) : (s.acceptIstop p).cbRegistered = s.cbRegistered := rfl
@[simp] theorem acceptIstop_tEnabled (s : State) (p : Byte) : (s.acceptIstop p).tEnabled = s.tEnabled := rfl
@[simp] theorem acceptIstop_tArmed (s : State) (p : Byte) : (s.acceptIstop p).tArmed = s.tArmed := rfl
@[simp] theorem acceptIstop_svcPending (s : State) (p : Byte) : (s.acceptIstop p).svcPending = s.svcPending := rfl
@[simp] theorem acceptIstop_tFireAt (s : State) (p : Byte) : (s.acceptIstop p).tFireAt = s.tFireAt := rfl
@[simp] theorem acceptIstop_ccount (s : State) (p : Byte) : (s.acceptIstop p).ccount = s.ccount := rfl
@[simp] theorem acceptIstop_gpio (s : State) (p : Byte) : (s.acceptIstop p).gpio = s.gpio := rfl
@[simp] theorem acceptIstop_inputs (s : State) (p : Byte) : (s.acceptIstop p).inputs = s.inputs := rfl
@[simp] theorem acceptIstop_delays (s : State) (p : Byte) : (s.acceptIstop p).delays = s.delays := rfl
@[simp] theorem acceptIstop_replies (s : State) (p : Byte) : (s.acceptIstop p).replies = s.replies := rfl
@[simp] theorem acceptIstop_draws (s : State) (p : Byte) : (s.acceptIstop p).draws = s.draws := rfl
@[simp] theorem acceptIstop_busData (s : State) (p : Byte) : (s.acceptIstop p).busData = s.busData := rfl
@[simp] theorem acceptIstop_trace (s : State) (p : Byte) : (s.acceptIstop p).trace = s.trace := rfl
@[simp] theorem acceptIstop_desc (s : State) (p : Byte) (q : Nat) : (s.acceptIstop p).desc q = s.desc q := by simp [State.desc]
@[simp] theorem acceptIstop_isEnabled (s : State) (p : Byte) (q : Nat) : (s.acceptIstop p).isEnabled q = s.isEnabled q := by simp [State.isEnabled]

end Sys2Proof.Machine
end

