-- ==== Sys2Proof/Laws/Table.lean ====
section
/-! SUPPORT. Reading back what was written: descriptors and the bits of masks. -/

namespace Sys2Proof.Machine

/-! ### Descriptors -/

/-- A descriptor reads what was written to it last; the others are untouched. -/
theorem desc_setDesc (s : State) (p q : Nat) (d : Desc) (hp : p < 32) :
    (s.setDesc p d).desc q = if q = p then d else s.desc q := by
  by_cases hq : q < 32
  · rcases eq_or_ne q p with rfl | h
    · simp [State.desc, State.setDesc, hq]
    · simp [State.desc, State.setDesc, hq, h, Vector.getElem_setIfInBounds_ne, h.symm]
  · have : q ≠ p := by omega
    simp [State.desc, hq, this]

/-- A write past the table changes nothing. -/
theorem setDesc_outside (s : State) (p : Nat) (d : Desc) (hp : 32 ≤ p) : s.setDesc p d = s := by
  simp [State.setDesc, Vector.setIfInBounds_eq_of_size_le, hp]

/-- The second of two writes of one descriptor is the one that stays. -/
theorem setDesc_setDesc (s : State) (p : Nat) (d e : Desc) : (s.setDesc p d).setDesc p e = s.setDesc p e := by
  simp [State.setDesc, Vector.setIfInBounds_setIfInBounds]

/-- The fields a write of `WT[p]` leaves alone, for every pin at once. -/
theorem desc_modDesc (s : State) (p q : Nat) (f : Desc → Desc) (hp : p < 32) :
    (s.modDesc p f).desc q = if q = p then f (s.desc p) else s.desc q :=
  desc_setDesc s p q _ hp

/-- A field that `f` keeps is kept in every descriptor by a write of `WT[p]` with `f`. -/
theorem modDesc_keeps {α : Type} (g : Desc → α) (s : State) (p : Nat) (f : Desc → Desc)
    (hf : ∀ d, g (f d) = g d) (q : Nat) : g ((s.modDesc p f).desc q) = g (s.desc q) := by
  by_cases hp : p < 32
  · rw [desc_modDesc s p q f hp]
    split
    · next h => rw [hf, h]
    · rfl
  · rw [State.modDesc, setDesc_outside s p _ (by omega)]

/-! ### Mask bits -/

/-- A bit of a mask reads what was written to it; the others are untouched. -/
theorem maskBit_setMaskBit (m : Word) (p q : Nat) (v : Bool) (hp : p < 32) :
    maskBit (setMaskBit m p v) q = if q = p then v else maskBit m q := by
  unfold maskBit setMaskBit
  by_cases hq : q < 32
  · cases v <;> by_cases h : q = p
    · subst h; simp [hq]
    · by_cases h' : q < p
      · simp [hq, h, h']
      · have : q - p ≠ 0 := by omega
        simp [hq, h, h', this]
    · subst h; simp [hq]
    · by_cases h' : q < p
      · simp [h, h']
      · have : q - p ≠ 0 := by omega
        simp [hq, h, this]
  · have h : q ≠ p := by omega
    have h2 : 32 ≤ q := by omega
    cases v <;> simp [h, BitVec.getLsbD_of_ge _ _ h2]

/-- The bit of a stored pin: exactly its own. -/
theorem maskBit_pinBit (b : Byte) (q : Nat) :
    maskBit (pinBit b) q = decide (b ≠ pinNone ∧ b.toNat = q ∧ q < 32) := by
  unfold maskBit pinBit
  by_cases hb : b = pinNone
  · simp [hb]
  · by_cases hq : q < 32
    · by_cases h : b.toNat = q
      · subst h; simp [hb, hq]
      · by_cases h' : q < b.toNat
        · simp [hb, h, h']
        · have : q - b.toNat ≠ 0 := by omega
          simp [hb, h, hq, this]
    · simp [hb, hq]

/-- The bits that exist are those of the pins (R23, R24). -/
theorem maskBit_pinMask (c : Cfg) (q : Nat) : maskBit (pinMask c) q = decide (q < c.npins) := by
  have hn : c.npins ≤ 32 := c.valid.2.1
  have h1 : 1 ≤ c.npins := c.valid.1
  have hm : pinMask c = BitVec.ofNat 32 (2 ^ c.npins - 1) := by
    unfold pinMask
    apply BitVec.eq_of_toNat_eq
    rcases Nat.lt_or_eq_of_le hn with h | h
    · have h2 : 2 ^ c.npins < 2 ^ 32 := Nat.pow_lt_pow_right (by omega) h
      have h3 : 1 ≤ 2 ^ c.npins := Nat.one_le_two_pow
      simp [BitVec.toNat_sub, Nat.shiftLeft_eq]
      omega
    · rw [h]; rfl
  unfold maskBit
  rw [hm, BitVec.getLsbD_ofNat, Nat.testBit_two_pow_sub_one]
  by_cases h : q < c.npins
  · have : q < 32 := by omega
    simp [h, this]
  · simp [h]

/-- A bit of a mask whose bits past the pins were cleared. -/
theorem maskBit_and_pinMask (m : Word) (c : Cfg) (q : Nat) :
    maskBit (m &&& pinMask c) q = (maskBit m q && decide (q < c.npins)) := by
  rw [← maskBit_pinMask]
  simp [maskBit]

/-- A mask whose bits past the pins were cleared has none set there. -/
theorem and_pinMask_clear (m : Word) (c : Cfg) : (m &&& pinMask c) &&& ~~~ pinMask c = 0#32 := by
  rw [BitVec.and_assoc, BitVec.and_not_self]
  exact BitVec.and_zero

/-- A mask is zero when none of its 32 bits is set. -/
theorem mask_eq_zero (m : Word) (h : ∀ p, maskBit m p = false) : m = 0#32 :=
  BitVec.eq_of_getLsbD_eq fun i _ => by simpa [maskBit] using h i

/-- Only 32 bits exist. -/
theorem maskBit_lt (m : Word) (p : Nat) (h : maskBit m p = true) : p < 32 := by
  by_contra hp
  simp [maskBit, BitVec.getLsbD_of_ge m p (by omega)] at h

/-- What a write of the mask `enabled` makes of each bit. -/
theorem isEnabled_setEnabled (s : State) (m : Word) (q : Nat) :
    (s.setEnabled m).isEnabled q = (maskBit m q && decide (q < s.cfg.npins)) := by
  simp only [State.isEnabled, setEnabled_enabled, maskBit_and_pinMask]

end Sys2Proof.Machine
end

