-- ==== Sys2Proof/Laws/Scheduler.lean ====
section
/-! SUPPORT. What each part of a `SERVICE` leaves alone: one lemma per shared operation, for all pins and fields at
once. -/

namespace Sys2Proof.Machine

theorem SchedulerKeeps.refl (s : State) : SchedulerKeeps s s := by
  constructor <;> intros <;> rfl

theorem SchedulerKeeps.trans {s t u : State} (h : SchedulerKeeps s t) (k : SchedulerKeeps t u) :
    SchedulerKeeps s u := by
  constructor
  case dutyCcys => exact fun p => (k.dutyCcys p).trans (h.dutyCcys p)
  case periodCcys => exact fun p => (k.periodCcys p).trans (h.periodCcys p)
  case autoPwm => exact fun p => (k.autoPwm p).trans (h.autoPwm p)
  case alignPhase => exact fun p => (k.alignPhase p).trans (h.alignPhase p)
  case cfg => exact k.cfg.trans h.cfg
  case arg0 => exact k.arg0.trans h.arg0
  case arg1 => exact k.arg1.trans h.arg1
  case arg2 => exact k.arg2.trans h.arg2
  case arg3 => exact k.arg3.trans h.arg3
  case cmdWordF => exact k.cmdWordF.trans h.cmdWordF
  case cmdWordI => exact k.cmdWordI.trans h.cmdWordI
  case cmdF => exact k.cmdF.trans h.cmdF
  case cmdI => exact k.cmdI.trans h.cmdI
  case phaseF => exact k.phaseF.trans h.phaseF
  case phaseI => exact k.phaseI.trans h.phaseI
  case fResult => exact k.fResult.trans h.fResult
  case iResult => exact k.iResult.trans h.iResult
  case timerRunning => exact k.timerRunning.trans h.timerRunning
  case cbRegistered => exact k.cbRegistered.trans h.cbRegistered
  case tEnabled => exact k.tEnabled.trans h.tEnabled
  case inputs => exact k.inputs.trans h.inputs
  case busData => exact k.busData.trans h.busData

/-- A write of descriptor fields other than the configured ones. -/
theorem SchedulerKeeps.modDesc (s : State) (p : Nat) (f : Desc → Desc)
    (hd : ∀ d, (f d).dutyCcys = d.dutyCcys) (hp : ∀ d, (f d).periodCcys = d.periodCcys)
    (ha : ∀ d, (f d).autoPwm = d.autoPwm) (hl : ∀ d, (f d).alignPhase = d.alignPhase) :
    SchedulerKeeps s (s.modDesc p f) := by
  constructor
  case dutyCcys => exact modDesc_keeps Desc.dutyCcys s p f hd
  case periodCcys => exact modDesc_keeps Desc.periodCcys s p f hp
  case autoPwm => exact modDesc_keeps Desc.autoPwm s p f ha
  case alignPhase => exact modDesc_keeps Desc.alignPhase s p f hl
  all_goals rfl

theorem SchedulerKeeps.setEnabled (s : State) (m : Word) : SchedulerKeeps s (s.setEnabled m) := by
  constructor <;> intros <;> rfl

theorem SchedulerKeeps.setStateBit (s : State) (p : Nat) (v : Bool) : SchedulerKeeps s (s.setStateBit p v) := by
  constructor <;> intros <;> rfl

theorem SchedulerKeeps.gpioWrite (s : State) (p : Nat) (v : Bool) : SchedulerKeeps s (s.gpioWrite p v) := by
  constructor <;> intros <;> rfl

theorem SchedulerKeeps.readNow (s : State) (n : Nat) : SchedulerKeeps s (s.readNow n) := by
  constructor <;> intros <;> simp

theorem SchedulerKeeps.enterService (s : State) : SchedulerKeeps s s.enterService := by
  constructor <;> intros <;> rfl

theorem SchedulerKeeps.leaveService (s : State) (n : Nat) : SchedulerKeeps s (s.leaveService n) := by
  constructor <;> intros <;> simp

theorem SchedulerKeeps.callback (s : State) : SchedulerKeeps s s.callback.2 := by
  constructor <;> intros <;> simp

/-! ### The fields a descriptor update keeps -/

@[simp] theorem fold_dutyCcys (d : Desc) (k : Nat) (w : Word) : (d.fold k w).dutyCcys = d.dutyCcys := by
  unfold Desc.fold; split <;> rfl

@[simp] theorem fold_periodCcys (d : Desc) (k : Nat) (w : Word) : (d.fold k w).periodCcys = d.periodCcys := by
  unfold Desc.fold; split <;> rfl

@[simp] theorem fold_autoPwm (d : Desc) (k : Nat) (w : Word) : (d.fold k w).autoPwm = d.autoPwm := by
  unfold Desc.fold; split <;> rfl

@[simp] theorem fold_alignPhase (d : Desc) (k : Nat) (w : Word) : (d.fold k w).alignPhase = d.alignPhase := by
  unfold Desc.fold; split <;> rfl

@[simp] theorem fold_mode (d : Desc) (k : Nat) (w : Word) : (d.fold k w).mode = d.mode := by
  unfold Desc.fold; split <;> rfl

@[simp] theorem nudged_dutyCcys (d : Desc) (c : Cfg) (x y z : Word) : (d.nudged c x y z).dutyCcys = d.dutyCcys := by
  unfold Desc.nudged; split <;> rfl

@[simp] theorem nudged_periodCcys (d : Desc) (c : Cfg) (x y z : Word) :
    (d.nudged c x y z).periodCcys = d.periodCcys := by
  unfold Desc.nudged; split <;> rfl

@[simp] theorem nudged_autoPwm (d : Desc) (c : Cfg) (x y z : Word) : (d.nudged c x y z).autoPwm = d.autoPwm := by
  unfold Desc.nudged; split <;> rfl

@[simp] theorem nudged_alignPhase (d : Desc) (c : Cfg) (x y z : Word) :
    (d.nudged c x y z).alignPhase = d.alignPhase := by
  unfold Desc.nudged; split <;> rfl

@[simp] theorem reschedule_dutyCcys (d : Desc) (e : Word) : (d.reschedule e).dutyCcys = d.dutyCcys := rfl
@[simp] theorem reschedule_periodCcys (d : Desc) (e : Word) : (d.reschedule e).periodCcys = d.periodCcys := rfl
@[simp] theorem reschedule_autoPwm (d : Desc) (e : Word) : (d.reschedule e).autoPwm = d.autoPwm := rfl
@[simp] theorem reschedule_alignPhase (d : Desc) (e : Word) : (d.reschedule e).alignPhase = d.alignPhase := rfl
@[simp] theorem reschedule_nextPeriodCcy (d : Desc) (e : Word) : (d.reschedule e).nextPeriodCcy = d.nextPeriodCcy := rfl
@[simp] theorem reschedule_endDutyCcy (d : Desc) (e : Word) : (d.reschedule e).endDutyCcy = d.endDutyCcy := rfl
@[simp] theorem reschedule_expiryCcy (d : Desc) (e : Word) : (d.reschedule e).expiryCcy = d.expiryCcy := rfl
@[simp] theorem reschedule_mode (d : Desc) (e : Word) : (d.reschedule e).mode = d.mode := rfl

/-! ### The phases -/

theorem SchedulerKeeps.applyRequests (s : State) : SchedulerKeeps s s.applyRequests := by
  unfold State.applyRequests
  split
  · constructor <;> intros <;> rfl
  · exact .refl s

theorem SchedulerKeeps.resolveInit (s : State) (p : Nat) (w : Word) : SchedulerKeeps s (s.resolveInit p w) := by
  unfold State.resolveInit
  refine (SchedulerKeeps.setStateBit s p false).trans (.modDesc _ _ _ ?_ ?_ ?_ ?_) <;> intro d <;>
    simp only [Desc.resolveExpiry] <;> split <;> rfl

theorem SchedulerKeeps.resolveSet (s : State) (w : Word) : SchedulerKeeps s (s.resolveSet w) := by
  unfold State.resolveSet
  split
  · exact .refl s
  · dsimp only
    split
    · exact (SchedulerKeeps.resolveInit s _ w).trans (by constructor <;> intros <;> rfl)
    · exact (SchedulerKeeps.modDesc s _ Desc.resolveExpiry (fun _ => rfl) (fun _ => rfl) (fun _ => rfl)
        (fun _ => rfl)).trans (by constructor <;> intros <;> rfl)
    · constructor <;> intros <;> rfl
    · constructor <;> intros <;> rfl

theorem SchedulerKeeps.edgeAction (s : State) (p : Nat) (now duty period : Word) (high : Bool) :
    SchedulerKeeps s (s.edgeAction p now duty period high) := by
  have pair : ∀ (f : Desc → Desc) (v : Bool), SchedulerKeeps s (s.modDesc p f) →
      SchedulerKeeps s (((s.modDesc p f).setStateBit p v).gpioWrite p v) := fun f v h =>
    (h.trans (.setStateBit _ _ _)).trans (.gpioWrite _ _ _)
  unfold State.edgeAction
  split
  · split
    · exact pair _ _ (.modDesc _ _ _ (fun _ => rfl) (fun _ => rfl) (fun _ => rfl) (fun _ => rfl))
    · unfold State.zeroDutyEdge
      apply SchedulerKeeps.modDesc <;> intro d <;> rfl
  · split
    · apply SchedulerKeeps.modDesc <;> intro d <;> rfl
    · split
      · unfold State.fullDutyTurn
        apply SchedulerKeeps.modDesc <;> intro d <;> rfl
      · exact pair _ _ (.modDesc _ _ _ (fun _ => by simp) (fun _ => by simp) (fun _ => by simp) (fun _ => by simp))

theorem SchedulerKeeps.servicePin (s : State) (p : Nat) (now : Word) : SchedulerKeeps s (s.servicePin p now) := by
  unfold State.servicePin
  dsimp only
  split
  · exact .setEnabled _ _
  · split
    · exact .modDesc _ _ _ (fun _ => rfl) (fun _ => rfl) (fun _ => rfl) (fun _ => rfl)
    · exact (SchedulerKeeps.modDesc s p _ (fun _ => by simp) (fun _ => by simp) (fun _ => by simp)
        (fun _ => by simp)).trans (.edgeAction _ _ _ _ _ _)

theorem SchedulerKeeps.visitPin (s : State) (p : Nat) : SchedulerKeeps s (s.visitPin p) := by
  unfold State.visitPin
  refine SchedulerKeeps.trans ?_ (.readNow _ _)
  split
  · exact .servicePin _ _ _
  · exact .refl s

theorem SchedulerKeeps.scanPin (timeout : Word) (a : Scan) (p : Nat) :
    SchedulerKeeps a.st (scanPin timeout a p).st := by
  unfold Machine.scanPin
  split
  · dsimp only
    split
    · exact .refl _
    · exact .visitPin _ _
  · exact .refl _

/-- A property of states that each pin of a pass keeps is kept by the whole pass. -/
theorem foldl_scanPin {P : State → Prop} (timeout : Word) (l : List Nat) (a : Scan) (h : P a.st)
    (step : ∀ a p, P a.st → P (scanPin timeout a p).st) : P (l.foldl (scanPin timeout) a).st := by
  induction l generalizing a with
  | nil => exact h
  | cons p l ih => exact ih _ (step a p h)

theorem SchedulerKeeps.scanPass (s : State) (timeout : Word) : SchedulerKeeps s (s.scanPass timeout).st :=
  foldl_scanPin (P := SchedulerKeeps s) timeout s.scanOrder _ (.refl s)
    fun a p h => h.trans (.scanPin timeout a p)

theorem SchedulerKeeps.endOfPass (s : State) (timeout : Word) : SchedulerKeeps s (s.endOfPass timeout).st := by
  unfold State.endOfPass
  dsimp only
  split
  · exact .scanPass s timeout
  · exact (SchedulerKeeps.scanPass s timeout).trans (by constructor <;> intros <;> rfl)

theorem SchedulerKeeps.spin (n : Nat) (deadline : Word) (s : State) : SchedulerKeeps s (spin n deadline s) := by
  induction n generalizing s with
  | zero => exact .refl s
  | succ n ih =>
    unfold Machine.spin
    split
    · exact (SchedulerKeeps.readNow s 1).trans (ih _)
    · exact .refl s

theorem SchedulerKeeps.askCallback (s : State) : SchedulerKeeps s s.askCallback.2 := by
  unfold State.askCallback
  split
  · exact .callback s
  · exact .refl s

/-- A property that a read, a pass and the cursor's update keep holds of the state the scan loop leaves. -/
theorem scanLoop_induct {P : State → Prop} (timeout : Word) (hend : ∀ s, P s → P (s.endOfPass timeout).st)
    (hspin : ∀ n d s, P s → P (spin n d s)) (n : Nat) (s : State) (h : P s) : P (scanLoop n timeout s).st := by
  induction n generalizing s with
  | zero => exact hend s h
  | succ n ih =>
    unfold scanLoop
    dsimp only
    split
    · exact ih _ (hspin _ _ _ (hend s h))
    · exact hend s h

end Sys2Proof.Machine
end

