-- ==== Sys2Proof/Laws/Steps.lean ====
section
/-! SUPPORT. Inversion: everything one step of the machine can do, and everything one atomic step of a command can do,
said once. -/

namespace Sys2Proof.Machine

/-! ### What a decoded word can be -/

/-- A word that decodes on port F is one of its own commands (R66). -/
theorem port_of_decode_f (w : Word) (i : Instr) (h : decode .f w = .ok i) : i.port = .f := by
  simp only [decode, selectRow, rowsF, List.find?] at h
  repeat' split at h
  all_goals cases h
  all_goals (rename_i hh; repeat' split at hh)
  all_goals first | (simp at hh; subst hh; rfl) | simp at hh

/-- A word that decodes on port I is an `ISTOP` (R68). -/
theorem port_of_decode_i (w : Word) (i : Instr) (h : decode .i w = .ok i) : i.port = .i := by
  simp only [decode, selectRow, rowsI, List.find?] at h
  repeat' split at h
  all_goals cases h
  all_goals (rename_i hh; repeat' split at hh)
  all_goals first | (simp at hh; subst hh; rfl) | simp at hh

/-- The instruction in port F's latch is one of port F's. -/
theorem port_instrF (c : LatchF) : c.instr.port = .f := by
  unfold LatchF.instr; cases c.op <;> rfl

/-! ### A step -/

/-- What an input of the environment can make of the state `u` it is performed in. The first five are the inputs that the
rules do not let happen there (log 19). -/
inductive Does (u : State) : Input → State → Prop
  | noStepF (h : u.phaseI ≠ .idle ∨ u.phaseF = .idle) : Does u .portF u
  | noStepI (h : u.phaseI = .idle) : Does u .portI u
  | noIrq (h : ¬(u.svcPending = true ∧ u.tEnabled = true)) : Does u .timerIrq u
  | noRead (c : Context) (off width : Nat) (h : u.contextRuns c = false) : Does u (.busRead c off width) u
  | noWrite (c : Context) (off width : Nat) (w : Word) (h : u.contextRuns c = false) : Does u (.busWrite c off width w) u
  | portF (h : u.phaseF ≠ .idle) (hi : u.phaseI = .idle) (he : exec u.cmdF.instr u = .next t) : Does u .portF t
  | portI (h : u.phaseI ≠ .idle) (he : exec u.cmdI.instr u = .next t) : Does u .portI t
  | service (h : u.svcPending = true) (h' : u.tEnabled = true) : Does u .timerIrq u.service
  | elapse (n : Nat) : Does u (.elapse n) (u.elapse n)
  | read (c : Context) (off width : Nat) (v : Word) : Does u (.busRead c off width) { u with busData := v }
  | storeF (c : Context) (off width : Nat) (w : Word) : Does u (.busWrite c off width w) { u with cmdWordF := w }
  | storeI (c : Context) (off width : Nat) (w : Word) : Does u (.busWrite c off width w) { u with cmdWordI := w }
  | failF (c : Context) (off width : Nat) (w : Word) (h : u.phaseF = .idle) :
    Does u (.busWrite c off width w) { u with cmdWordF := w, fResult := false }
  | failI (c : Context) (off width : Nat) (w : Word) (h : u.phaseI = .idle) :
    Does u (.busWrite c off width w) { u with cmdWordI := w, iResult := false }
  | acceptF (c : Context) (off width : Nat) (w : Word) (i : Instr) (h : u.phaseF = .idle) (hi : i.port = .f)
      (he : exec i { u with cmdWordF := w } = .next t) : Does u (.busWrite c off width w) t
  | acceptI (c : Context) (off width : Nat) (w : Word) (i : Instr) (h : u.phaseI = .idle) (hi : i.port = .i)
      (he : exec i { u with cmdWordI := w } = .next t) : Does u (.busWrite c off width w) t
  | write (c : Context) (off width : Nat) (v : Word) : Does u (.busWrite c off width v) (u.writeReg off v)
  | reset : Does u .reset u.doReset

/-- A command word written to `CMD_F`. -/
theorem does_writeCmdF (u t : State) (c : Context) (off width : Nat) (w : Word) (h : u.writeCmdF w = .next t) :
    Does u (.busWrite c off width w) t := by
  unfold State.writeCmdF at h
  dsimp only at h
  split at h
  · cases h; exact .storeF c off width w
  · next hid =>
    have hid : u.phaseF = .idle := by simpa using hid
    split at h
    · next i hi => exact .acceptF c off width w i hid (port_of_decode_f _ _ hi) h
    · cases h
      have e : ({ u with cmdWordF := w } : State).fail .f .illegalCmd = { u with cmdWordF := w, fResult := false } := by
        simp [State.fail, State.endCommand, hid]
      rw [e]; exact .failF c off width w hid

/-- A command word written to `CMD_I`. -/
theorem does_writeCmdI (u t : State) (c : Context) (off width : Nat) (w : Word) (h : u.writeCmdI w = .next t) :
    Does u (.busWrite c off width w) t := by
  unfold State.writeCmdI at h
  dsimp only at h
  split at h
  · cases h; exact .storeI c off width w
  · next hid =>
    have hid : u.phaseI = .idle := by simpa using hid
    split at h
    · next i hi => exact .acceptI c off width w i hid (port_of_decode_i _ _ hi) h
    · cases h
      have e : ({ u with cmdWordI := w } : State).fail .i .illegalCmd = { u with cmdWordI := w, iResult := false } := by
        simp [State.fail, State.endCommand, hid]
      rw [e]; exact .failI c off width w hid

/-- An access that gives a next state is one that the map has. -/
theorem busAccess_next (c : Cfg) (off width : Nat) (act : Host.Outcome State Fault Refusal) (t : State)
    (h : busAccess c off width act = .next t) : act = .next t := by
  unfold busAccess at h
  split at h
  · split at h
    · exact h
    · cases h
  · cases h

/-- Everything an input can do. -/
theorem does_of_perform (e : Input) (u t : State) (h : perform e u = .next t) : Does u e t := by
  cases e <;> simp only [perform] at h
  case portF =>
    unfold State.stepPortF at h
    split at h
    · next hc => exact .portF hc.2 hc.1 h
    · next hc => cases h; exact .noStepF (by by_cases hi : u.phaseI = .idle <;> simp_all)
  case portI =>
    unfold State.stepPortI at h
    split at h
    · next hc => exact .portI hc h
    · next hc => cases h; exact .noStepI (by simpa using hc)
  case timerIrq =>
    unfold State.takeIrq State.irqLine at h
    by_cases hc : u.svcPending = true ∧ u.tEnabled = true
    · simp only [hc, and_self, if_true, decode, exec, execService] at h
      cases h; exact .service hc.1 hc.2
    · simp only [hc, if_false, decode] at h
      simp at h; subst h; exact .noIrq hc
  case elapse n => cases h; exact .elapse n
  case busRead =>
    split at h
    · have := busAccess_next _ _ _ _ _ h
      cases this; exact .read _ _ _ _
    · next hc => cases h; exact .noRead _ _ _ (by simpa using hc)
  case busWrite =>
    split at h
    · have := busAccess_next _ _ _ _ _ h
      unfold State.doBusWrite at this
      split at this
      · exact does_writeCmdF _ _ _ _ _ _ this
      · split at this
        · exact does_writeCmdI _ _ _ _ _ _ this
        · cases this; exact .write _ _ _ _
    · next hc => cases h; exact .noWrite _ _ _ _ (by simpa using hc)
  case reset => cases h; exact .reset

/-- Everything a step can do, to the state without the input it consumed. -/
theorem does_of_step (s t : State) (h : step s = .next t) : Does s.nextInput.2 s.nextInput.1 t :=
  does_of_perform _ _ _ h

/-- Taking the next input changes nothing else. -/
theorem nextInput_eq (s : State) :
    s.nextInput.2 = { s with inputs := s.nextInput.2.inputs, draws := s.nextInput.2.draws } := by
  unfold State.nextInput
  split <;> rfl

/-! ### A command -/

/-- A command of port F: its acceptance, its next step, or nothing. -/
theorem onPortF_cases (s : State) (i : Instr) (a n : State) :
    (s.phaseF = .idle ∧ s.onPortF i a n = a) ∨ (s.phaseF ≠ .idle ∧ s.cmdF.instr = i ∧ s.onPortF i a n = n)
      ∨ (s.phaseF ≠ .idle ∧ s.cmdF.instr ≠ i ∧ s.onPortF i a n = s) := by
  unfold State.onPortF
  by_cases h : s.phaseF = .idle
  · exact .inl ⟨h, if_pos h⟩
  · by_cases h2 : s.cmdF.instr = i
    · exact .inr (.inl ⟨h, h2, by rw [if_neg h, if_pos h2]⟩)
    · exact .inr (.inr ⟨h, h2, by rw [if_neg h, if_neg h2]⟩)

/-- A command of port I: its acceptance, its next step, or nothing. -/
theorem onPortI_cases (s : State) (i : Instr) (a n : State) :
    (s.phaseI = .idle ∧ s.onPortI i a n = a) ∨ (s.phaseI ≠ .idle ∧ s.cmdI.instr = i ∧ s.onPortI i a n = n)
      ∨ (s.phaseI ≠ .idle ∧ s.cmdI.instr ≠ i ∧ s.onPortI i a n = s) := by
  unfold State.onPortI
  by_cases h : s.phaseI = .idle
  · exact .inl ⟨h, if_pos h⟩
  · by_cases h2 : s.cmdI.instr = i
    · exact .inr (.inl ⟨h, h2, by rw [if_neg h, if_pos h2]⟩)
    · exact .inr (.inr ⟨h, h2, by rw [if_neg h, if_neg h2]⟩)

/-- The next step of the start in the latch. -/
theorem exec_start (s : State) (i : Instr) (hi : i.isStart = true) (hl : s.cmdF.instr = i) (hb : s.phaseF ≠ .idle) :
    exec i s = .next s.startStep := by
  cases i <;> simp [Instr.isStart] at hi <;> simp [exec, execStartUs, execStartCcy, State.onPortF, hl, hb]

/-- The next step of the stop in port F's latch. -/
theorem exec_stop (s : State) (pin : Byte) (k : StopStep) (hk : s.phaseF = .t k) (hl : s.cmdF.instr = .stop pin) :
    exec (.stop pin) s = .next (s.stopStep .f k) := by
  simp [exec, execStop, State.onPortF, hk, hl, State.stopStepF]

/-- The next step of the stop in port I's latch. -/
theorem exec_istop (s : State) (pin : Byte) (k : StopStep) (hk : s.phaseI = .t k) (hl : s.cmdI.pin = pin) :
    exec (.istop pin) s = .next (s.stopStep .i k) := by
  simp [exec, execIstop, State.onPortI, hk, LatchI.instr, hl, State.stopStepI]

/-- The next step of the `SETCB` in the latch. -/
theorem exec_setcb (s : State) (en : Bool) (hb : s.phaseF ≠ .idle) (hl : s.cmdF.instr = .setcb en) :
    exec (.setcb en) s = .next s.setcbStep := by
  simp [exec, execSetcb, State.onPortF, hb, hl]

/-- The pin of a latched stop. -/
theorem pin_of_instr_stop (c : LatchF) (pin : Byte) (h : c.instr = .stop pin) : c.op = .stop ∧ c.pin = pin := by
  unfold LatchF.instr at h
  cases hc : c.op <;> simp [hc] at h
  exact ⟨rfl, h⟩

/-- The bit of a latched `SETCB`. -/
theorem en_of_instr_setcb (c : LatchF) (en : Bool) (h : c.instr = .setcb en) : c.op = .setcb ∧ c.en = en := by
  unfold LatchF.instr at h
  cases hc : c.op <;> simp [hc] at h
  exact ⟨rfl, h⟩

/-- A read of the counter takes `n` cycles, at least `least` and not more than any that R181 (c) allows, and changes
nothing else but which draw comes next (R172, R181). -/
theorem readNow_eq (s : State) (least : Nat) : ∃ n : Nat, least ≤ n ∧ n < least + 2 ^ 31 ∧
    s.readNow least = { s with
      ccount := s.ccount + BitVec.ofNat 32 n
      delays := (s.readNow least).delays
      draws := (s.readNow least).draws } := by
  unfold State.readNow State.drawDelay
  cases s.delays with
  | nil => exact ⟨least + (Config.freeDelay s.draws).toNat, by omega, by have := (Config.freeDelay s.draws).isLt; omega, rfl⟩
  | cons d r => exact ⟨least + d.toNat, by omega, by have := d.isLt; omega, rfl⟩

/-- The return from a `SERVICE` arms the timer `n` cycles after an instant at or after the last read, and changes nothing
else but which draw comes next (R161, R183). -/
theorem leaveService_eq (s : State) (n : Nat) : ∃ m : Nat, m < 2 ^ 31 ∧
    s.leaveService n = { s with
      ccount := s.ccount + BitVec.ofNat 32 m
      tArmed := true
      tFireAt := s.ccount + BitVec.ofNat 32 m + BitVec.ofNat 32 n
      delays := (s.leaveService n).delays
      draws := (s.leaveService n).draws } := by
  obtain ⟨m, _, h, e⟩ := readNow_eq s 0
  refine ⟨m, by omega, ?_⟩
  unfold State.leaveService State.timerWrite
  conv_lhs => rw [e]

/-- The callback gives the next reply, or any other when none is given, and changes nothing else but the record and which
reply and draw come next (R187). -/
theorem callback_eq (s : State) :
    s.callback.2 = { s with
      trace := .callback s.callback.1 :: s.trace
      replies := s.callback.2.replies
      draws := s.callback.2.draws }
    ∧ (∀ r rest, s.replies = r :: rest → s.callback.1 = r ∧ s.callback.2.replies = rest)
    ∧ (s.replies = [] → s.callback.2.replies = []) := by
  unfold State.callback
  cases s.replies with
  | nil => exact ⟨rfl, nofun, fun _ => rfl⟩
  | cons r rest => exact ⟨rfl, fun _ _ h => ⟨(List.cons.inj h).1, (List.cons.inj h).2⟩, nofun⟩

/-- The kick re-arms a timer that is further away than `KICK_CCYS`, and else does nothing (R89, R104). -/
theorem kick_cases (s : State) :
    (s.cfg.kickCcys < s.timerRemaining ∧ s.tArmed = true
        ∧ s.kick = { s with tArmed := true, tFireAt := s.ccount + BitVec.ofNat 32 s.cfg.kickCcys })
      ∨ (s.timerRemaining ≤ s.cfg.kickCcys ∧ s.kick = s) := by
  unfold State.kick
  by_cases h : s.cfg.kickCcys < s.timerRemaining
  · refine .inl ⟨h, ?_, if_pos h⟩
    by_contra ha
    simp [State.timerRemaining, ha] at h
  · exact .inr ⟨by omega, if_neg h⟩

end Sys2Proof.Machine
end

