-- ==== Sys2Proof/Laws/Runs.lean ====
section
/-! SUPPORT. What one step of a run does, and what a whole `SERVICE` leaves of the ports and the slots. -/

namespace Sys2Proof.Machine

/-! ### A whole `SERVICE`, seen from the ports -/

/-- The request slots and the phases, which the scan and the re-arm leave alone. -/
structure PortsKept (s t : State) : Prop where
  phaseF : t.phaseF = s.phaseF
  phaseI : t.phaseI = s.phaseI
  toSet : t.toSet = s.toSet
  toDisable : t.toDisable = s.toDisable

theorem PortsKept.refl (s : State) : PortsKept s s := ⟨rfl, rfl, rfl, rfl⟩

theorem PortsKept.trans {s t u : State} (h : PortsKept s t) (k : PortsKept t u) : PortsKept s u :=
  ⟨k.1.trans h.1, k.2.trans h.2, k.3.trans h.3, k.4.trans h.4⟩

theorem PortsKept.readNow (s : State) (n : Nat) : PortsKept s (s.readNow n) := by
  constructor <;> simp

theorem PortsKept.edgeAction (s : State) (p : Nat) (now duty period : Word) (high : Bool) :
    PortsKept s (s.edgeAction p now duty period high) := by
  unfold State.edgeAction
  split_ifs <;> exact ⟨rfl, rfl, rfl, rfl⟩

theorem PortsKept.servicePin (s : State) (p : Nat) (now : Word) : PortsKept s (s.servicePin p now) := by
  unfold State.servicePin
  dsimp only
  split_ifs
  · exact ⟨rfl, rfl, rfl, rfl⟩
  · exact ⟨rfl, rfl, rfl, rfl⟩
  · exact PortsKept.trans (t := s.modDesc p _) ⟨rfl, rfl, rfl, rfl⟩ (.edgeAction _ _ _ _ _ _)

theorem PortsKept.scanPin (timeout : Word) (a : Scan) (p : Nat) : PortsKept a.st (scanPin timeout a p).st := by
  unfold Machine.scanPin
  split
  · dsimp only
    split
    · exact .refl _
    · unfold State.visitPin
      refine PortsKept.trans ?_ (.readNow _ _)
      split
      · exact .servicePin _ _ _
      · exact .refl _
  · exact .refl _

theorem PortsKept.endOfPass (s : State) (timeout : Word) : PortsKept s (s.endOfPass timeout).st := by
  have h : PortsKept s (s.scanPass timeout).st :=
    foldl_scanPin (P := PortsKept s) timeout s.scanOrder _ (.refl s) fun a p h => h.trans (.scanPin timeout a p)
  unfold State.endOfPass
  dsimp only
  split
  · exact h
  · exact h.trans ⟨rfl, rfl, rfl, rfl⟩

theorem PortsKept.spin (n : Nat) (deadline : Word) (s : State) : PortsKept s (spin n deadline s) := by
  induction n generalizing s with
  | zero => exact .refl s
  | succ n ih =>
    unfold Machine.spin
    split
    · exact (PortsKept.readNow s 1).trans (ih _)
    · exact .refl s

theorem PortsKept.scanLoop (n : Nat) (timeout : Word) (s : State) : PortsKept s (scanLoop n timeout s).st :=
  scanLoop_induct (P := PortsKept s) timeout (fun _ h => h.trans (.endOfPass _ _)) (fun _ _ _ h => h.trans (.spin _ _ _))
    n s (.refl s)

theorem PortsKept.rearm (s : State) (deadline : Word) : PortsKept s (s.rearm deadline) := by
  unfold State.rearm State.askCallback
  dsimp only
  split <;> constructor <;> simp

/-- The requests' part of a `SERVICE` empties both slots and leaves the phases alone (R122, R128). -/
theorem requests_consumed (s : State) (isrStart : Word) :
    PortsKept { s with toSet := pinNone, toDisable := pinNone } (s.applyRequests.resolveSet isrStart) := by
  have h1 : s.applyRequests.toDisable = pinNone := by
    unfold State.applyRequests
    split
    · rfl
    · next h => simp only [not_or, ne_eq, not_not] at h; exact h.2
  have h2 : ∀ u : State, PortsKept { u with toSet := pinNone } (u.resolveSet isrStart) := by
    intro u
    unfold State.resolveSet
    split
    · next h => exact ⟨rfl, rfl, h, rfl⟩
    · dsimp only
      split <;> exact ⟨rfl, rfl, rfl, rfl⟩
  have h3 : s.applyRequests.phaseF = s.phaseF ∧ s.applyRequests.phaseI = s.phaseI := by
    unfold State.applyRequests
    split <;> exact ⟨rfl, rfl⟩
  exact PortsKept.trans (t := { s.applyRequests with toSet := pinNone }) ⟨h3.1, h3.2, rfl, h1⟩ (h2 _)

/-- After a whole `SERVICE` both slots read `NONE`, and the phases are as before it. -/
theorem service_ports (s : State) : PortsKept { s with toSet := pinNone, toDisable := pinNone } s.service := by
  unfold State.service State.beginService
  dsimp only
  refine PortsKept.trans ?_ ((PortsKept.scanLoop _ _ _).trans (.rearm _ _))
  refine PortsKept.trans ?_ ((requests_consumed _ _).trans (.readNow _ 1))
  constructor <;> simp

/-! ### A step of a run -/

/-- The step of a run performs the input that the environment gives. -/
theorem run_perform {e : Nat → Input} {r : Nat → State} (h : RunOf e r) (n : Nat) :
    perform (e n) (r n) = .next (r (n + 1)) := h n

/-- Everything a step of a run can do. -/
theorem run_does {e : Nat → Input} {r : Nat → State} (h : RunOf e r) (n : Nat) :
    Does (r n) (e n) (r (n + 1)) :=
  does_of_perform _ _ _ (run_perform h n)

/-- A `SERVICE` that starts is the next step of the run. -/
theorem run_service {e : Nat → Input} {r : Nat → State} (h : RunOf e r) (n : Nat) (hs : (r n).serviceStarts (e n)) :
    r (n + 1) = (r n).service := by
  have hn := run_perform h n
  obtain ⟨he, hp, ht⟩ := hs
  simp only [he, perform, State.takeIrq, State.irqLine, hp, ht, and_self, if_true, decode, exec, execService] at hn
  exact (Host.Outcome.next.inj hn).symm

/-! ### A fair environment -/

/-- A port's next step stays enabled while its port and the other stay as they are and no slot is filled (R88, R91, R103,
R105). -/
theorem ready_of {s t : State} (hF : t.phaseF = s.phaseF) (hI : t.phaseI = s.phaseI)
    (hS : s.toSet = pinNone → t.toSet = pinNone) (hD : s.toDisable = pinNone → t.toDisable = pinNone) :
    (s.readyF = true → t.readyF = true) ∧ (s.readyI = true → t.readyI = true) := by
  have g : ∀ k, s.stopGuard k = true → t.stopGuard k = true := by
    intro k
    cases k <;> simp [State.stopGuard] <;> exact hD
  unfold State.readyF State.readyI
  rw [hF, hI]
  constructor
  · cases s.phaseF <;> simp_all
  · cases s.phaseI <;> simp_all

/-- The environment that gives time, the interrupt and the two ports a turn, one after another. -/
def roundRobin (n : Nat) : Input :=
  match n % 4 with
  | 0 => .elapse 1
  | 1 => .timerIrq
  | 2 => .portI
  | _ => .portF

/-- The run of the machine from `s` in the environment `e`, which stands still where a step stops. -/
def runFrom (e : Nat → Input) (s : State) : Nat → State
  | 0 => s
  | n + 1 =>
    match perform (e n) (runFrom e s n) with
    | .next t => t
    | _ => runFrom e s n

/-- No instruction stops the machine (R167). -/
theorem exec_next (i : Instr) (s : State) : ∃ t, exec i s = .next t := by
  cases i <;> exact ⟨_, rfl⟩

/-- No turn of the round robin stops the machine, and a turn other than a port's own leaves that port's next step enabled
(R122, R128, R171). -/
theorem roundRobin_turn (n : Nat) (s : State) : ∃ t, perform (roundRobin n) s = .next t
    ∧ (roundRobin n ≠ .portF → s.readyF = true → t.readyF = true)
    ∧ (roundRobin n ≠ .portI → s.readyI = true → t.readyI = true) := by
  have same : ∀ t : State, t = s → (s.readyF = true → t.readyF = true) ∧ (s.readyI = true → t.readyI = true) := by
    rintro _ rfl
    exact ⟨id, id⟩
  generalize he : roundRobin n = e
  have hcases : e = .elapse 1 ∨ e = .timerIrq ∨ e = .portI ∨ e = .portF := by
    rw [← he]
    unfold roundRobin
    split <;> simp
  have both : ∀ t, perform e s = .next t →
      ((s.readyF = true → t.readyF = true) ∧ (s.readyI = true → t.readyI = true)) →
      ∃ t, perform e s = .next t ∧ (e ≠ .portF → s.readyF = true → t.readyF = true)
        ∧ (e ≠ .portI → s.readyI = true → t.readyI = true) :=
    fun t h k => ⟨t, h, fun _ => k.1, fun _ => k.2⟩
  have hI : ∀ {u : State}, u.readyF = true → u.phaseI = .idle := by
    intro u h
    simp only [State.readyF, Bool.and_eq_true, decide_eq_true_eq] at h
    exact h.1
  rcases hcases with rfl | rfl | rfl | rfl
  · refine both _ rfl (ready_of ?_ ?_ ?_ ?_) <;> simp
  · by_cases hp : s.svcPending = true ∧ s.tEnabled = true
    · have h : perform .timerIrq s = .next s.service := by
        simp only [perform, State.takeIrq, State.irqLine, hp.1, hp.2, and_self, if_true, decode, exec, execService]
      have k := service_ports s
      exact both _ h (ready_of k.phaseF k.phaseI (fun _ => k.toSet) fun _ => k.toDisable)
    · have h : perform .timerIrq s = .next s := by
        simp only [perform, State.takeIrq, State.irqLine, if_neg hp, decode]
        rfl
      exact both s h (same s rfl)
  · by_cases hb : s.phaseI ≠ .idle
    · obtain ⟨t, h⟩ := exec_next s.cmdI.instr s
      exact ⟨t, (if_pos hb).trans h, fun _ h => absurd (hI h) hb, fun h => absurd rfl h⟩
    · exact both s (if_neg hb) (same s rfl)
  · by_cases hb : s.phaseI = .idle ∧ s.phaseF ≠ .idle
    · obtain ⟨t, h⟩ := exec_next s.cmdF.instr s
      refine ⟨t, (if_pos hb).trans h, fun h => absurd rfl h, fun _ h => ?_⟩
      simp [State.readyI, hb.1] at h
    · exact both s (if_neg hb) (same s rfl)

/-- No input of the round robin stops the machine. -/
theorem roundRobin_runs (s : State) : RunOf roundRobin (runFrom roundRobin s) := by
  intro n
  show perform (roundRobin n) (runFrom roundRobin s n) = .next (runFrom roundRobin s (n + 1))
  obtain ⟨t, h, _⟩ := roundRobin_turn n (runFrom roundRobin s n)
  rw [h, runFrom, h]

/-- A step that is enabled and stays so until its turn is taken at its turn. -/
theorem fairPort_of_turn {e : Nat → Input} {ready : Nat → Bool} {takes : Input} (h : ∀ n, ∃ m, n ≤ m ∧ e m = takes)
    (hk : ∀ n, e n ≠ takes → ready n = true → ready (n + 1) = true) : FairPort e ready takes := by
  intro n hn
  obtain ⟨m, hm, he⟩ := h n
  induction hd : m - n generalizing n with
  | zero =>
    have : m = n := by omega
    subst this
    exact ⟨m, hm, .inl ⟨he, hn⟩⟩
  | succ d ih =>
    by_cases ht : e n = takes
    · exact ⟨n, le_refl n, .inl ⟨ht, hn⟩⟩
    · obtain ⟨k, hk', h'⟩ := ih (n + 1) (hk n ht hn) (by omega) (by omega)
      exact ⟨k, by omega, h'⟩

/-- The assumptions of R188 can be met from every state: the round robin is fair. -/
theorem roundRobin_fair (s : State) : Fair roundRobin (runFrom roundRobin s) := by
  have turn : ∀ (k : Nat) (a : Input), (∀ m, m % 4 = k → roundRobin m = a) → k < 4 →
      ∀ n, ∃ m, n ≤ m ∧ roundRobin m = a :=
    fun k _ h hk n => ⟨4 * n + k, by omega, h _ (by omega)⟩
  have time := turn 0 (.elapse 1) (fun m h => by simp [roundRobin, h]) (by omega)
  have irq := turn 1 .timerIrq (fun m h => by simp [roundRobin, h]) (by omega)
  have portI := turn 2 .portI (fun m h => by simp [roundRobin, h]) (by omega)
  have portF := turn 3 .portF (fun m h => by simp [roundRobin, h]) (by omega)
  have keeps : ∀ n, ∃ t, runFrom roundRobin s (n + 1) = t
      ∧ (roundRobin n ≠ .portF → (runFrom roundRobin s n).readyF = true → t.readyF = true)
      ∧ (roundRobin n ≠ .portI → (runFrom roundRobin s n).readyI = true → t.readyI = true) := by
    intro n
    obtain ⟨t, h, hF, hI⟩ := roundRobin_turn n (runFrom roundRobin s n)
    exact ⟨t, by rw [runFrom, h], hF, hI⟩
  refine ⟨fun n _ => irq n, fun n => ?_, fairPort_of_turn portF fun n h k => ?_,
    fairPort_of_turn portI fun n h k => ?_⟩
  · obtain ⟨m, hm, he⟩ := time n
    exact ⟨m, 1, hm, by omega, he⟩
  · obtain ⟨t, ht, hF, _⟩ := keeps n
    rw [ht]
    exact hF h k
  · obtain ⟨t, ht, _, hI⟩ := keeps n
    rw [ht]
    exact hI h k

end Sys2Proof.Machine
end

