-- ==== Sys2Proof/Laws/Timer.lean ====
section
/-! SUPPORT. What a command can do to the timer: nothing, a kick, or the start or the end of the timer subsystem. -/

namespace Sys2Proof.Machine

/-- The timer, the lifecycle bit, the counter, the mask `enabled` and the configuration are the same. -/
structure SameTimer (s t : State) : Prop where
  tEnabled : t.tEnabled = s.tEnabled
  tArmed : t.tArmed = s.tArmed
  svcPending : t.svcPending = s.svcPending
  tFireAt : t.tFireAt = s.tFireAt
  timerRunning : t.timerRunning = s.timerRunning
  ccount : t.ccount = s.ccount
  enabled : t.enabled = s.enabled
  cfg : t.cfg = s.cfg

theorem SameTimer.refl (s : State) : SameTimer s s := ⟨rfl, rfl, rfl, rfl, rfl, rfl, rfl, rfl⟩

/-- What one step of a command makes of the timer (R89, R104, R106, R110 to R112). -/
inductive TimerMove (s t : State) : Prop
  | same (h : SameTimer s t)
  | kick (hk : s.cfg.kickCcys < s.timerRemaining) (ha : s.tArmed = true)
      (h : SameTimer { s with tArmed := true, tFireAt := s.ccount + BitVec.ofNat 32 s.cfg.kickCcys } t)
  | init (hr : s.timerRunning = false) (h : SameTimer s.initTimer t)
  | deinit (he : s.enabled = 0#32) (h : SameTimer s.deinitTimer t)

theorem TimerMove.refl (s : State) : TimerMove s s := .same (.refl s)

/-- What follows a move of the timer without touching it is part of the same move. -/
theorem TimerMove.andSame {s t u : State} (h : TimerMove s t) (k : SameTimer t u) : TimerMove s u := by
  have tr : ∀ {a : State}, SameTimer a t → SameTimer a u := fun m =>
    ⟨k.1.trans m.1, k.2.trans m.2, k.3.trans m.3, k.4.trans m.4, k.5.trans m.5, k.6.trans m.6, k.7.trans m.7,
      k.8.trans m.8⟩
  cases h with
  | same h => exact .same (tr h)
  | kick hk ha h => exact .kick hk ha (tr h)
  | init hr h => exact .init hr (tr h)
  | deinit he h => exact .deinit he (tr h)

theorem kick_timer (s : State) : TimerMove s s.kick := by
  rcases kick_cases s with ⟨hk, ha, he⟩ | ⟨_, he⟩
  · rw [he]; exact .kick hk ha (.refl _)
  · rw [he]; exact .refl s

theorem startStep_timer (s : State) : TimerMove s s.startStep := by
  have keep : ∀ t : State, SameTimer s t → TimerMove s t := fun _ => .same
  unfold State.startStep
  dsimp only
  split <;> try exact keep _ ⟨rfl, rfl, rfl, rfl, rfl, rfl, rfl, rfl⟩
  · unfold State.stepValidate
    split <;> exact keep _ ⟨rfl, rfl, rfl, rfl, rfl, rfl, rfl, rfl⟩
  · split <;> exact keep _ ⟨rfl, rfl, rfl, rfl, rfl, rfl, rfl, rfl⟩
  · unfold State.publishSet
    split <;> exact keep _ ⟨rfl, rfl, rfl, rfl, rfl, rfl, rfl, rfl⟩
  · unfold State.ensureTimer
    split
    · exact (kick_timer s).andSame ⟨rfl, rfl, rfl, rfl, rfl, rfl, rfl, rfl⟩
    · next h => exact .init (by simpa using h) ⟨rfl, rfl, rfl, rfl, rfl, rfl, rfl, rfl⟩
  · unfold State.awaitSet
    split <;> exact keep _ ⟨rfl, rfl, rfl, rfl, rfl, rfl, rfl, rfl⟩
  · unfold State.publishSet
    split <;> exact keep _ ⟨rfl, rfl, rfl, rfl, rfl, rfl, rfl, rfl⟩
  · unfold State.awaitSet
    split <;> exact keep _ ⟨rfl, rfl, rfl, rfl, rfl, rfl, rfl, rfl⟩

theorem stopStep_timer (s : State) (port : CmdPort) (k : StopStep) : TimerMove s (s.stopStep port k) := by
  have keep : ∀ t : State, SameTimer s t → TimerMove s t := fun _ => .same
  unfold State.stopStep
  split
  · split <;> cases port <;> exact keep _ ⟨rfl, rfl, rfl, rfl, rfl, rfl, rfl, rfl⟩
  · cases port <;> exact keep _ ⟨rfl, rfl, rfl, rfl, rfl, rfl, rfl, rfl⟩
  · split <;> cases port <;> exact keep _ ⟨rfl, rfl, rfl, rfl, rfl, rfl, rfl, rfl⟩
  · cases port <;> exact (kick_timer s).andSame ⟨rfl, rfl, rfl, rfl, rfl, rfl, rfl, rfl⟩
  · split <;> cases port <;> exact keep _ ⟨rfl, rfl, rfl, rfl, rfl, rfl, rfl, rfl⟩
  · split
    · next h => cases port <;> exact .deinit h.1 ⟨rfl, rfl, rfl, rfl, rfl, rfl, rfl, rfl⟩
    · cases port <;> exact keep _ ⟨rfl, rfl, rfl, rfl, rfl, rfl, rfl, rfl⟩

theorem setcbStep_timer (s : State) : TimerMove s s.setcbStep := by
  unfold State.setcbStep
  split
  · exact .same ⟨rfl, rfl, rfl, rfl, rfl, rfl, rfl, rfl⟩
  · unfold State.callbackLifecycle
    split
    · next h => exact .init h.1 ⟨rfl, rfl, rfl, rfl, rfl, rfl, rfl, rfl⟩
    · split
      · next h => exact .deinit h.2.2 ⟨rfl, rfl, rfl, rfl, rfl, rfl, rfl, rfl⟩
      · exact .same ⟨rfl, rfl, rfl, rfl, rfl, rfl, rfl, rfl⟩
  · exact .refl s

/-- What one step of a command, or its acceptance, makes of the timer. -/
theorem exec_timer (i : Instr) (s t : State) (hi : i ≠ .service) (h : exec i s = .next t) : TimerMove s t := by
  have onF : ∀ a n : State, SameTimer s a → TimerMove s n → TimerMove s (s.onPortF i a n) := by
    intro a n ha hn
    rcases onPortF_cases s i a n with ⟨_, e⟩ | ⟨_, _, e⟩ | ⟨_, _, e⟩ <;> rw [e]
    exacts [.same ha, hn, .refl s]
  cases i with
  | service => exact absurd rfl hi
  | startUs a l p =>
    simp only [exec, execStartUs] at h; cases h
    exact onF _ _ ⟨rfl, rfl, rfl, rfl, rfl, rfl, rfl, rfl⟩ (startStep_timer s)
  | startCcy a l p =>
    simp only [exec, execStartCcy] at h; cases h
    exact onF _ _ ⟨rfl, rfl, rfl, rfl, rfl, rfl, rfl, rfl⟩ (startStep_timer s)
  | stop p =>
    simp only [exec, execStop] at h; cases h
    refine onF _ _ ⟨rfl, rfl, rfl, rfl, rfl, rfl, rfl, rfl⟩ ?_
    unfold State.stopStepF
    split
    exacts [stopStep_timer _ _ _, .refl s]
  | setcb en =>
    simp only [exec, execSetcb] at h; cases h
    exact onF _ _ ⟨rfl, rfl, rfl, rfl, rfl, rfl, rfl, rfl⟩ (setcbStep_timer s)
  | istop p =>
    simp only [exec, execIstop] at h; cases h
    rcases onPortI_cases s (.istop p) (s.acceptIstop p) s.stopStepI with ⟨_, e⟩ | ⟨_, _, e⟩ | ⟨_, _, e⟩ <;> rw [e]
    · exact .same ⟨rfl, rfl, rfl, rfl, rfl, rfl, rfl, rfl⟩
    · unfold State.stopStepI
      split
      exacts [stopStep_timer _ _ _, .refl s]
    · exact .refl s

/-- What a step makes of the timer, a `SERVICE`, the passing of time and a reset apart. -/
theorem does_timer (e : Input) (s t : State) (h : Does s e t) :
    TimerMove s t ∨ (t = s.service ∧ s.serviceStarts e) ∨ (∃ n, e = .elapse n ∧ t = s.elapse n)
      ∨ (e = .reset ∧ t = s.doReset) := by
  cases h with
  | noStepF | noStepI | noIrq | noRead | noWrite => exact .inl (.refl s)
  | portF _ _ he =>
    refine .inl (exec_timer _ _ _ ?_ he)
    intro hc
    have := port_instrF s.cmdF
    rw [hc] at this; cases this
  | portI _ he => exact .inl (exec_timer _ _ _ (by simp [LatchI.instr]) he)
  | service h h' => exact .inr (.inl ⟨rfl, rfl, h, h'⟩)
  | elapse n => exact .inr (.inr (.inl ⟨n, rfl, rfl⟩))
  | read | storeF | storeI | failF | failI => exact .inl (.same ⟨rfl, rfl, rfl, rfl, rfl, rfl, rfl, rfl⟩)
  | acceptF c off width w i h hi he =>
    have hn : i ≠ .service := by intro hc; rw [hc] at hi; cases hi
    refine .inl ?_
    cases exec_timer _ _ _ hn he with
    | same h => exact .same ⟨h.1, h.2, h.3, h.4, h.5, h.6, h.7, h.8⟩
    | kick hk ha h => exact .kick hk ha ⟨h.1, h.2, h.3, h.4, h.5, h.6, h.7, h.8⟩
    | init hr h => exact .init hr ⟨h.1, h.2, h.3, h.4, h.5, h.6, h.7, h.8⟩
    | deinit he h => exact .deinit he ⟨h.1, h.2, h.3, h.4, h.5, h.6, h.7, h.8⟩
  | acceptI c off width w i h hi he =>
    have hn : i ≠ .service := by intro hc; rw [hc] at hi; cases hi
    refine .inl ?_
    cases exec_timer _ _ _ hn he with
    | same h => exact .same ⟨h.1, h.2, h.3, h.4, h.5, h.6, h.7, h.8⟩
    | kick hk ha h => exact .kick hk ha ⟨h.1, h.2, h.3, h.4, h.5, h.6, h.7, h.8⟩
    | init hr h => exact .init hr ⟨h.1, h.2, h.3, h.4, h.5, h.6, h.7, h.8⟩
    | deinit he h => exact .deinit he ⟨h.1, h.2, h.3, h.4, h.5, h.6, h.7, h.8⟩
  | write => unfold State.writeReg; split <;> exact .inl (.same ⟨rfl, rfl, rfl, rfl, rfl, rfl, rfl, rfl⟩)
  | reset => exact .inr (.inr (.inr ⟨rfl, rfl⟩))

end Sys2Proof.Machine
end

