-- ==== Sys2Proof/Tests/Slice0.lean ====
section
/-! SUPPORT. Tests of the model against the vectors of spec/95_test_vectors.md, and for every statement with hypotheses
a state and operands that meet them, clause by clause. -/

namespace Sys2Proof.Tests

open Sys2Proof Sys2Proof.Machine

/-! ### States -/

/-- A reset block with the configuration CFG-S. -/
def blank : State := State.resetWith Config.cfgS 0#32 0#32

/-- A latch of port F that holds `START_CCY pin=2`, validated with duty 300 and period 1000. -/
def startLatch : LatchF := { blank.cmdF with op := .startCcy, pin := 2#8, high := 300#32, low := 700#32, duty := 300#32, period := 1000#32 }

/-- Port F at a phase of `START_CCY pin=2`. -/
def atStart (k : PhaseF) : State := { blank with cmdF := startLatch, phaseF := k }

/-- Port F and port I at a step of a stop of pin 2. -/
def atStop (k : StopStep) : State :=
  { blank with
    timerRunning := true, tEnabled := true
    cmdF := { blank.cmdF with op := .stop, pin := 2#8 }, phaseF := .t k, cmdI := { pin := 2#8, live := false }, phaseI := .t k }

/-- Pin 2 enabled and high, due at 1000 for its falling edge, duty 300 and period 1000, the counter at 1000. -/
def running : State :=
  let s : State := { blank with
    enabled := 4#32, states := 4#32, firstPin := 2#8, lastPin := 2#8, timerRunning := true, tEnabled := true
    svcPending := true, ccount := 1000#32, delays := [2000, 0, 0, 0, 0, 0] }
  s.setDesc 2 ⟨1000#32, 1700#32, 1000#32, 300#32, 1000#32, 0#32, .infinite, pinNone, false⟩

/-! ### WellFormed: a refused term for each port -/

theorem test_start_us_is_ill_formed_on_port_i : ¬(Instr.startUs false 0xFF#8 5#8).WellFormedOn .i := by decide
theorem test_start_ccy_is_ill_formed_on_port_i : ¬(Instr.startCcy false 0xFF#8 5#8).WellFormedOn .i := by decide
theorem test_stop_is_ill_formed_on_port_i : ¬(Instr.stop 5#8).WellFormedOn .i := by decide
theorem test_setcb_is_ill_formed_on_port_i : ¬(Instr.setcb true).WellFormedOn .i := by decide
theorem test_istop_is_ill_formed_on_port_f : ¬(Instr.istop 5#8).WellFormedOn .f := by decide
theorem test_service_is_ill_formed_on_port_f : ¬Instr.service.WellFormedOn .f := by decide
theorem test_stop_is_well_formed_on_port_f : (Instr.stop 5#8).WellFormedOn .f := by decide

/-! ### Decoding: words written out from the formats of R61 (V-ENC) -/

/-- V-ENC 1, bit by bit: reserved 7, autoPwm, align 8, pin 8, reserved 4, opcode 1. -/
theorem test_decode_start_us : decode .f 0b0000000_0_11111111_00000101_0000_0001#32 = .ok (.startUs false 0xFF#8 5#8) := by
  decide
/-- V-ENC 5. -/
theorem test_decode_start_ccy : decode .f 0b0000000_1_11111111_00000011_0000_0010#32 = .ok (.startCcy true 0xFF#8 3#8) := by
  decide
/-- V-ENC 15. -/
theorem test_decode_stop : decode .f 0b0000000000000000_11111111_0000_0011#32 = .ok (.stop 255#8) := by decide
/-- V-ENC 10. -/
theorem test_decode_setcb : decode .f 0b00000000000000000000000_1_0000_0100#32 = .ok (.setcb true) := by decide
/-- V-ENC 22. -/
theorem test_decode_istop : decode .i 0b0000000000000000_00000101_0000_0011#32 = .ok (.istop 5#8) := by decide
theorem test_decode_service : decode .irq 1#32 = .ok .service := by decide
/-- V-ENC 16 to 21. -/
theorem test_decode_illegal_f : [0#32, 5#32, 15#32, 0x02000001#32, 0x11#32, 0x00010003#32, 0x00000204#32].map (decode .f)
    = List.replicate 7 (.error .illegalOnPortF) := by decide
/-- V-ENC 23. -/
theorem test_decode_illegal_i : [0x104#32, 0x00FF0502#32].map (decode .i) = List.replicate 2 (.error .illegalOnPortI) := by
  decide
/-- V-ENC 1, 5, 7, 9, 10, from the other side. -/
theorem test_encode : [encode (.startUs false 0xFF#8 5#8), encode (.startCcy true 0xFF#8 3#8), encode (.stop 5#8),
    encode (.istop 1#8), encode (.setcb true)] = [0x00FF0501#32, 0x01FF0302#32, 0x503#32, 0x103#32, 0x104#32] := by decide
theorem test_decodeTableWord : decodeTableWord 32 0x503 = some (.stop 5#8) ∧ decodeTableWord 8 1 = some .service
    ∧ decodeTableWord 32 5 = none := by decide
/-- The instruction placed by `withFetchWord` is what the next step runs. -/
theorem test_withFetchWord : step (State.reset.withFetchWord 32 0x503)
    = exec (.stop 5#8) { State.reset with cmdWordF := 0x503#32 } := by rfl
theorem test_withFetchWord_service : step (State.reset.withFetchWord 8 1)
    = exec .service { State.reset with svcPending := true, tEnabled := true } := by rfl

/-- The example of R71, and `PWM` of V-ENC 5. -/
theorem test_line : (Line.startCcy 5#8 40000#32 40000#32 0#32 none 0#32 false).inputs 0#32
      = [writeWord 4 0x9C40#32, writeWord 8 0x9C40#32, writeWord 12 0#32, writeWord 16 0#32, writeWord 0 0x00FF0502#32]
    ∧ (Line.pwm 3#8 750#32 1000#32).inputs 0#32
      = [writeWord 4 0x2EE#32, writeWord 8 0xFA#32, writeWord 12 0#32, writeWord 16 0#32, writeWord 0 0x01FF0302#32] := by
  decide

/-! ### Stored encodings (V-ENC 24 to 30) and arithmetic (V-CMP) -/

theorem test_ctrl : ({ Desc.unwritten with mode := .init, alignPhase := 5#8, autoPwm := false } : Desc).ctrlWord = 0x503#32
    ∧ ({ Desc.unwritten with mode := .expires, alignPhase := pinNone, autoPwm := true } : Desc).ctrlWord = 0x1FF01#32 := by
  decide
theorem test_req_scan : ({ blank with toSet := 6#8 } : State).reqWord = 0xFF06#32
    ∧ ({ blank with firstPin := 5#8, lastPin := 6#8, cursor := 5#8 } : State).scanWord = 0x050605#32 := by decide
theorem test_status : ({ blank with fResult := true, timerRunning := true } : State).statusWord = 0x102#32
    ∧ ({ atStart .f12 with timerRunning := true } : State).statusWord = 0x105#32 := by decide
/-- V-CMP 1, 2, 5, 8, 9. -/
theorem test_arithmetic : reached 4#32 0xFFFFFFF0#32 = true ∧ after 0xFFFFFFF0#32 4#32 = false
    ∧ reached 0x80000000#32 0#32 = false ∧ us2Ccy Config.cfgT 53687091#32 = 0xFFFFFFF0#32
    ∧ us2Ccy Config.cfgT 53687092#32 = 64#32 := by decide

/-! ### Instructions -/

/-- E1: `ARG1 = 1` is 80 cycles at acceptance. -/
theorem test_start_us_scales : exec (.startUs false 0xFF#8 4#8) { State.reset with arg1 := 1#32 }
    = .next { State.reset with
        arg1 := 1#32, phaseF := .v
        cmdF := { State.reset.cmdF with op := .startUs, pin := 4#8, align := 0xFF#8, low := 80#32 } } := by rfl
/-- V-START 12: the scaled period is negative. -/
theorem test_start_us_validates :
    validate Config.cfgT 4#8 0xFF#8 (us2Ccy Config.cfgT 26843546#32) 0#32 = some .periodNonpos := by decide
/-- V-START 1, 3, 4, 6, 7, 8. -/
theorem test_start_ccy_validates : validate Config.cfgS 8#8 0xFF#8 1#32 1#32 = some .pinRange
    ∧ validate Config.cfgT 9#8 0xFF#8 40000#32 40000#32 = some .pinFlash
    ∧ validate Config.cfgS 2#8 8#8 1#32 1#32 = some .alignRange
    ∧ validate Config.cfgS 2#8 0xFF#8 0#32 0#32 = some .periodNonpos
    ∧ validate Config.cfgS 2#8 0xFF#8 0x7FFFFFFF#32 1#32 = some .periodNonpos
    ∧ validate Config.cfgS 2#8 0xFF#8 0xFFFFFFFF#32 2#32 = some .dutyGtPeriod := by decide
/-- V-START 15, 19, 21, 22. -/
theorem test_start_ccy_stretches : stretch Config.cfgS 0#32 30#32 = (0#32, 1020#32)
    ∧ stretch Config.cfgS 250#32 0#32 = (1000#32, 1000#32) ∧ stretch Config.cfgS 999#32 0#32 = (1998#32, 1998#32)
    ∧ stretch Config.cfgS 10#32 20#32 = (10#32, 30#32) := by decide
/-- V-STOP 1: step `T0`. -/
theorem test_stop_fails_dormant : exec (.stop 2#8) { atStop .t0 with timerRunning := false }
    = .next { atStop .t0 with timerRunning := false, phaseF := .idle } := by rfl
/-- V-STOP 5: step `T1`. -/
theorem test_stop_of_a_pin_past_the_map :
    exec (.stop 200#8) { atStop .t1 with enabled := 8#32, cmdF := { blank.cmdF with op := .stop, pin := 200#8 } }
      = .next { atStop .t1 with
          enabled := 8#32, cmdF := { blank.cmdF with op := .stop, pin := 200#8 }, phaseF := .t .t5 } := by rfl
/-- V-STOP 9: step `T5` of an `ISTOP` of a pin not yet enabled tears the timer down. -/
theorem test_istop_tears_down : exec (.istop 2#8) { atStop .t5 with tArmed := true, toSet := 3#8 }
    = .next { atStop .t5 with
        toSet := 3#8, timerRunning := false, tEnabled := false, iResult := true, phaseI := .idle } := by rfl
/-- V-STOP 2: step `T0`. -/
theorem test_istop_fails_dormant : exec (.istop 2#8) { atStop .t0 with timerRunning := false }
    = .next { atStop .t0 with timerRunning := false, phaseI := .idle } := by rfl
/-- V-SETCB 1: step `C1`. -/
theorem test_setcb_registers :
    exec (.setcb true) { blank with cbRegistered := true, phaseF := .c1, cmdF := { blank.cmdF with op := .setcb, en := true } }
      = .next { blank with
          cbRegistered := true, timerRunning := true, tEnabled := true, tArmed := true, tFireAt := 5#32, fResult := true
          cmdF := { blank.cmdF with op := .setcb, en := true } } := by rfl
/-- V-SETCB 5: step `C1`. -/
theorem test_setcb_unregisters :
    exec (.setcb false) { blank with
        timerRunning := true, tEnabled := true, phaseF := .c1, cmdF := { blank.cmdF with op := .setcb } }
      = .next { blank with fResult := true, cmdF := { blank.cmdF with op := .setcb } } := by rfl
/-- V-REQ 7: one assignment, bounds recomputed. -/
theorem test_service_requests :
    ({ blank with enabled := 0x12#32, firstPin := 1#8, lastPin := 4#8, toSet := 6#8, toDisable := 1#8 } : State).applyRequests
      = { blank with enabled := 0x50#32, firstPin := 4#8, lastPin := 6#8, toSet := 6#8 } := by decide
/-- V-REQ 16: the resolved expiry wraps. -/
theorem test_service_resolves :
    ({ Desc.unwritten with mode := .updateExpiry, nextPeriodCcy := 0xFFFFFF00#32, expiryCcy := 0x100#32 } :
      Desc).resolveExpiry = { Desc.unwritten with mode := .expires, nextPeriodCcy := 0xFFFFFF00#32, expiryCcy := 0#32 } := by
  decide

/-! ### Witnesses: states and operands that meet the hypotheses of each statement, clause by clause

A statement that is not named here has no hypothesis. -/

theorem witness_EncodeOfDecodeIsTheWord : decode .f 0x01FF0302#32 = .ok (.startCcy true 0xFF#8 3#8)
    ∧ decode .i 0xFF03#32 = .ok (.istop 255#8) ∧ decode .irq 1#32 = .ok .service := by decide
theorem witness_PortFTableSelectsRows : 0x01FFFF01#32 &&& 0xFE0000FF#32 = 1#32 ∧ 0x2#32 &&& 0xFE0000FF#32 = 2#32
    ∧ 0xFF03#32 &&& 0xFFFF00FF#32 = 3#32 ∧ 0x104#32 &&& 0xFFFFFEFF#32 = 4#32
    ∧ (0x02000001#32 &&& 0xFE0000FF#32 ≠ 1#32 ∧ 0x02000001#32 &&& 0xFE0000FF#32 ≠ 2#32
      ∧ 0x02000001#32 &&& 0xFFFF00FF#32 ≠ 3#32 ∧ 0x02000001#32 &&& 0xFFFFFEFF#32 ≠ 4#32) := by decide
theorem witness_PortITableSelectsIstop : 0xFF03#32 &&& 0xFFFF00FF#32 = 3#32 ∧ 0x10003#32 &&& 0xFFFF00FF#32 ≠ 3#32 := by
  decide
/-- The state `s` has the one input `e` to come. -/
def withInput (s : State) (e : Input) : State := { s with inputs := [e] }
theorem witness_StepRunsTheSelectedInstruction :
    (∃ s : State, s = withInput blank (.busWrite .foreground 0x000 4 0x503#32) ∧ s.contextRuns .foreground = true
      ∧ s.phaseF = .idle ∧ decode .f 0x503#32 = .ok (.stop 5#8))
      ∧ (∃ s : State, s = withInput (atStart .f1) (.busWrite .interrupt 0x020 4 0x503#32)
        ∧ s.contextRuns .interrupt = true ∧ s.phaseI = .idle ∧ decode .i 0x503#32 = .ok (.istop 5#8))
      ∧ (∃ s : State, s = withInput (atStart .f1) .portF ∧ s.phaseF ≠ .idle ∧ s.phaseI = .idle)
      ∧ (∃ s : State, s = withInput (atStop .t0) .portF ∧ s.phaseI ≠ .idle)
      ∧ (∃ s : State, s = withInput (atStop .t0) .portI ∧ s.phaseI ≠ .idle)
      ∧ (∃ s : State, s = withInput running .timerIrq ∧ s.svcPending = true ∧ s.tEnabled = true) :=
  ⟨⟨_, rfl, by decide⟩, ⟨_, rfl, by decide⟩, ⟨_, rfl, by decide⟩, ⟨_, rfl, by decide⟩, ⟨_, rfl, by decide⟩,
    ⟨_, rfl, by decide⟩⟩
theorem witness_UnselectedCommandWrites : (blank.contextRuns .foreground = true ∧ blank.phaseF = .idle
      ∧ decode .f 0#32 = .error .illegalOnPortF)
    ∧ (blank.contextRuns .interrupt = true ∧ blank.phaseI = .idle ∧ decode .i 0x104#32 = .error .illegalOnPortI)
    ∧ ((atStart .f1).contextRuns .foreground = true ∧ (atStart .f1).phaseF ≠ .idle)
    ∧ ((atStop .t0).contextRuns .interrupt = true ∧ (atStop .t0).phaseI ≠ .idle) := by decide
/-- The last word of the map of CFG-S is at `0x1FC`; `0x200` is past it. -/
theorem witness_RegisterMapWrites : blank.contextRuns .foreground = true
    ∧ ((2 ≠ 4 ∨ 0 % 4 ≠ 0) ∧ (4 ≠ 4 ∨ 0x1FE % 4 ≠ 0))
    ∧ (0x200 % 4 = 0 ∧ 0x100 + 0x20 * blank.cfg.npins ≤ 0x200)
    ∧ (0x1FC % 4 = 0 ∧ 0x1FC < 0x100 + 0x20 * blank.cfg.npins ∧ 0x1FC ∉ [0x000, 0x004, 0x008, 0x00C, 0x010, 0x020])
    ∧ (0x014 < 0x100 + 0x20 * blank.cfg.npins ∧ 0x014 ∉ [0x000, 0x004, 0x008, 0x00C, 0x010, 0x020]) := by decide
theorem witness_RegisterMapReads : blank.contextRuns .interrupt = true ∧ 0x1FC % 4 = 0
    ∧ 0x1FC < 0x100 + 0x20 * blank.cfg.npins ∧ (0x02C ≤ 0x02C ∧ 0x0FC < 0x100) ∧ 7 < blank.cfg.npins := by decide
theorem witness_StatusRegistersArePacked : ∃ k : Nat, (k = 3 ∨ k = 6 ∨ k = 7 ∨ 10 ≤ k) ∧ k = 31 := ⟨31, by decide⟩
theorem witness_TimeArithmetic : 2 ^ 31 - 1 < 2 ^ 31 := by decide
theorem witness_GpioWriteDrivesOnePin : 7 < blank.cfg.npins ∧ blank.cfg.rmwPin = some 7 ∧ 0 < blank.cfg.npins := by decide
theorem witness_AcceptanceLatchesTheCommand : blank.phaseF = .idle ∧ blank.phaseI = .idle := by decide

/-- Every phase of port F, with a start in the latch. -/
theorem witness_start (k : PhaseF) : ∃ (s : State) (i : Instr), i.isStart = true ∧ s.cmdF.instr = i ∧ s.phaseF = k :=
  ⟨atStart k, .startCcy false 0#8 2#8, rfl, rfl, rfl⟩
/-- A good start, a start with an operand that fails, a short one with an empty phase, a short one with none. -/
theorem witness_StartValidatesAndStretches :
    let bad := fun c : LatchF => 8 ≤ c.pin.toNat ∨ c.pin.toNat ∈ ([] : List Nat) ∨ (8 : Int) ≤ c.align.toInt
      ∨ (c.high + c.low).toInt ≤ 0 ∨ c.high + c.low < c.high
    ((atStart .v).cmdF.instr.isStart = true ∧ (atStart .v).phaseF = .v ∧ (atStart .v).cfg.npins = 8
      ∧ (atStart .v).cfg.flashPins = [])
      ∧ ¬bad startLatch ∧ bad { startLatch with pin := 8#8 }
      ∧ (¬bad { startLatch with high := 0#32, low := 999#32 } ∧ (0#32 + 999#32).toNat < 1000)
      ∧ (¬bad { startLatch with high := 1#32, low := 1#32 } ∧ (1#32 + 1#32).toNat < 1000 ∧ 1#32 ≠ 0#32) := by decide
theorem witness_StartStagesConfiguration : (atStart .f1).phaseF = .f1 ∧ (atStart .f2).phaseF = .f2
    ∧ (atStart .f3).phaseF = .f3 ∧ (atStart .f3).cmdF.instr.isStart = true
    ∧ 0 < blank.cfg.npins ∧ 7 < blank.cfg.npins := by decide
theorem witness_StartBranchesOnEnabled : (atStart .f4).cmdF.instr.isStart = true ∧ (atStart .f4).phaseF = .f4
    ∧ (atStart .f4).isEnabled 2 = false ∧ ({ atStart .f4 with enabled := 4#32 } : State).isEnabled 2 = true := by decide
theorem witness_FreshStartStagesDescriptor : (atStart .f5).phaseF = .f5 ∧ (atStart .f6).phaseF = .f6
    ∧ (atStart .f7).phaseF = .f7 ∧ (atStart .f8).phaseF = .f8 ∧ (atStart .f8).cmdF.instr.isStart = true := by decide
theorem witness_ZeroDutyStartForcesPinLow : (atStart .f9).cmdF.instr.isStart = true ∧ (atStart .f9).phaseF = .f9
    ∧ (atStart .f9).cmdF.duty ≠ 0#32
    ∧ ({ atStart .f9 with cmdF := { startLatch with duty := 0#32 } } : State).cmdF.instr.isStart = true := by decide
theorem witness_FreshStartPublishes : (atStart .f10).cmdF.instr.isStart = true ∧ (atStart .f10).phaseF = .f10
    ∧ (atStart .f10).toSet = pinNone ∧ ({ atStart .f10 with toSet := 3#8 } : State).toSet ≠ pinNone := by decide
/-- The kick's bound itself (V-START 30) and one cycle more. -/
theorem witness_FreshStartMakesTheSchedulerRun : (atStart .f11).cmdF.instr.isStart = true ∧ (atStart .f11).phaseF = .f11
    ∧ (atStart .f11).timerRunning = false
    ∧ 5 < ({ atStart .f11 with timerRunning := true, tArmed := true, tFireAt := 6#32 } : State).timerRemaining
    ∧ ({ atStart .f11 with timerRunning := true, tArmed := true, tFireAt := 5#32 } : State).timerRemaining ≤ 5
    ∧ (atStart .f11).cfg.kickCcys = 5 := by decide
theorem witness_StartEndsWhenRequestConsumed : (atStart .f12).cmdF.instr.isStart = true ∧ (atStart .f12).phaseF = .f12
    ∧ (atStart .l9).phaseF = .l9 ∧ (atStart .l9).toSet = pinNone
    ∧ ({ atStart .f12 with toSet := 2#8 } : State).toSet ≠ pinNone := by decide
theorem witness_LiveUpdatePassesThroughInfinite : (atStart .l5).cmdF.instr.isStart = true ∧ (atStart .l5).phaseF = .l5
    ∧ ((atStart .l6).phaseF = .l6 ∧ (atStart .l6).cmdF.run = 0#32)
    ∧ ({ atStart .l6 with cmdF := { startLatch with run := 3000#32 } } : State).cmdF.run ≠ 0#32
    ∧ (atStart .l7).phaseF = .l7 ∧ ((atStart .l8).phaseF = .l8 ∧ (atStart .l8).toSet = pinNone)
    ∧ ({ atStart .l8 with toSet := 3#8 } : State).toSet ≠ pinNone := by decide
/-- The operands of V-START 27. -/
def operands : State := { blank with arg0 := 300#32, arg1 := 700#32 }
theorem witness_FreshStartRunsToItsWait : operands.phaseF = .idle ∧ operands.toSet = pinNone
    ∧ operands.isEnabled 2 = false ∧ validate operands.cfg 2#8 0xFF#8 operands.arg0 operands.arg1 = none := by decide
theorem witness_LiveUpdateWithoutRunTimeEnds :
    let s : State := { operands with enabled := 4#32 }
    s.phaseF = .idle ∧ s.toSet = pinNone ∧ s.isEnabled 2 = true ∧ s.arg2 = 0#32
      ∧ validate s.cfg 2#8 0xFF#8 s.arg0 s.arg1 = none := by decide

/-- Every step of a stop of pin 2, on both ports. -/
theorem witness_stop (k : StopStep) : ∃ s : State, s.phaseF = .t k ∧ s.cmdF.instr = .stop 2#8 ∧ s.phaseI = .t k
    ∧ s.cmdI.pin = 2#8 := ⟨atStop k, rfl, rfl, rfl, rfl⟩
theorem witness_StopFailsWhileDormant : (atStop .t0).phaseF = .t .t0 ∧ (atStop .t0).cmdF.instr = .stop 2#8
    ∧ (atStop .t0).timerRunning = true ∧ ({ atStop .t0 with timerRunning := false } : State).timerRunning = false := by
  decide
/-- The last pin that exists, enabled, and the first that does not. -/
theorem witness_StopLooksAtEnabled :
    ((true = true) ↔ (7#8).toNat < blank.cfg.npins ∧ maskBit 0x80#32 (7#8).toNat = true)
      ∧ ((false = true) ↔ (8#8).toNat < blank.cfg.npins ∧ maskBit 0x80#32 (8#8).toNat = true)
      ∧ (atStop .t1).phaseF = .t .t1 ∧ (atStop .t1).cmdF.instr = .stop 2#8 := by decide
theorem witness_StopPublishesAndWaits : (atStop .t2).phaseF = .t .t2 ∧ (atStop .t2).cmdF.instr = .stop 2#8
    ∧ (atStop .t2).phaseI = .t .t2 ∧ (atStop .t2).cmdI.pin = 2#8 ∧ (atStop .t2).toDisable = pinNone
    ∧ ({ atStop .t2 with toDisable := 3#8 } : State).toDisable ≠ pinNone
    ∧ (atStop .t4).phaseF = .t .t4 ∧ (atStop .t4).cmdF.instr = .stop 2#8 ∧ (atStop .t4).phaseI = .t .t4
    ∧ (atStop .t4).cmdI.pin = 2#8 ∧ (atStop .t4).toDisable = pinNone
    ∧ ({ atStop .t4 with toDisable := 2#8 } : State).toDisable ≠ pinNone := by decide
theorem witness_StopKicksTheTimer : (atStop .t3).phaseF = .t .t3 ∧ (atStop .t3).cmdF.instr = .stop 2#8
    ∧ 5 < ({ atStop .t3 with tArmed := true, tFireAt := 6#32 } : State).timerRemaining
    ∧ ({ atStop .t3 with tArmed := true, tFireAt := 5#32 } : State).timerRemaining ≤ 5 := by decide
theorem witness_StopTearsDownAnIdleTimer : (atStop .t5).phaseF = .t .t5 ∧ (atStop .t5).cmdF.instr = .stop 2#8
    ∧ (atStop .t5).enabled = 0#32 ∧ (atStop .t5).cbRegistered = false
    ∧ ({ atStop .t5 with cbRegistered := true } : State).cbRegistered = true := by decide
theorem witness_StopOfADisabledPinChangesNothing :
    let s : State := { blank with timerRunning := true, enabled := 0x20#32 }
    s.timerRunning = true ∧ s.isEnabled (2#8).toNat = false ∧ (s.enabled ≠ 0#32 ∨ s.cbRegistered = true)
      ∧ s.phaseF = .idle ∧ s.phaseI = .idle := by decide
theorem witness_SetcbRegistersAndManagesTheTimer :
    let c : LatchF := { blank.cmdF with op := .setcb, en := true }
    c.instr = .setcb true ∧ ({ c with en := false } : LatchF).instr = .setcb false ∧ blank.timerRunning = false
      ∧ running.timerRunning = true ∧ running.enabled ≠ 0#32 ∧ (atStop .t0).timerRunning = true
      ∧ (atStop .t0).enabled = 0#32 ∧ ({ blank with phaseF := .c0 } : State).phaseF = .c0
      ∧ ({ blank with phaseF := .c1 } : State).phaseF = .c1 := by decide
theorem witness_TimerPrimitives : (1 ≤ 1 ∧ 1 < 2 ^ 31) ∧ 2 ^ 31 - 1 < 2 ^ 31 ∧ blank.tArmed = false
    ∧ ({ blank with tArmed := true } : State).tArmed = true := by decide
theorem witness_TimerFiresOncePerArming :
    let s : State := { blank with tArmed := true, tFireAt := 5#32 }
    s.tArmed = true ∧ 4 < (s.tFireAt - s.ccount).toNat ∧ (s.tFireAt - s.ccount).toNat ≤ 5 ∧ blank.tArmed = false := by
  decide

/-! #### `SERVICE` -/

theorem witness_ServiceWritesOnlySchedulerState : exec .service running = .next running.service := by rfl
/-- V-REQ 1, 3, 5 and 6. -/
theorem witness_RequestsAreAppliedInOneAssignment :
    (∃ s : State, s = { blank with toSet := 5#8 } ∧ (s.enabled &&& ~~~ pinMask s.cfg = 0#32
      ∧ s.states &&& ~~~ pinMask s.cfg = 0#32) ∧ s.toSet.toNat < s.cfg.npins ∧ s.toSet ≠ pinNone
      ∧ s.isEnabled s.toSet.toNat = false)
      ∧ (∃ s : State, s = { running with toDisable := 2#8 } ∧ (s.enabled &&& ~~~ pinMask s.cfg = 0#32
        ∧ s.states &&& ~~~ pinMask s.cfg = 0#32) ∧ s.toSet = pinNone ∧ s.toDisable ≠ pinNone)
      ∧ (∃ s : State, s = { running with toSet := 2#8 } ∧ (s.enabled &&& ~~~ pinMask s.cfg = 0#32
        ∧ s.states &&& ~~~ pinMask s.cfg = 0#32) ∧ s.toSet.toNat < s.cfg.npins ∧ s.isEnabled s.toSet.toNat = true
        ∧ s.toDisable = pinNone) :=
  ⟨⟨_, rfl, by decide⟩, ⟨_, rfl, by decide⟩, ⟨_, rfl, by decide⟩⟩
theorem witness_BoundsAreLowestAndHighest : 0x80000001#32 ≠ 0#32 ∧ maskBit 0x80000001#32 31 = true := by decide
/-- Pin 2 of `running` with another mode and run time, and the set request published. -/
def requested (m : Mode) (expiry : Word) : State :=
  { running.setDesc 2 { running.desc 2 with mode := m, expiryCcy := expiry } with toSet := 2#8 }
theorem witness_SetRequestIsResolved : running.toSet = pinNone ∧ (requested .init 0#32).toSet ≠ pinNone
    ∧ (((requested .init 0#32).desc 2).mode = .init ∧ ((requested .init 0#32).desc 2).expiryCcy = 0#32)
    ∧ (((requested .init 9#32).desc 2).mode = .init ∧ ((requested .init 9#32).desc 2).expiryCcy ≠ 0#32)
    ∧ ((requested .updateExpiry 9#32).desc 2).mode = .updateExpiry
    ∧ ((requested .infinite 9#32).desc 2).mode = .infinite ∧ ((requested .expires 9#32).desc 2).mode = .expires := by
  decide
/-- Pin 2 of `running` at its expiry. -/
theorem witness_ExpiryTerminatesWithoutAnEdge :
    let s := requested .expires 1000#32
    (s.desc 2).mode = .expires ∧ (s.desc 2).nextEventCcy = (s.desc 2).expiryCcy
      ∧ s.enabled &&& ~~~ pinMask s.cfg = 0#32 ∧ s.states &&& ~~~ pinMask s.cfg = 0#32 := by decide
theorem witness_StaleEventOnlyReschedules :
    ¬((running.desc 2).mode = .expires ∧ (running.desc 2).nextEventCcy = (running.desc 2).expiryCcy)
      ∧ maskBit running.states 2 = true ∧ (999#32 - (running.desc 2).endDutyCcy).toInt < 0 := by decide
/-- V-FWD: the bound of the idle period, one cycle below it, a duty of the whole period, and a duty past it (R199). -/
theorem witness_ForwardSkipCountsWholePeriods :
    1000#32 ≠ 0#32 ∧ (300#32 ≤ 1000#32 ∧ 1000#32 < 0x80000000#32 ∧ 0x7FFFFFFF#32 < 0x80000000#32)
      ∧ 300#32 ≠ 1000#32 ∧ (1000#32 - 300#32).toNat ≤ 700 ∧ 699 < (1000#32 - 300#32).toNat ∧ 2000#32 ≠ 1000#32 := by decide
/-- A low pin with and without a duty; a high pin before its falling edge is folded away, at its falling edge, and with
a duty of the whole period. -/
theorem witness_EdgeActionsByCase :
    let low : State := { running with states := 0#32 }
    let full := running.setDesc 2 { running.desc 2 with dutyCcys := 1000#32, endDutyCcy := 1700#32 }
    let edge := fun s : State => (1700#32 - (if maskBit s.states 2 = true then (s.desc 2).endDutyCcy
      else (s.desc 2).nextPeriodCcy))
    2 < running.cfg.npins
      ∧ ¬((running.desc 2).mode = .expires ∧ (running.desc 2).nextEventCcy = (running.desc 2).expiryCcy)
      ∧ (0 ≤ (edge low).toInt ∧ maskBit low.states 2 = false ∧ (low.desc 2).dutyCcys ≠ 0#32)
      ∧ ((low.setDesc 2 { low.desc 2 with dutyCcys := 0#32 }).desc 2).dutyCcys = 0#32
      ∧ (0 ≤ (edge running).toInt ∧ maskBit running.states 2 = true
        ∧ (1700#32 - ((running.desc 2).endDutyCcy + BitVec.ofNat 32 (fwdPeriods 300#32 1000#32 700#32) * 1000#32)).toInt < 0)
      ∧ (0 ≤ (1000#32 - (running.desc 2).endDutyCcy).toInt ∧ fwdPeriods 300#32 1000#32 0#32 = 0
        ∧ (running.desc 2).endDutyCcy ≠ (running.desc 2).nextPeriodCcy)
      ∧ (0 ≤ (edge full).toInt ∧ fwdPeriods 1000#32 1000#32 0#32 = 0
        ∧ (full.desc 2).endDutyCcy = (full.desc 2).nextPeriodCcy) := by decide
theorem witness_NudgeIsProportional : 300#32 ≠ 0#32 ∧ Config.cfgS.nudgeRule = .standard := by decide
theorem witness_OneGpioWritePerVisit : 2 < running.cfg.npins ∧ running.enabled &&& ~~~ pinMask running.cfg = 0#32
    ∧ running.states &&& ~~~ pinMask running.cfg = 0#32 ∧ 3 ≠ 2 := by decide
/-- A high pin without `autoPwm`, a low pin, and the bounds of section 7, the overshoot at its greatest. -/
theorem witness_VisitKeepsThePhase : 2 < running.cfg.npins ∧ (running.desc 2).autoPwm = false
    ∧ maskBit blank.states 2 = false ∧ (running.desc 2).dutyCcys ≤ (running.desc 2).periodCcys
    ∧ 0#32 < (running.desc 2).periodCcys ∧ (running.desc 2).periodCcys < 0x80000000#32
    ∧ 0x800003E7#32 - (if maskBit running.states 2 = true then (running.desc 2).endDutyCcy
      else (running.desc 2).nextPeriodCcy) = 0x7FFFFFFF#32 := by decide
theorem witness_RisingEdgeSchedulesAhead :
    let s : State := { running with states := 0#32 }
    2 < s.cfg.npins ∧ ¬((s.desc 2).mode = .expires ∧ (s.desc 2).nextEventCcy = (s.desc 2).expiryCcy)
      ∧ maskBit s.states 2 = false ∧ (s.desc 2).dutyCcys ≤ (s.desc 2).periodCcys ∧ 0#32 < (s.desc 2).periodCcys
      ∧ (s.desc 2).periodCcys < 0x80000000#32 ∧ 0 ≤ (1700#32 - (s.desc 2).nextPeriodCcy).toInt := by decide
theorem witness_ScanOrderVisitsTheBoundsOnce : running.firstPin ≤ running.lastPin := by decide
/-- A pin of `running` before the budget's end, at it, due at 1000 and not yet due at 999; a pin that is not enabled; a
pass with no pin, one that ends the loop and one that another follows; the spin at its deadline and before it. -/
theorem witness_ScanPassByCase : running.isEnabled 3 = false ∧ running.isEnabled 2 = true
    ∧ 0 ≤ (running.ccount - 1000#32).toInt ∧ ¬0 ≤ (running.ccount - 1001#32).toInt
    ∧ 0 ≤ (running.ccount - (running.desc 2).nextEventCcy).toInt
    ∧ (({ running with ccount := 999#32 } : State).ccount - (running.desc 2).nextEventCcy).toInt < 0
    ∧ (blank.scanPass 50#32).best = none ∧ (running.scanPass 1000#32).best = some (2, 1000#32)
    ∧ (blank.endOfPass 50#32).again = false
    ∧ (({ running with delays := [0, 0] } : State).endOfPass 2000#32).again = true
    ∧ (1000#32 - running.ccount).toInt ≤ 0 ∧ 0 < (1001#32 - running.ccount).toInt := by decide
/-- The budget is used up before the first pin: the pass visits none and names pin 2. -/
theorem witness_CursorNamesAnEnabledPin : MasksInMap running ∧ BoundsHold running
    ∧ exec .service running = .next running.service ∧ running.service.enabled ≠ 0#32 := by
  refine ⟨?_, ?_, rfl, by decide⟩
  · unfold MasksInMap
    decide
  · intro p h
    have hp : p < 32 := maskBit_lt _ _ h
    interval_cases p <;> revert h <;> decide
theorem witness_ScanLoopEndsByItsOwnTest : (50#32 - blank.ccount).toNat ≤ blank.cfg.isrBudgetCcys
    ∧ after 50#32 blank.ccount = true ∧ after 50#32 49#32 = true := by decide
theorem witness_RearmTakesTheSoonerOfEdgeAndCallback : blank.cbRegistered = false
    ∧ (∃ s : State, s.cbRegistered = true ∧ s.replies = [0xFFFFFFFF#32])
    ∧ (∃ s : State, s.cbRegistered = true ∧ s.replies = [])
    ∧ ((9 : Int) - blank.cfg.irqLatencyCcys < blank.cfg.minRearmCcys
      ∧ (blank.cfg.maxRearmCcys : Int) < 1006 - blank.cfg.irqLatencyCcys
      ∧ (blank.cfg.minRearmCcys : Int) ≤ 10 - blank.cfg.irqLatencyCcys
      ∧ (1005 : Int) - blank.cfg.irqLatencyCcys ≤ blank.cfg.maxRearmCcys) :=
  ⟨by decide, ⟨{ blank with cbRegistered := true, replies := [0xFFFFFFFF#32] }, rfl, rfl⟩,
    ⟨{ blank with cbRegistered := true }, rfl, rfl⟩, by decide⟩

/-! #### Invariants -/

/-- The timer armed and two cycles from firing, the two about to pass. -/
def armed : State := { running with svcPending := false, tArmed := true, tFireAt := 1002#32, inputs := [.elapse 2] }
theorem witness_StepKeepsTheTimerCoherent : (armed.tEnabled = armed.timerRunning
      ∧ (armed.timerRunning = true → armed.svcPending = !armed.tArmed)
      ∧ (armed.timerRunning = false → armed.tArmed = false ∧ armed.svcPending = false))
    ∧ armed.timerRunning = true ∧ ∃ t, step armed = .next t := ⟨by decide, by decide, _, rfl⟩
theorem witness_StepKeepsMasksAndBounds : (armed.enabled &&& ~~~ pinMask armed.cfg = 0#32
      ∧ armed.states &&& ~~~ pinMask armed.cfg = 0#32)
    ∧ (∀ p, p < 32 → armed.isEnabled p = true → armed.firstPin.toNat ≤ p ∧ p ≤ armed.lastPin.toNat)
    ∧ ∃ t, step armed = .next t := ⟨by decide, by decide, _, rfl⟩
/-- A live start of pin 2 about to stage its period. -/
def staging : State := { running with phaseF := .f2, cmdF := startLatch, inputs := [.portF] }
theorem witness_StepKeepsCommandsAndPeriods : CommandsCoherent staging ∧ PeriodsPositive staging
    ∧ ∃ t, step staging = .next t := by
  refine ⟨?_, ?_, _, rfl⟩
  · refine ⟨.inr rfl, fun _ => ?_, .inl rfl, .inl rfl, ?_, ?_⟩
    · unfold LatchF.Valid; decide
    · decide
    · decide
  · exact ⟨by decide, by decide⟩
theorem witness_OnlyTheSchedulerWritesItsState : perform .portF staging = .next staging.startStep
    ∧ exec (.startCcy false 0#8 2#8) staging = .next staging.startStep ∧ ∃ t, step staging = .next t :=
  ⟨rfl, rfl, _, rfl⟩
theorem witness_TornDownStartWaitsForever :
    let s : State := { atStart .f12 with toSet := 2#8, inputs := [.portF] }
    s.phaseF = .f12 ∧ s.toSet ≠ pinNone ∧ s.timerRunning = false ∧ s.tEnabled = false ∧ s.nextInput.1 ≠ .reset
      ∧ ∃ t, step s = .next t := ⟨rfl, by decide, rfl, rfl, by decide, _, rfl⟩

/-! #### Runs -/

/-- The run of the round robin from `running`: a cycle passes, the pending interrupt is taken, and none is pending after
it. -/
theorem witness_FairRunServesEveryRequest :
    let r := runFrom roundRobin running
    RunOf roundRobin r ∧ Fair roundRobin r ∧ TimerCoherent (r 0) ∧ (r 1).serviceStarts (roundRobin 1)
      ∧ ∀ i, 1 < i → i ≤ 2 → (r i).timerRunning = true ∧ (r i).svcPending = false := by
  refine ⟨roundRobin_runs _, roundRobin_fair _, ?_, ?_, fun i h h' => ?_⟩
  · unfold TimerCoherent
    decide
  · unfold State.serviceStarts
    decide
  · obtain rfl : i = 2 := by omega
    decide
/-- Port F at its wait for the slot of a set request, the interrupt that will take it pending; and port I at its wait for
the slot of a disable request. -/
def waitingF : State := { running with phaseF := .f12, cmdF := startLatch, toSet := 2#8 }
def waitingI : State := { running with phaseI := .t .t4, cmdI := { pin := 2#8, live := true }, toDisable := 2#8 }
theorem witness_FairRunEndsEveryWait :
    let r := runFrom roundRobin waitingF
    let r' := runFrom roundRobin waitingI
    (RunOf roundRobin r ∧ Fair roundRobin r ∧ TimerCoherent (r 0) ∧ CommandsCoherent (r 0) ∧ (r 0).phaseF = .f12
        ∧ (r 0).readyF = false)
      ∧ RunOf roundRobin r' ∧ Fair roundRobin r' ∧ TimerCoherent (r' 0) ∧ CommandsCoherent (r' 0)
      ∧ (r' 0).phaseI = .t .t4 ∧ (r' 0).readyI = false := by
  refine ⟨⟨roundRobin_runs _, roundRobin_fair _, ?_, ?_, rfl, by decide⟩, roundRobin_runs _, roundRobin_fair _, ?_, ?_,
    rfl, by decide⟩
  · unfold TimerCoherent
    decide
  · refine ⟨.inr rfl, fun _ => ?_, .inr ⟨rfl, rfl⟩, .inl rfl, ?_, ?_⟩
    · unfold LatchF.Valid
      decide
    · decide
    · decide
  · unfold TimerCoherent
    decide
  · exact ⟨trivial, nofun, .inl rfl, .inr (by decide), nofun, nofun⟩

end Sys2Proof.Tests
end

section
/-! PROOFS. The wrap-safe comparisons of instants and the microsecond conversion (R2, R4). -/

namespace Sys2Proof.Machine

theorem reached_iff (a b : Word) : reached a b = true ↔ 0 ≤ (a - b).toInt := decide_eq_true_iff

theorem after_iff (a b : Word) : after a b = true ↔ 0 < (a - b).toInt := decide_eq_true_iff

/-- A distance of less than half the counter's range is not negative as a signed number. -/
theorem toInt_ofNat_of_lt (n : Nat) (hn : n < 2 ^ 31) : (BitVec.ofNat 32 n).toInt = n := by
  have hmod : n % 2 ^ 32 = n := Nat.mod_eq_of_lt (by omega)
  rw [BitVec.toInt_eq_toNat_of_lt (by rw [BitVec.toNat_ofNat, hmod]; omega), BitVec.toNat_ofNat, hmod]

/-- An instant up to half the counter's range later has been reached when it comes, wherever the counter wraps (R2). -/
theorem reached_add (a : Word) (n : Nat) (hn : n < 2 ^ 31) : reached (a + BitVec.ofNat 32 n) a = true := by
  rw [reached_iff, add_sub_cancel_left, toInt_ofNat_of_lt n hn]
  exact Int.natCast_nonneg n

/-- An instant is not after one that lies less than half the counter's range later (R2). -/
theorem after_add (a : Word) (n : Nat) (hn : n < 2 ^ 31) : after a (a + BitVec.ofNat 32 n) = false := by
  have hdist : a - (a + BitVec.ofNat 32 n) = -BitVec.ofNat 32 n := by abel
  have hne : BitVec.ofNat 32 n ≠ BitVec.intMin 32 := by
    intro h
    have hi := congrArg BitVec.toInt h
    rw [toInt_ofNat_of_lt n hn, BitVec.toInt_intMin] at hi
    omega
  rw [← Bool.not_eq_true, after_iff, hdist, BitVec.toInt_neg_of_ne_intMin hne, toInt_ofNat_of_lt n hn]
  omega

theorem us2Ccy_toNat (c : Cfg) (v : Word) : (us2Ccy c v).toNat = v.toNat * c.ccyPerUs % 2 ^ 32 :=
  BitVec.toNat_ofNat _ _

/-- Settles O11: the comparisons by the signed difference, the conversion by the one multiply. -/
theorem timeArithmetic : Obligations.TimeArithmetic :=
  ⟨fun a b => ⟨reached_iff a b, after_iff a b⟩, fun a n hn => ⟨reached_add a n hn, after_add a n hn⟩, us2Ccy_toNat⟩

end Sys2Proof.Machine
end

section
/-! PROOFS. Who writes what (R34): the ports leave the Scheduler's state alone, and the Scheduler leaves the operands
alone (R10). -/

namespace Sys2Proof.Machine

/-! ### The Scheduler's own state -/

/-- The state of which the Scheduler is the only writer in the table of R34, and the configuration (R9). -/
structure SchedulerStateKept (s t : State) : Prop where
  cfg : t.cfg = s.cfg
  enabled : t.enabled = s.enabled
  states : t.states = s.states
  firstPin : t.firstPin = s.firstPin
  lastPin : t.lastPin = s.lastPin
  cursor : t.cursor = s.cursor
  nextEventCcy : ∀ p, (t.desc p).nextEventCcy = (s.desc p).nextEventCcy
  endDutyCcy : ∀ p, (t.desc p).endDutyCcy = (s.desc p).endDutyCcy

/-- What no step of a command writes: the Scheduler's state and the operand registers (R10, R34). -/
structure CommandKeeps (s t : State) : Prop extends SchedulerStateKept s t where
  arg0 : t.arg0 = s.arg0
  arg1 : t.arg1 = s.arg1
  arg2 : t.arg2 = s.arg2
  arg3 : t.arg3 = s.arg3

theorem SchedulerStateKept.trans {s t u : State} (h : SchedulerStateKept s t) (k : SchedulerStateKept t u) :
    SchedulerStateKept s u where
  cfg := k.cfg.trans h.cfg
  enabled := k.enabled.trans h.enabled
  states := k.states.trans h.states
  firstPin := k.firstPin.trans h.firstPin
  lastPin := k.lastPin.trans h.lastPin
  cursor := k.cursor.trans h.cursor
  nextEventCcy p := (k.nextEventCcy p).trans (h.nextEventCcy p)
  endDutyCcy p := (k.endDutyCcy p).trans (h.endDutyCcy p)

/-- Two states with the same table, masks, bounds, cursor and configuration. -/
theorem SchedulerStateKept.of_wt {s t : State} (hc : t.cfg = s.cfg) (hw : t.wt = s.wt) (he : t.enabled = s.enabled)
    (hs : t.states = s.states) (hf : t.firstPin = s.firstPin) (hl : t.lastPin = s.lastPin)
    (hu : t.cursor = s.cursor) : SchedulerStateKept s t := by
  have hd : ∀ p, t.desc p = s.desc p := fun p => by rw [State.desc, State.desc, hw]
  exact ⟨hc, he, hs, hf, hl, hu, fun p => by rw [hd], fun p => by rw [hd]⟩

theorem SchedulerStateKept.refl (s : State) : SchedulerStateKept s s := .of_wt rfl rfl rfl rfl rfl rfl rfl

theorem CommandKeeps.trans {s t u : State} (h : CommandKeeps s t) (k : CommandKeeps t u) : CommandKeeps s u where
  toSchedulerStateKept := h.toSchedulerStateKept.trans k.toSchedulerStateKept
  arg0 := k.arg0.trans h.arg0
  arg1 := k.arg1.trans h.arg1
  arg2 := k.arg2.trans h.arg2
  arg3 := k.arg3.trans h.arg3

theorem CommandKeeps.refl (s : State) : CommandKeeps s s := ⟨.refl s, rfl, rfl, rfl, rfl⟩

/-! ### The operations that commands are made of -/

/-- A write of descriptor fields other than the two edges. -/
theorem CommandKeeps.modDesc (s : State) (p : Nat) (f : Desc → Desc)
    (hn : ∀ d, (f d).nextEventCcy = d.nextEventCcy) (he : ∀ d, (f d).endDutyCcy = d.endDutyCcy) :
    CommandKeeps s (s.modDesc p f) :=
  ⟨⟨rfl, rfl, rfl, rfl, rfl, rfl, modDesc_keeps Desc.nextEventCcy s p f hn, modDesc_keeps Desc.endDutyCcy s p f he⟩,
    rfl, rfl, rfl, rfl⟩

theorem CommandKeeps.goF (s : State) (k : PhaseF) : CommandKeeps s (s.goF k) :=
  ⟨.of_wt rfl rfl rfl rfl rfl rfl rfl, rfl, rfl, rfl, rfl⟩

theorem CommandKeeps.goStop (s : State) (port : CmdPort) (k : StopStep) : CommandKeeps s (s.goStop port k) :=
  ⟨.of_wt (by simp) (by simp) (by simp) (by simp) (by simp) (by simp) (by simp), by simp, by simp, by simp, by simp⟩

theorem CommandKeeps.setLive (s : State) (port : CmdPort) (v : Bool) : CommandKeeps s (s.setLive port v) :=
  ⟨.of_wt (by simp) (by simp) (by simp) (by simp) (by simp) (by simp) (by simp), by simp, by simp, by simp, by simp⟩

theorem CommandKeeps.endCommand (s : State) (port : CmdPort) (r : Bool) : CommandKeeps s (s.endCommand port r) :=
  ⟨.of_wt (by simp) (by simp) (by simp) (by simp) (by simp) (by simp) (by simp), by simp, by simp, by simp, by simp⟩

theorem CommandKeeps.gpioWrite (s : State) (p : Nat) (v : Bool) : CommandKeeps s (s.gpioWrite p v) :=
  ⟨.of_wt rfl rfl rfl rfl rfl rfl rfl, rfl, rfl, rfl, rfl⟩

theorem CommandKeeps.initTimer (s : State) : CommandKeeps s s.initTimer :=
  ⟨.of_wt rfl rfl rfl rfl rfl rfl rfl, rfl, rfl, rfl, rfl⟩

theorem CommandKeeps.deinitTimer (s : State) : CommandKeeps s s.deinitTimer :=
  ⟨.of_wt rfl rfl rfl rfl rfl rfl rfl, rfl, rfl, rfl, rfl⟩

theorem CommandKeeps.kick (s : State) : CommandKeeps s s.kick :=
  ⟨.of_wt (by simp) (by simp) (by simp) (by simp) (by simp) (by simp) (by simp), by simp, by simp, by simp, by simp⟩

/-! ### The steps of the commands -/

/-- A step of a start that stages descriptor fields other than the two edges (R81). -/
theorem CommandKeeps.stage (s : State) (p : Nat) (f : Desc → Desc) (k : PhaseF)
    (hn : ∀ d, (f d).nextEventCcy = d.nextEventCcy) (he : ∀ d, (f d).endDutyCcy = d.endDutyCcy) :
    CommandKeeps s ((s.modDesc p f).goF k) :=
  (CommandKeeps.modDesc s p f hn he).trans (.goF _ k)

theorem CommandKeeps.stepValidate (s : State) : CommandKeeps s s.stepValidate := by
  unfold State.stepValidate
  split
  · exact .endCommand s .f false
  · exact ⟨.of_wt rfl rfl rfl rfl rfl rfl rfl, rfl, rfl, rfl, rfl⟩

theorem CommandKeeps.publishSet (s : State) (k : PhaseF) : CommandKeeps s (s.publishSet k) := by
  unfold State.publishSet
  split
  · exact ⟨.of_wt rfl rfl rfl rfl rfl rfl rfl, rfl, rfl, rfl, rfl⟩
  · exact .refl s

theorem CommandKeeps.awaitSet (s : State) : CommandKeeps s s.awaitSet := by
  unfold State.awaitSet
  split
  · exact .endCommand s .f true
  · exact .refl s

theorem CommandKeeps.ensureTimer (s : State) : CommandKeeps s s.ensureTimer := by
  unfold State.ensureTimer
  split
  · exact .kick s
  · exact .initTimer s

theorem CommandKeeps.startStep (s : State) : CommandKeeps s s.startStep := by
  cases hk : s.phaseF <;> simp only [State.startStep, hk]
  case v => exact .stepValidate s
  case f1 | f2 | f3 | f5 | f6 | f7 | f8 | l5 | l6 | l7 => exact .stage s _ _ _ (fun _ => rfl) (fun _ => rfl)
  case f4 => exact ⟨.of_wt rfl rfl rfl rfl rfl rfl rfl, rfl, rfl, rfl, rfl⟩
  case f9 =>
    split
    · exact (CommandKeeps.gpioWrite s _ _).trans (.goF _ _)
    · exact .goF s _
  case f10 | l8 => exact .publishSet s _
  case f11 => exact (CommandKeeps.ensureTimer s).trans (.goF _ _)
  case f12 | l9 => exact .awaitSet s
  case idle | t | c0 | c1 => exact .refl s

theorem CommandKeeps.stopStep (s : State) (port : CmdPort) (k : StopStep) : CommandKeeps s (s.stopStep port k) := by
  cases k <;> simp only [State.stopStep]
  case t0 =>
    split
    · exact .goStop s _ _
    · exact .endCommand s _ _
  case t1 => exact (CommandKeeps.setLive s _ _).trans (.goStop _ _ _)
  case t2 =>
    split
    · exact CommandKeeps.trans (t := { s with toDisable := s.stopPin port })
        ⟨.of_wt rfl rfl rfl rfl rfl rfl rfl, rfl, rfl, rfl, rfl⟩ (.goStop _ _ _)
    · exact .refl s
  case t3 => exact (CommandKeeps.kick s).trans (.goStop _ _ _)
  case t4 =>
    split
    · exact .goStop s _ _
    · exact .refl s
  case t5 =>
    split
    · exact (CommandKeeps.deinitTimer s).trans (.endCommand _ _ _)
    · exact .endCommand s _ _

theorem CommandKeeps.stopStepF (s : State) : CommandKeeps s s.stopStepF := by
  unfold State.stopStepF
  split
  · exact .stopStep s _ _
  · exact .refl s

theorem CommandKeeps.stopStepI (s : State) : CommandKeeps s s.stopStepI := by
  unfold State.stopStepI
  split
  · exact .stopStep s _ _
  · exact .refl s

theorem CommandKeeps.callbackLifecycle (s : State) (en : Bool) : CommandKeeps s (s.callbackLifecycle en) := by
  unfold State.callbackLifecycle
  split_ifs
  · exact .initTimer s
  · exact .deinitTimer s
  · exact .refl s

theorem CommandKeeps.setcbStep (s : State) : CommandKeeps s s.setcbStep := by
  unfold State.setcbStep
  split
  · exact ⟨.of_wt rfl rfl rfl rfl rfl rfl rfl, rfl, rfl, rfl, rfl⟩
  · exact (CommandKeeps.callbackLifecycle s _).trans (.endCommand _ _ _)
  · exact .refl s

/-! ### A whole instruction -/

/-- What the acceptance and the next step of a command of port F keep, its execution keeps. -/
theorem CommandKeeps.onPortF (s : State) (i : Instr) {a n : State} (ha : CommandKeeps s a) (hn : CommandKeeps s n) :
    CommandKeeps s (s.onPortF i a n) := by
  obtain ⟨_, e⟩ | ⟨_, _, e⟩ | ⟨_, _, e⟩ := onPortF_cases s i a n <;> rw [e]
  exacts [ha, hn, .refl s]

/-- The same for a command of port I (R107). -/
theorem CommandKeeps.onPortI (s : State) (i : Instr) {a n : State} (ha : CommandKeeps s a) (hn : CommandKeeps s n) :
    CommandKeeps s (s.onPortI i a n) := by
  obtain ⟨_, e⟩ | ⟨_, _, e⟩ | ⟨_, _, e⟩ := onPortI_cases s i a n <;> rw [e]
  exacts [ha, hn, .refl s]

/-- No command writes the Scheduler's state, an operand or a parameter (R9, R10, R34). -/
theorem exec_commandKeeps (i : Instr) (s t : State) (hi : i ≠ .service) (h : exec i s = .next t) :
    CommandKeeps s t := by
  cases i <;> cases h
  case startUs | startCcy =>
    exact .onPortF s _ ⟨.of_wt rfl rfl rfl rfl rfl rfl rfl, rfl, rfl, rfl, rfl⟩ (.startStep s)
  case stop => exact .onPortF s _ ⟨.of_wt rfl rfl rfl rfl rfl rfl rfl, rfl, rfl, rfl, rfl⟩ (.stopStepF s)
  case setcb => exact .onPortF s _ ⟨.of_wt rfl rfl rfl rfl rfl rfl rfl, rfl, rfl, rfl, rfl⟩ (.setcbStep s)
  case istop => exact .onPortI s _ ⟨.of_wt rfl rfl rfl rfl rfl rfl rfl, rfl, rfl, rfl, rfl⟩ (.stopStepI s)
  case service => exact absurd rfl hi

theorem SchedulerKeeps.beginService (s : State) : SchedulerKeeps s s.beginService.2 :=
  ((SchedulerKeeps.enterService s).trans (.readNow _ 0)).trans
    (((SchedulerKeeps.applyRequests _).trans (.resolveSet _ _)).trans (.readNow _ 1))

theorem SchedulerKeeps.scanLoop (n : Nat) (timeout : Word) (s : State) :
    SchedulerKeeps s (scanLoop n timeout s).st :=
  scanLoop_induct (P := SchedulerKeeps s) timeout (fun _ h => h.trans (.endOfPass _ _))
    (fun _ _ _ h => h.trans (.spin _ _ _)) n s (.refl s)

theorem SchedulerKeeps.rearm (s : State) (deadline : Word) : SchedulerKeeps s (s.rearm deadline) :=
  ((SchedulerKeeps.askCallback s).trans (.readNow _ 1)).trans (.leaveService _ _)

/-- The frame of a whole `SERVICE` (R34, R120). -/
theorem SchedulerKeeps.service (s : State) : SchedulerKeeps s s.service :=
  ((SchedulerKeeps.beginService s).trans (.scanLoop _ _ _)).trans (.rearm _ _)

/-- Neither a command nor the event writes an operand register (R10). -/
theorem exec_args (i : Instr) (s t : State) (h : exec i s = .next t) :
    t.arg0 = s.arg0 ∧ t.arg1 = s.arg1 ∧ t.arg2 = s.arg2 ∧ t.arg3 = s.arg3 := by
  by_cases hi : i = .service
  · subst hi
    cases h
    have k := SchedulerKeeps.service s
    exact ⟨k.arg0, k.arg1, k.arg2, k.arg3⟩
  · have k := exec_commandKeeps i s t hi h
    exact ⟨k.arg0, k.arg1, k.arg2, k.arg3⟩

/-! ### A step of the machine -/

/-- The instruction of a command port is not `SERVICE` (R69). -/
theorem ne_service_of_port {i : Instr} (h : i.port ≠ .irq) : i ≠ .service := by
  rintro rfl
  exact h rfl

theorem SchedulerStateKept.elapse (s : State) (n : Nat) : SchedulerStateKept s (s.elapse n) :=
  .of_wt (by simp) (by simp) (by simp) (by simp) (by simp) (by simp) (by simp)

/-- A bus write reaches at most an operand register (R41, R44). -/
theorem SchedulerStateKept.writeReg (s : State) (off : Nat) (v : Word) : SchedulerStateKept s (s.writeReg off v) := by
  unfold State.writeReg
  split <;> exact .of_wt rfl rfl rfl rfl rfl rfl rfl

/-- An input leaves the Scheduler's state alone, or it is an interrupt that runs the Scheduler, or a reset (R34). -/
theorem does_schedulerState (e : Input) (s t : State) (h : Does s e t) :
    SchedulerStateKept s t ∨ (e = .timerIrq ∧ t = s.service) ∨ (e = .reset ∧ t = s.doReset) := by
  have command : ∀ (i : Instr) (u : State), SchedulerStateKept s u → i.port ≠ .irq → exec i u = .next t →
      SchedulerStateKept s t := fun i u hu hi he =>
    hu.trans (exec_commandKeeps i u t (ne_service_of_port hi) he).toSchedulerStateKept
  cases h with
  | noStepF | noStepI | noIrq | noRead | noWrite => exact .inl (.refl s)
  | portF _ _ he => exact .inl (command _ s (.refl s) (by rw [port_instrF]; decide) he)
  | portI _ he => exact .inl (command _ s (.refl s) (by rw [LatchI.instr, Instr.port]; decide) he)
  | service => exact .inr (.inl ⟨rfl, rfl⟩)
  | elapse n => exact .inl (.elapse s n)
  | read | storeF | storeI | failF | failI => exact .inl (.of_wt rfl rfl rfl rfl rfl rfl rfl)
  | acceptF _ _ _ w i _ hi he =>
    exact .inl (command i { s with cmdWordF := w } (.of_wt rfl rfl rfl rfl rfl rfl rfl) (by rw [hi]; decide) he)
  | acceptI _ _ _ w i _ hi he =>
    exact .inl (command i { s with cmdWordI := w } (.of_wt rfl rfl rfl rfl rfl rfl rfl) (by rw [hi]; decide) he)
  | write => exact .inl (.writeReg s _ _)
  | reset => exact .inr (.inr ⟨rfl, rfl⟩)

/-- No step changes a parameter (R9). -/
theorem step_cfg (s t : State) (h : step s = .next t) : t.cfg = s.cfg := by
  have hn : s.nextInput.2.cfg = s.cfg := by rw [nextInput_eq]
  rw [← hn]
  obtain k | ⟨_, ht⟩ | ⟨_, ht⟩ := does_schedulerState _ _ _ (does_of_step s t h)
  · exact k.cfg
  · rw [ht]
    exact (SchedulerKeeps.service _).cfg
  · rw [ht]
    rfl

/-- Settles O57: by what each input can do (`does_schedulerState`) and what each instruction keeps. -/
theorem onlyTheSchedulerWritesItsState : Obligations.OnlyTheSchedulerWritesItsState := by
  refine ⟨fun e s t hirq hreset h => ?_, exec_args, step_cfg⟩
  obtain k | ⟨he, _⟩ | ⟨he, _⟩ := does_schedulerState e s t (does_of_perform e s t h)
  · exact ⟨k.enabled, k.states, k.firstPin, k.lastPin, k.cursor, fun p => ⟨k.nextEventCcy p, k.endDutyCcy p⟩⟩
  · exact absurd he hirq
  · exact absurd he hreset

end Sys2Proof.Machine
end

section
/-! PROOFS. What the Scheduler makes of the masks, the bounds and the cursor (R23, R24, R36, R156), and at most one
write of a pin per visit (R144 to R148). -/

namespace Sys2Proof.Machine

/-! ### Reset -/

theorem maskBit_zero (p : Nat) : maskBit 0#32 p = false := by simp [maskBit]

/-- With no pin enabled any bounds hold. -/
theorem boundsHold_of_enabled_eq_zero {s : State} (h : s.enabled = 0#32) : BoundsHold s := by
  intro p hp
  rw [State.isEnabled, h, maskBit_zero] at hp
  cases hp

/-- A block right after reset, whatever its configuration, pins and counter, has its masks in the map and its bounds
around every enabled pin. -/
theorem masksAndBounds_of_reset {s : State} (he : s.enabled = 0#32) (hs : s.states = 0#32) :
    MasksInMap s ∧ BoundsHold s := by
  refine ⟨⟨?_, ?_⟩, boundsHold_of_enabled_eq_zero he⟩
  · rw [he, BitVec.zero_and]
  · rw [hs, BitVec.zero_and]

/-- Settles O53: the reset input always gives a state, and its fields are those of `State.resetWith`. -/
theorem resetInputResets : Obligations.ResetInputResets := fun s =>
  ⟨s.doReset, rfl, rfl, rfl, rfl, rfl, rfl, rfl, rfl, rfl, rfl, rfl, rfl, rfl, rfl, rfl, rfl, rfl, rfl, rfl, rfl⟩

/-- With both ports idle and both slots empty the commands are coherent. -/
theorem commandsCoherent_of_idle {s : State} (hF : s.phaseF = .idle) (hI : s.phaseI = .idle) (hS : s.toSet = pinNone)
    (hD : s.toDisable = pinNone) : CommandsCoherent s := by
  refine ⟨?_, ?_, .inl hS, .inl hD, ?_, ?_⟩
  · rw [hF]
    trivial
  · rw [hF]
    nofun
  · rw [hF]
    nofun
  · rw [hI]
    nofun

/-- With no pin enabled and port F idle no period is asked for. -/
theorem periodsPositive_of_idle {s : State} (hE : s.enabled = 0#32) (hF : s.phaseF = .idle) : PeriodsPositive s := by
  refine ⟨fun p _ hp => ?_, ?_⟩
  · rw [State.isEnabled, hE, maskBit_zero] at hp
    cases hp
  · rw [hF]
    nofun

/-- Settles O52: no pin is enabled, the timer is detached, both ports are idle and both slots empty. -/
theorem resetMeetsTheInvariants : Obligations.ResetMeetsTheInvariants := by
  obtain ⟨hmasks, hbounds⟩ := masksAndBounds_of_reset (s := State.reset) rfl rfl
  exact ⟨hmasks, hbounds, ⟨rfl, nofun, fun _ => ⟨rfl, rfl⟩⟩, fun h => absurd rfl h,
    commandsCoherent_of_idle rfl rfl rfl rfl, periodsPositive_of_idle rfl rfl⟩

/-! ### The operations that the scan is made of -/

/-- The operations of phase `S4` (R135 to R157) keep the property `P`: the writes of a visit, the disabling of an expired
pin (R139), the reads of the counter and the cursor's update. -/
structure KeptByScan (P : State → Prop) : Prop where
  modDesc : ∀ s p f, P s → P (s.modDesc p f)
  setStateBit : ∀ s p v, P s → P (s.setStateBit p v)
  gpioWrite : ∀ s p v, P s → P (s.gpioWrite p v)
  disable : ∀ s p, P s → P (s.setEnabled (setMaskBit s.enabled p false))
  readNow : ∀ s n, P s → P (s.readNow n)
  cursor : ∀ s c, P s → P { s with cursor := c }

section KeptByScan

variable {P : State → Prop} (k : KeptByScan P)
include k

theorem KeptByScan.edgeAction (s : State) (p : Nat) (now duty period : Word) (high : Bool) (h : P s) :
    P (s.edgeAction p now duty period high) := by
  unfold State.edgeAction State.zeroDutyEdge State.fullDutyTurn
  split_ifs
  · exact k.gpioWrite _ _ _ (k.setStateBit _ _ _ (k.modDesc _ _ _ h))
  · exact k.modDesc _ _ _ h
  · exact k.modDesc _ _ _ h
  · exact k.modDesc _ _ _ h
  · exact k.gpioWrite _ _ _ (k.setStateBit _ _ _ (k.modDesc _ _ _ h))

theorem KeptByScan.servicePin (s : State) (p : Nat) (now : Word) (h : P s) : P (s.servicePin p now) := by
  unfold State.servicePin
  dsimp only
  split_ifs
  · exact k.disable s p h
  · exact k.modDesc _ _ _ h
  · exact k.edgeAction _ _ _ _ _ _ (k.modDesc _ _ _ h)

theorem KeptByScan.visitPin (s : State) (p : Nat) (h : P s) : P (s.visitPin p) := by
  unfold State.visitPin
  refine k.readNow _ _ ?_
  split
  · exact k.servicePin _ _ _ h
  · exact h

theorem KeptByScan.scanPin (timeout : Word) (a : Scan) (p : Nat) (h : P a.st) : P (scanPin timeout a p).st := by
  unfold Machine.scanPin
  split
  · dsimp only
    split
    · exact h
    · exact k.visitPin _ _ h
  · exact h

theorem KeptByScan.endOfPass (s : State) (timeout : Word) (h : P s) : P (s.endOfPass timeout).st := by
  have hpass : P (s.scanPass timeout).st := foldl_scanPin timeout s.scanOrder _ h (k.scanPin timeout)
  unfold State.endOfPass
  dsimp only
  split
  · exact hpass
  · exact k.cursor _ _ hpass

theorem KeptByScan.spin (n : Nat) (deadline : Word) (s : State) (h : P s) : P (spin n deadline s) := by
  induction n generalizing s with
  | zero => exact h
  | succ n ih =>
    unfold Machine.spin
    split
    · exact ih _ (k.readNow _ _ h)
    · exact h

theorem KeptByScan.scanLoop (n : Nat) (timeout : Word) (s : State) (h : P s) : P (scanLoop n timeout s).st :=
  scanLoop_induct timeout (fun s h => k.endOfPass s timeout h) k.spin n s h

/-- What the scan loop leaves is what its last pass leaves, and that pass starts where `P` holds. -/
theorem KeptByScan.scanLoop_eq_endOfPass (n : Nat) (timeout : Word) (s : State) (h : P s) :
    ∃ u, P u ∧ Machine.scanLoop n timeout s = u.endOfPass timeout := by
  induction n generalizing s with
  | zero => exact ⟨s, h, rfl⟩
  | succ n ih =>
    unfold Machine.scanLoop
    dsimp only
    split
    · exact ih _ (k.spin _ _ _ (k.endOfPass s timeout h))
    · exact ⟨s, h, rfl⟩

end KeptByScan

/-! ### The masks and the bounds -/

/-- The bits past the pins read 0 when and only when every set bit is that of a pin. -/
theorem and_not_pinMask_eq_zero_iff (m : Word) (c : Cfg) :
    m &&& ~~~ pinMask c = 0#32 ↔ ∀ p, maskBit m p = true → p < c.npins := by
  constructor
  · intro h p hp
    have hbit : maskBit (m &&& ~~~ pinMask c) p = false := by rw [h, maskBit_zero]
    have hpin : maskBit (pinMask c) p = true := by
      unfold maskBit at hp hbit ⊢
      rw [BitVec.getLsbD_and, hp, BitVec.getLsbD_not, decide_eq_true (maskBit_lt m p hp)] at hbit
      simpa using hbit
    simpa [maskBit_pinMask] using hpin
  · intro h
    refine mask_eq_zero _ fun p => ?_
    by_cases hp : maskBit m p = true
    · have hpin : maskBit (pinMask c) p = true := by simpa [maskBit_pinMask] using h p hp
      unfold maskBit at hp hpin ⊢
      simp [hpin]
    · unfold maskBit at hp ⊢
      simp [hp]

theorem pin_lt_of_isEnabled {s : State} (h : MasksInMap s) {p : Nat} (hp : s.isEnabled p = true) : p < s.cfg.npins :=
  (and_not_pinMask_eq_zero_iff _ _).mp h.1 p hp

theorem pin_lt_of_states {s : State} (h : MasksInMap s) {p : Nat} (hp : maskBit s.states p = true) : p < s.cfg.npins :=
  (and_not_pinMask_eq_zero_iff _ _).mp h.2 p hp

theorem MasksInMap.setEnabled {s : State} (h : MasksInMap s) (m : Word) : MasksInMap (s.setEnabled m) :=
  ⟨and_pinMask_clear m s.cfg, h.2⟩

theorem MasksInMap.setStateBit {s : State} (h : MasksInMap s) (p : Nat) (v : Bool) : MasksInMap (s.setStateBit p v) :=
  ⟨h.1, and_pinMask_clear _ s.cfg⟩

/-- The write of an expired pin's bit of `enabled` (R139). -/
theorem isEnabled_disable (s : State) (p q : Nat) :
    (s.setEnabled (setMaskBit s.enabled p false)).isEnabled q
      = (s.isEnabled q && decide (q ≠ p) && decide (q < s.cfg.npins)) := by
  rw [isEnabled_setEnabled]
  by_cases hp : p < 32
  · rw [maskBit_setMaskBit _ _ _ _ hp, State.isEnabled]
    by_cases hq : q = p <;> simp [hq]
  · have hbit : (1#32 <<< p : Word) = 0#32 := by
      rw [BitVec.shiftLeft_eq_zero]
      omega
    have hmask : setMaskBit s.enabled p false = s.enabled := by
      rw [setMaskBit, hbit]
      exact BitVec.and_allOnes
    rw [hmask, State.isEnabled]
    by_cases hq : q = p
    · have hout : maskBit s.enabled q = false := by simp [maskBit, BitVec.getLsbD_of_ge s.enabled q (by omega)]
      simp [hout]
    · simp [hq]

/-- What follows the application of the requests keeps: the configuration and the bounds, the masks in the map; and it
enables no pin (R139). -/
structure MasksShrink (s t : State) : Prop where
  cfg : t.cfg = s.cfg
  firstPin : t.firstPin = s.firstPin
  lastPin : t.lastPin = s.lastPin
  enabled : ∀ p, t.isEnabled p = true → s.isEnabled p = true
  masks : MasksInMap s → MasksInMap t

theorem MasksShrink.of_masks {s t : State} (hc : t.cfg = s.cfg) (hf : t.firstPin = s.firstPin)
    (hl : t.lastPin = s.lastPin) (he : t.enabled = s.enabled) (hs : t.states = s.states) : MasksShrink s t where
  cfg := hc
  firstPin := hf
  lastPin := hl
  enabled p h := by rwa [State.isEnabled, he] at h
  masks h := by rwa [MasksInMap, hc, he, hs]

theorem MasksShrink.refl (s : State) : MasksShrink s s := .of_masks rfl rfl rfl rfl rfl

theorem MasksShrink.trans {s t u : State} (h : MasksShrink s t) (k : MasksShrink t u) : MasksShrink s u where
  cfg := k.cfg.trans h.cfg
  firstPin := k.firstPin.trans h.firstPin
  lastPin := k.lastPin.trans h.lastPin
  enabled p hp := h.enabled p (k.enabled p hp)
  masks hm := k.masks (h.masks hm)

theorem MasksShrink.setStateBit (s : State) (p : Nat) (v : Bool) : MasksShrink s (s.setStateBit p v) :=
  ⟨rfl, rfl, rfl, fun _ h => h, fun h => h.setStateBit p v⟩

theorem MasksShrink.modDesc (s : State) (p : Nat) (f : Desc → Desc) : MasksShrink s (s.modDesc p f) :=
  .of_masks rfl rfl rfl rfl rfl

theorem MasksShrink.disable (s : State) (p : Nat) :
    MasksShrink s (s.setEnabled (setMaskBit s.enabled p false)) where
  cfg := rfl
  firstPin := rfl
  lastPin := rfl
  enabled q h := by
    rw [isEnabled_disable] at h
    simp only [Bool.and_eq_true] at h
    exact h.1.1
  masks h := h.setEnabled _

theorem MasksShrink.readNow (s : State) (n : Nat) : MasksShrink s (s.readNow n) :=
  .of_masks (by simp) (by simp) (by simp) (by simp) (by simp)

theorem MasksShrink.keptByScan (s : State) : KeptByScan (MasksShrink s) where
  modDesc _ _ _ h := h.trans (.modDesc _ _ _)
  setStateBit _ _ _ h := h.trans (.setStateBit _ _ _)
  gpioWrite _ _ _ h := h.trans (.of_masks rfl rfl rfl rfl rfl)
  disable _ _ h := h.trans (.disable _ _)
  readNow _ _ h := h.trans (.readNow _ _)
  cursor _ _ h := h.trans (.of_masks rfl rfl rfl rfl rfl)

theorem MasksShrink.resolveSet (s : State) (isrStart : Word) : MasksShrink s (s.resolveSet isrStart) := by
  have hslot : ∀ u : State, MasksShrink u { u with toSet := pinNone } := fun _ => .of_masks rfl rfl rfl rfl rfl
  unfold State.resolveSet
  dsimp only
  split_ifs
  · exact .refl s
  · split
    · exact ((MasksShrink.setStateBit s _ false).trans (.modDesc _ _ _)).trans (hslot _)
    · exact (MasksShrink.modDesc s _ _).trans (hslot _)
    · exact hslot s
    · exact hslot s

theorem rearm_enabled (s : State) (deadline : Word) : (s.rearm deadline).enabled = s.enabled := by
  unfold State.rearm State.askCallback
  split <;> simp

theorem rearm_cursor (s : State) (deadline : Word) : (s.rearm deadline).cursor = s.cursor := by
  unfold State.rearm State.askCallback
  split <;> simp

theorem MasksShrink.rearm (s : State) (deadline : Word) : MasksShrink s (s.rearm deadline) := by
  refine .of_masks (SchedulerKeeps.rearm s deadline).cfg ?_ ?_ (rearm_enabled s deadline) ?_ <;>
    unfold State.rearm State.askCallback <;> split <;> simp

/-- Where no pin is enabled anew the bounds go on to hold (R36). -/
theorem MasksShrink.boundsHold {s t : State} (h : MasksShrink s t) (hb : BoundsHold s) : BoundsHold t := by
  intro p hp
  rw [h.firstPin, h.lastPin]
  exact hb p (h.enabled p hp)

/-- The lowest set bit is at or below every set bit. -/
theorem lowestSet_le {m : Word} {p : Nat} (hp : maskBit m p = true) : lowestSet m ≤ p := by
  have hmem : p ∈ List.range 32 := List.mem_range.mpr (maskBit_lt m p hp)
  unfold lowestSet
  cases hf : (List.range 32).find? (fun q => maskBit m q) with
  | none => exact absurd hp (List.find?_eq_none.mp hf p hmem)
  | some b =>
    have hmin := (List.find?_range_eq_some.mp hf).2.2
    by_contra hlt
    have := hmin p (by simpa using hlt)
    simp [hp] at this

/-- The highest set bit is a bit of the mask's 32, at or above every set bit. -/
theorem le_highestSet {m : Word} {p : Nat} (hp : maskBit m p = true) : p ≤ highestSet m ∧ highestSet m < 32 := by
  have h32 : p < 32 := maskBit_lt m p hp
  unfold highestSet
  cases hf : (List.range 32).reverse.find? (fun q => maskBit m q) with
  | none => exact absurd hp (List.find?_eq_none.mp hf p (by simpa using h32))
  | some b =>
    obtain ⟨_, i, hi, hb, hbefore⟩ := List.find?_eq_some_iff_getElem.mp hf
    simp only [List.getElem_reverse, List.getElem_range, List.length_range, List.length_reverse] at hi hb hbefore
    simp only [Option.getD_some]
    refine ⟨?_, by omega⟩
    by_contra hlt
    have hclear := hbefore (31 - p) (by omega)
    rw [show 32 - 1 - (31 - p) = p by omega, hp] at hclear
    cases hclear

/-- The bounds of a mask enclose its set bits (R123). -/
theorem bounds_enclose {m : Word} {p : Nat} (hp : maskBit m p = true) :
    (bounds m).1.toNat ≤ p ∧ p ≤ (bounds m).2.toNat := by
  have hne : m ≠ 0#32 := by
    rintro rfl
    rw [maskBit_zero] at hp
    cases hp
  obtain ⟨hhigh, h32⟩ := le_highestSet hp
  have hlow : lowestSet m ≤ p := lowestSet_le hp
  rw [bounds, if_pos hne, BitVec.toNat_ofNat, BitVec.toNat_ofNat]
  omega

/-- The requests leave the masks in the map and the bounds around every enabled pin (R122, R123). -/
theorem applyRequests_masksAndBounds {s : State} (hm : MasksInMap s) (hb : BoundsHold s) :
    MasksInMap s.applyRequests ∧ BoundsHold s.applyRequests := by
  unfold State.applyRequests
  dsimp only
  split_ifs
  · exact ⟨hm.setEnabled _, fun p hp => bounds_enclose hp⟩
  · exact ⟨hm, hb⟩

theorem beginService_masksAndBounds {s : State} (hm : MasksInMap s) (hb : BoundsHold s) :
    MasksInMap s.beginService.2 ∧ BoundsHold s.beginService.2 := by
  have hread : MasksShrink s (s.enterService.readNow 0) :=
    MasksShrink.trans (t := s.enterService) (.of_masks rfl rfl rfl rfl rfl) (.readNow _ 0)
  obtain ⟨hm', hb'⟩ := applyRequests_masksAndBounds (hread.masks hm) (hread.boundsHold hb)
  have hrest := (MasksShrink.resolveSet (s.enterService.readNow 0).applyRequests (s.enterService.readNow 0).ccount).trans
    (.readNow _ 1)
  exact ⟨hrest.masks hm', hrest.boundsHold hb'⟩

theorem service_masksAndBounds {s : State} (hm : MasksInMap s) (hb : BoundsHold s) :
    MasksInMap s.service ∧ BoundsHold s.service := by
  obtain ⟨hm', hb'⟩ := beginService_masksAndBounds hm hb
  have hscan : MasksShrink s.beginService.2 s.service :=
    ((MasksShrink.keptByScan s.beginService.2).scanLoop _ _ _ (.refl _)).trans (.rearm _ _)
  exact ⟨hscan.masks hm', hscan.boundsHold hb'⟩

/-- Settles O55: only a `SERVICE` and a reset write the masks and the bounds (`does_schedulerState`), and each leaves them
as they must be. -/
theorem stepKeepsMasksAndBounds : Obligations.StepKeepsMasksAndBounds := by
  intro s t hm hb h
  have hm' : MasksInMap s.nextInput.2 := by rw [nextInput_eq]; exact hm
  have hb' : BoundsHold s.nextInput.2 := by rw [nextInput_eq]; exact hb
  obtain k | ⟨_, rfl⟩ | ⟨_, rfl⟩ := does_schedulerState _ _ _ (does_of_step s t h)
  · have hkept : MasksShrink s.nextInput.2 t := .of_masks k.cfg k.firstPin k.lastPin k.enabled k.states
    exact ⟨hkept.masks hm', hkept.boundsHold hb'⟩
  · exact service_masksAndBounds hm' hb'
  · exact masksAndBounds_of_reset rfl rfl

/-- Settles O35: the frame of every part of a `SERVICE`, one after another. -/
theorem serviceWritesOnlySchedulerState : Obligations.ServiceWritesOnlySchedulerState := by
  rintro s t h
  cases h
  exact .service s

/-! ### A visit -/

/-- What a write of the mask `states` makes of each bit (R24). -/
theorem maskBit_setStateBit (s : State) (p q : Nat) (v : Bool) (hp : p < 32) :
    maskBit (s.setStateBit p v).states q
      = ((if q = p then v else maskBit s.states q) && decide (q < s.cfg.npins)) := by
  rw [setStateBit_states, maskBit_and_pinMask, maskBit_setMaskBit _ _ _ _ hp]

/-- What a visit makes of the pins (R138, R144 to R148): no write and the mask `states` as it was, or one write of the
visited pin, to the level that its bit of `states` did not show and now shows. -/
inductive PinMove (s : State) (p : Nat) (t : State) : Prop
  | quiet (htrace : t.trace = s.trace) (hgpio : t.gpio = s.gpio) (hstates : t.states = s.states)
  | write (v : Bool) (how : GpioAccess) (htrace : t.trace = .gpioWrite p v how s.ccount :: s.trace)
      (hgpio : t.gpio = setMaskBit s.gpio p v) (hstates : t.states = (s.setStateBit p v).states)
      (hbefore : maskBit s.states p = !v)

theorem edgeAction_pinMove (s : State) (p : Nat) (now duty period : Word) :
    PinMove s p (s.edgeAction p now duty period (maskBit s.states p)) := by
  unfold State.edgeAction
  split_ifs with hlow
  · exact .write true _ rfl rfl rfl hlow
  · exact .quiet rfl rfl rfl
  · exact .quiet rfl rfl rfl
  · exact .quiet rfl rfl rfl
  · exact .write false _ rfl rfl rfl (by simpa using hlow)

theorem servicePin_pinMove (s : State) (p : Nat) (now : Word) : PinMove s p (s.servicePin p now) := by
  unfold State.servicePin
  dsimp only
  split_ifs
  · exact .quiet rfl rfl rfl
  · exact .quiet rfl rfl rfl
  · cases edgeAction_pinMove (s.modDesc p fun d => d.fold (fwdPeriods (s.desc p).dutyCcys (s.desc p).periodCcys
      (now - (s.desc p).edge (maskBit s.states p))) (s.desc p).periodCcys) p now (s.desc p).dutyCcys
      (s.desc p).periodCcys with
    | quiet htrace hgpio hstates => exact .quiet htrace hgpio hstates
    | write v how htrace hgpio hstates hbefore => exact .write v how htrace hgpio hstates hbefore

/-- Settles O44: a visit is one of the two moves of `PinMove`. -/
theorem oneGpioWritePerVisit : Obligations.OneGpioWritePerVisit := by
  intro s p now hp
  have h32 : p < 32 := Nat.lt_of_lt_of_le hp s.cfg.valid.2.1
  cases servicePin_pinMove s p now with
  | quiet htrace hgpio hstates =>
    exact ⟨.inl ⟨htrace, hgpio, by rw [hstates]⟩, fun _ q _ => by rw [hstates]⟩
  | write v how htrace hgpio hstates hbefore =>
    refine ⟨.inr ⟨v, how, htrace, hgpio, ?_, hbefore⟩, fun hm q hq => ?_⟩
    · rw [hstates, maskBit_setStateBit _ _ _ _ h32]
      simp [hp]
    · rw [hstates, maskBit_setStateBit _ _ _ _ h32, if_neg hq]
      by_cases hbit : maskBit s.states q = true
      · simp [hbit, pin_lt_of_states hm hbit]
      · simp [hbit]

/-! ### The cursor -/

/-- A visit writes no bit of `enabled` but the visited pin's (R139). -/
theorem visitPin_isEnabled {s : State} (hm : MasksInMap s) {p q : Nat} (hq : q ≠ p) :
    (s.visitPin p).isEnabled q = s.isEnabled q := by
  have hedge : ∀ (u : State) (now duty period : Word) (high : Bool),
      (u.edgeAction p now duty period high).isEnabled q = u.isEnabled q := by
    intro u now duty period high
    unfold State.edgeAction
    split_ifs <;> rfl
  unfold State.visitPin State.servicePin
  dsimp only
  split_ifs <;> rw [readNow_isEnabled]
  · rw [isEnabled_disable]
    by_cases he : s.isEnabled q = true
    · simp [he, hq, pin_lt_of_isEnabled hm he]
    · simp [he]
  · exact modDesc_isEnabled _ _ _ _
  · rw [hedge, modDesc_isEnabled]

/-- Every enabled pin within the bounds stands in the scan order (R136). -/
theorem mem_scanOrder {s : State} (hb : BoundsHold s) {p : Nat} (hp : s.isEnabled p = true) : p ∈ s.scanOrder := by
  obtain ⟨hfirst, hlast⟩ := hb p hp
  simp only [State.scanOrder, List.mem_append, List.mem_range'_1]
  omega

/-- No pin stands twice in the scan order (R136). -/
theorem scanOrder_nodup (s : State) : s.scanOrder.Nodup := by
  refine List.nodup_append.mpr ⟨List.nodup_range', List.nodup_range', ?_⟩
  intro a ha b hb
  simp only [List.mem_range'_1] at ha hb
  omega

/-- A pass with the pins `rest` still to come: the pin of the nearest deadline so far is enabled and will not be visited
again, and while there is none only pins of `rest` are enabled (R135, R152). -/
structure PassInv (rest : List Nat) (a : Scan) : Prop where
  masks : MasksInMap a.st
  some : ∀ b, a.best = some b → a.st.isEnabled b.1 = true ∧ b.1 ∉ rest
  none : a.best = none → ∀ p, a.st.isEnabled p = true → p ∈ rest

/-- The minimum is the pin just visited or the one before (R152). -/
theorem bestOf_cases (best : Option (Nat × Word)) (p : Nat) (ccy : Word) :
    bestOf best p ccy = some (p, ccy) ∨ ∃ b, best = some b ∧ bestOf best p ccy = some b := by
  unfold bestOf
  cases best with
  | none => exact .inl rfl
  | some b =>
    dsimp only
    split
    · exact .inl rfl
    · exact .inr ⟨b, rfl, rfl⟩

/-- The visit of an enabled pin keeps what a pass knows, `s` being the state after it. -/
theorem PassInv.visited {p : Nat} {rest : List Nat} {a : Scan} (h : PassInv (p :: rest) a) (hp : p ∉ rest) (s : State)
    (x : Bool) (hm : MasksInMap s) (hs : ∀ q, q ≠ p → s.isEnabled q = a.st.isEnabled q) :
    PassInv rest ⟨s, x, if s.isEnabled p then bestOf a.best p (s.desc p).nextEventCcy else a.best⟩ := by
  have hbest : ∀ b, a.best = Option.some b → s.isEnabled b.1 = true ∧ b.1 ∉ rest := by
    intro b hb
    obtain ⟨hen, hnot⟩ := h.some b hb
    obtain ⟨hne, hrest⟩ := not_or.mp (mt List.mem_cons.mpr hnot)
    exact ⟨(hs _ hne).trans hen, hrest⟩
  by_cases hen : s.isEnabled p = true
  · simp only [hen, if_true]
    obtain hb | ⟨b, hb, hb'⟩ := bestOf_cases a.best p (s.desc p).nextEventCcy
    · rw [hb]
      exact ⟨hm, fun b hb => by cases hb; exact ⟨hen, hp⟩, nofun⟩
    · rw [hb']
      exact ⟨hm, fun c hc => by cases hc; exact hbest b hb, nofun⟩
  · simp only [hen, Bool.false_eq_true, if_false]
    refine ⟨hm, hbest, fun hnone q hq => ?_⟩
    have hqp : q ≠ p := by
      rintro rfl
      exact hen hq
    exact (List.mem_cons.mp (h.none hnone q ((hs q hqp).symm.trans hq))).resolve_left hqp

theorem PassInv.scanPin {p : Nat} {rest : List Nat} {a : Scan} (h : PassInv (p :: rest) a) (hp : p ∉ rest)
    (timeout : Word) : PassInv rest (scanPin timeout a p) := by
  unfold Machine.scanPin
  split
  · next hen =>
    dsimp only
    split
    · have hkept := h.visited hp a.st (a.exhausted || reached a.st.ccount timeout) h.masks fun _ _ => rfl
      rwa [if_pos hen] at hkept
    · exact h.visited hp _ _ (((MasksShrink.keptByScan a.st).visitPin _ _ (.refl _)).masks h.masks)
        fun _ hq => visitPin_isEnabled h.masks hq
  · next hen =>
    refine ⟨h.masks, fun b hb => ?_, fun hnone q hq => ?_⟩
    · obtain ⟨hb', hnot⟩ := h.some b hb
      exact ⟨hb', fun hmem => hnot (List.mem_cons_of_mem p hmem)⟩
    · refine (List.mem_cons.mp (h.none hnone q hq)).resolve_left ?_
      rintro rfl
      exact hen hq

theorem PassInv.foldl (timeout : Word) (l : List Nat) (hl : l.Nodup) (a : Scan) (h : PassInv l a) :
    PassInv [] (l.foldl (Machine.scanPin timeout) a) := by
  induction l generalizing a with
  | nil => exact h
  | cons p l ih =>
    obtain ⟨hp, hl⟩ := List.nodup_cons.mp hl
    exact ih hl _ (h.scanPin hp timeout)

/-- A whole pass. -/
theorem PassInv.scanPass {s : State} (hm : MasksInMap s) (hb : BoundsHold s) (timeout : Word) :
    PassInv [] (s.scanPass timeout) :=
  PassInv.foldl timeout _ (scanOrder_nodup s) _ ⟨hm, nofun, fun _ _ hp => mem_scanOrder hb hp⟩

/-- A pass leaves no pin enabled or the cursor at an enabled one (R155, R156). -/
theorem endOfPass_cursor {s : State} (hm : MasksInMap s) (hb : BoundsHold s) (timeout : Word) :
    (s.endOfPass timeout).st.enabled = 0#32
      ∨ (s.endOfPass timeout).st.isEnabled (s.endOfPass timeout).st.cursor.toNat = true := by
  have hpass := PassInv.scanPass hm hb timeout
  unfold State.endOfPass
  dsimp only
  split
  · next hnone =>
    refine .inl (mask_eq_zero _ fun p => ?_)
    by_contra hp
    exact List.not_mem_nil (hpass.none hnone p (eq_true_of_ne_false hp))
  · next b hsome =>
    obtain ⟨hen, _⟩ := hpass.some b hsome
    have h32 : b.1 < 32 := maskBit_lt _ _ hen
    refine .inr ?_
    show (s.scanPass timeout).st.isEnabled (BitVec.ofNat 8 b.1).toNat = true
    rwa [BitVec.toNat_ofNat, Nat.mod_eq_of_lt (by omega)]

/-- Settles O49: the last pass of the scan loop starts with the masks in the map and the bounds around every enabled pin,
and the re-arm writes neither `enabled` nor the cursor. -/
theorem cursorNamesAnEnabledPin : Obligations.CursorNamesAnEnabledPin := by
  intro s t hm hb h hen
  cases h
  obtain ⟨hm', hb'⟩ := beginService_masksAndBounds hm hb
  obtain ⟨u, hu, hlast⟩ := (MasksShrink.keptByScan s.beginService.2).scanLoop_eq_endOfPass s.cfg.isrBudgetCcys
    (s.beginService.1 + BitVec.ofNat 32 s.cfg.isrBudgetCcys) s.beginService.2 (.refl _)
  have hcursor := endOfPass_cursor (hu.masks hm') (hu.boundsHold hb')
    (s.beginService.1 + BitVec.ofNat 32 s.cfg.isrBudgetCcys)
  unfold State.service at hen ⊢
  dsimp only at hen ⊢
  rw [hlast] at hen ⊢
  rw [rearm_enabled] at hen
  rw [State.isEnabled, rearm_enabled, rearm_cursor]
  exact hcursor.resolve_left hen

end Sys2Proof.Machine
end

section
/-! PROOFS. The commands in progress, the request slots and the periods (R12, R22, R25, R88): validation and stretch of a
start, its waiting end, and the invariants that every step keeps. -/

namespace Sys2Proof.Machine

/-! ### Validation and stretch -/

/-- An operand that fails one of the tests of R82. -/
def BadOperands (c : Cfg) (pin align : Byte) (high low : Word) : Prop :=
  c.npins ≤ pin.toNat ∨ pin.toNat ∈ c.flashPins ∨ (c.npins : Int) ≤ align.toInt
    ∨ (high + low).toInt ≤ 0 ∨ high + low < high

theorem validate_eq_none_iff (c : Cfg) (pin align : Byte) (high low : Word) :
    validate c pin align high low = none ↔ ¬BadOperands c pin align high low := by
  unfold validate BadOperands
  split_ifs <;> simp_all

/-- The durations that R22 allows in a descriptor of an enabled pin. -/
structure ValidDurations (duty period : Word) : Prop where
  duty_le : duty ≤ period
  pos : 0#32 < period
  lt : period < 0x80000000#32

/-- The least multiple of `b` at or above `a` (R83). -/
theorem ceilDiv_mul_bounds (a b : Nat) (hb : 0 < b) : a ≤ ceilDiv a b * b ∧ ceilDiv a b * b < a + b := by
  have hle : ceilDiv a b * b ≤ a + b - 1 := Nat.div_mul_le_self _ _
  have hlt : a + b - 1 < ceilDiv a b * b + b := Nat.lt_div_mul_add hb
  omega

/-- A word that is positive as a signed number is positive, and below 2^31, as an unsigned one. -/
theorem toNat_bounds_of_toInt_pos {w : Word} (h : 0 < w.toInt) : 0 < w.toNat ∧ w.toNat < 2 ^ 31 := by
  rw [BitVec.toInt_eq_toNat_cond] at h
  split at h <;> omega

/-- The stretched period (R83): the next multiple of a positive period below the minimum fits in 31 bits. -/
theorem stretched_toNat (c : Cfg) {period : Nat} (hpos : 0 < period) (hshort : period < c.minServiceCcys) :
    (BitVec.ofNat 32 (ceilDiv c.minServiceCcys period * period)).toNat = ceilDiv c.minServiceCcys period * period
      ∧ ceilDiv c.minServiceCcys period * period < 2 ^ 31 := by
  obtain ⟨_, hlt⟩ := ceilDiv_mul_bounds c.minServiceCcys period hpos
  obtain ⟨_, _, _, _, _, ⟨_, hmin⟩, _⟩ := c.valid
  rw [BitVec.toNat_ofNat]
  omega

/-- What step `V` makes of the durations (R83): nothing where the period meets the minimum or neither phase is empty, else
the least multiple of the period that meets it, with the empty phase empty. -/
theorem stretch_cases (c : Cfg) (high low : Word) :
    (c.minServiceCcys ≤ (high + low).toNat ∨ (high ≠ 0#32 ∧ low ≠ 0#32)) ∧ stretch c high low = (high, high + low)
      ∨ ((high + low).toNat < c.minServiceCcys ∧ (high = 0#32 ∨ low = 0#32))
        ∧ ∃ period, period = BitVec.ofNat 32 (ceilDiv c.minServiceCcys (high + low).toNat * (high + low).toNat)
          ∧ stretch c high low = (if high = 0#32 then 0#32 else period, period) := by
  unfold stretch
  dsimp only
  by_cases hshort : (high + low).toNat < c.minServiceCcys
  · by_cases hhigh : high = 0#32
    · exact .inr ⟨⟨hshort, .inl hhigh⟩, _, rfl, by rw [if_pos hshort, if_pos hhigh, if_pos hhigh, hhigh]⟩
    · by_cases hlow : low = 0#32
      · exact .inr ⟨⟨hshort, .inr hlow⟩, _, rfl, by rw [if_pos hshort, if_neg hhigh, if_pos hlow, if_neg hhigh]⟩
      · exact .inl ⟨.inr ⟨hhigh, hlow⟩, by rw [if_pos hshort, if_neg hhigh, if_neg hlow]⟩
  · exact .inl ⟨.inl (by omega), by rw [if_neg hshort]⟩

/-- The durations of a validated start meet R22. -/
theorem stretch_valid {c : Cfg} {pin align : Byte} {high low : Word} (h : ¬BadOperands c pin align high low) :
    ValidDurations (stretch c high low).1 (stretch c high low).2 := by
  simp only [BadOperands, not_or, not_le, BitVec.not_lt] at h
  obtain ⟨_, _, _, hpos, hle⟩ := h
  obtain ⟨h0, h31⟩ := toNat_bounds_of_toInt_pos hpos
  obtain ⟨_, hs⟩ | ⟨⟨hshort, _⟩, period, hperiod, hs⟩ := stretch_cases c high low <;> rw [hs]
  · exact ⟨hle, BitVec.lt_def.mpr h0, BitVec.lt_def.mpr h31⟩
  · obtain ⟨hn, hlt⟩ := stretched_toNat c h0 hshort
    obtain ⟨hmin, _⟩ := ceilDiv_mul_bounds c.minServiceCcys (high + low).toNat h0
    rw [← hperiod] at hn
    refine ⟨?_, BitVec.lt_def.mpr ?_, BitVec.lt_def.mpr ?_⟩
    · show (if high = 0#32 then 0#32 else period) ≤ period
      split
      · exact BitVec.le_def.mpr (Nat.zero_le _)
      · exact BitVec.le_refl _
    · show 0 < period.toNat
      omega
    · show period.toNat < 2 ^ 31
      omega

/-- Settles O14: step `V` fails exactly with a bad operand (`validate_eq_none_iff`), and else goes on with the durations
of `stretch_cases`. -/
theorem startValidatesAndStretches : Obligations.StartValidatesAndStretches := by
  intro s i hi hl hk
  have hexec : exec i s = .next s.stepValidate := by
    rw [exec_start s i hi hl (by rw [hk]; nofun), State.startStep, hk]
  rw [hexec]
  refine ⟨fun hbad => ?_, fun hgood => ?_⟩
  · cases hv : validate s.cfg s.cmdF.pin s.cmdF.align s.cmdF.high s.cmdF.low with
    | none => exact absurd hbad ((validate_eq_none_iff _ _ _ _ _).mp hv)
    | some cause => simp only [State.stepValidate, hv, fail_eq, endCommand_f]
  · have hv := (validate_eq_none_iff s.cfg s.cmdF.pin s.cmdF.align s.cmdF.high s.cmdF.low).mpr hgood
    have hvalid := stretch_valid hgood
    refine ⟨_, _, by simp only [State.stepValidate, hv], hvalid.duty_le, hvalid.pos, hvalid.lt, ?_⟩
    simp only [not_or, not_le] at hgood
    obtain ⟨_, _, _, hpos, _⟩ := hgood
    obtain ⟨h0, _⟩ := toNat_bounds_of_toInt_pos hpos
    obtain ⟨hcase, hs⟩ | ⟨⟨hshort, hempty⟩, period, hperiod, hs⟩ := stretch_cases s.cfg s.cmdF.high s.cmdF.low
    · rw [hs]
      refine ⟨fun _ => ⟨rfl, rfl⟩, fun hlt hzero => ?_⟩
      obtain hmin | ⟨hhigh, hlow⟩ := hcase
      · omega
      · exact absurd hzero (not_or.mpr ⟨hhigh, hlow⟩)
    · rw [hs]
      refine ⟨fun hcase => ?_, fun _ _ => ?_⟩
      · obtain hmin | ⟨hhigh, hlow⟩ := hcase
        · omega
        · exact absurd hempty (not_or.mpr ⟨hhigh, hlow⟩)
      · obtain ⟨hmin, hleast⟩ := ceilDiv_mul_bounds s.cfg.minServiceCcys _ h0
        rw [← (stretched_toNat s.cfg h0 hshort).1, ← hperiod] at hmin hleast
        refine ⟨⟨ceilDiv s.cfg.minServiceCcys (s.cmdF.high + s.cmdF.low).toNat, ?_⟩, hmin, hleast, rfl⟩
        rw [hperiod]
        exact (stretched_toNat s.cfg h0 hshort).1

/-- Settles O21: at its two waiting ends a start takes the step `awaitSet`. -/
theorem startEndsWhenRequestConsumed : Obligations.StartEndsWhenRequestConsumed := by
  intro s i hi hl hk
  have hbusy : s.phaseF ≠ .idle := by
    obtain hk | hk := hk <;> rw [hk] <;> nofun
  have hexec : exec i s = .next s.awaitSet := by
    rw [exec_start s i hi hl hbusy]
    obtain hk | hk := hk <;> rw [State.startStep, hk]
  rw [hexec, State.awaitSet]
  refine ⟨decide_eq_true hk, fun h => ?_, fun h => ?_⟩
  · rw [if_pos h, endCommand_f]
  · rw [if_neg h]

/-! ### What a port does -/

/-- The next atomic step of the command in port F's latch (R12). -/
def State.latchedStepF (s : State) : State :=
  match s.cmdF.op with
  | .startUs => s.startStep
  | .startCcy => s.startStep
  | .stop => s.stopStepF
  | .setcb => s.setcbStep

theorem exec_latchedF {s : State} (hb : s.phaseF ≠ .idle) : exec s.cmdF.instr s = .next s.latchedStepF := by
  unfold State.latchedStepF
  cases hop : s.cmdF.op
  case startUs | startCcy => exact exec_start s _ (by simp [LatchF.instr, hop, Instr.isStart]) rfl hb
  case stop => simp [LatchF.instr, hop, exec, execStop, State.onPortF, hb]
  case setcb => simp [LatchF.instr, hop, exec, execSetcb, State.onPortF, hb]

theorem exec_latchedI {s : State} (hb : s.phaseI ≠ .idle) : exec s.cmdI.instr s = .next s.stopStepI := by
  simp [LatchI.instr, exec, execIstop, State.onPortI, hb]

/-- The acceptance of a command of port F (R60). -/
def State.acceptF (s : State) : Instr → State
  | .startUs autoPwm align pin => s.acceptStart .startUs (us2Ccy s.cfg) autoPwm align pin
  | .startCcy autoPwm align pin => s.acceptStart .startCcy id autoPwm align pin
  | .stop pin => s.acceptStop pin
  | .setcb en => s.acceptSetcb en
  | .istop _ => s
  | .service => s

theorem exec_acceptF {s : State} {i : Instr} (hi : i.port = .f) (h : s.phaseF = .idle) :
    exec i s = .next (s.acceptF i) := by
  cases i
  case istop | service => cases hi
  case startUs | startCcy | stop | setcb => exact congrArg Host.Outcome.next (if_pos h)

theorem exec_acceptI {s : State} {i : Instr} (hi : i.port = .i) (h : s.phaseI = .idle) :
    ∃ pin, exec i s = .next (s.acceptIstop pin) := by
  cases i <;> cases hi
  case istop pin => exact ⟨pin, congrArg Host.Outcome.next (if_pos h)⟩

/-- What one atomic step of a stop can do (R100 to R106). -/
inductive StopMove (s : State) (port : CmdPort) : StopStep → State → Prop
  | dormant (h : s.timerRunning = false) : StopMove s port .t0 (s.endCommand port false)
  | running (h : s.timerRunning = true) : StopMove s port .t0 (s.goStop port .t1)
  | found (h : (s.stopPin port).toNat < s.cfg.npins) : StopMove s port .t1 ((s.setLive port true).goStop port .t2)
  | notFound : StopMove s port .t1 ((s.setLive port false).goStop port .t5)
  | publish (h : s.toDisable = pinNone) :
    StopMove s port .t2 (({ s with toDisable := s.stopPin port } : State).goStop port .t3)
  | waitPublish (h : s.toDisable ≠ pinNone) : StopMove s port .t2 s
  | kick : StopMove s port .t3 (s.kick.goStop port .t4)
  | consumed (h : s.toDisable = pinNone) : StopMove s port .t4 (s.goStop port .t5)
  | waitConsumed (h : s.toDisable ≠ pinNone) : StopMove s port .t4 s
  | tearDown : StopMove s port .t5 (s.deinitTimer.endCommand port true)
  | done : StopMove s port .t5 (s.endCommand port true)

theorem stopMove (s : State) (port : CmdPort) (k : StopStep) : StopMove s port k (s.stopStep port k) := by
  cases k <;> simp only [State.stopStep]
  case t0 =>
    split
    · next h => exact .running h
    · next h => exact .dormant (by simpa using h)
  case t1 =>
    split
    · next h =>
      rw [h]
      refine .found ?_
      simp only [State.stopFinds, Bool.and_eq_true, decide_eq_true_eq] at h
      exact h.1
    · next h =>
      rw [eq_false_of_ne_true h]
      exact .notFound
  case t2 =>
    split
    · next h => exact .publish h
    · next h => exact .waitPublish h
  case t3 => exact .kick
  case t4 =>
    split
    · next h => exact .consumed h
    · next h => exact .waitConsumed h
  case t5 =>
    split
    · exact .tearDown
    · exact .done

/-! ### The commands and the slots -/

/-- Port F's part of `CommandsCoherent`: its phase, its latch and the set slot. -/
structure PortFCoherent (s : State) : Prop where
  phase : s.cmdF.hasPhase s.phaseF
  valid : s.phaseF.pastValidation = true → s.cmdF.Valid s.cfg
  slot : s.toSet = pinNone ∨ (s.phaseF.awaitsSet = true ∧ s.toSet = s.cmdF.pin)
  found : s.phaseF = .t .t2 → s.cmdF.pin.toNat < s.cfg.npins

/-- The disable slot's part of `CommandsCoherent`. -/
def DisableCoherent (s : State) : Prop := s.toDisable = pinNone ∨ s.toDisable.toNat < s.cfg.npins

/-- Port I's part of `CommandsCoherent`. -/
def PortICoherent (s : State) : Prop := s.phaseI = .t .t2 → s.cmdI.pin.toNat < s.cfg.npins

theorem commandsCoherent_iff (s : State) :
    CommandsCoherent s ↔ PortFCoherent s ∧ DisableCoherent s ∧ PortICoherent s :=
  ⟨fun ⟨hphase, hvalid, hslot, hdis, hfound, hI⟩ => ⟨⟨hphase, hvalid, hslot, hfound⟩, hdis, hI⟩,
    fun ⟨⟨hphase, hvalid, hslot, hfound⟩, hdis, hI⟩ => ⟨hphase, hvalid, hslot, hdis, hfound, hI⟩⟩

theorem PortFCoherent.of_same {s t : State} (h : PortFCoherent s) (hc : t.cfg = s.cfg) (hl : t.cmdF = s.cmdF)
    (hk : t.phaseF = s.phaseF) (hs : t.toSet = s.toSet) : PortFCoherent t where
  phase := by rw [hl, hk]; exact h.phase
  valid := by rw [hc, hl, hk]; exact h.valid
  slot := by rw [hl, hk, hs]; exact h.slot
  found := by rw [hc, hl, hk]; exact h.found

theorem DisableCoherent.of_same {s t : State} (h : DisableCoherent s) (hc : t.cfg = s.cfg)
    (hd : t.toDisable = s.toDisable) : DisableCoherent t := by
  rwa [DisableCoherent, hc, hd]

theorem PortICoherent.of_same {s t : State} (h : PortICoherent s) (hc : t.cfg = s.cfg) (hl : t.cmdI = s.cmdI)
    (hk : t.phaseI = s.phaseI) : PortICoherent t := by
  rwa [PortICoherent, hc, hl, hk]

/-- The commands and the slots untouched. -/
theorem CommandsCoherent.of_same {s t : State} (h : CommandsCoherent s) (hc : t.cfg = s.cfg) (hF : t.cmdF = s.cmdF)
    (hI : t.cmdI = s.cmdI) (hkF : t.phaseF = s.phaseF) (hkI : t.phaseI = s.phaseI) (hS : t.toSet = s.toSet)
    (hD : t.toDisable = s.toDisable) : CommandsCoherent t := by
  obtain ⟨hf, hd, hi⟩ := (commandsCoherent_iff s).mp h
  exact (commandsCoherent_iff t).mpr ⟨hf.of_same hc hF hkF hS, hd.of_same hc hD, hi.of_same hc hI hkI⟩

/-- No set request is outstanding but at the phases that wait for one (R88). -/
theorem PortFCoherent.toSet_eq {s : State} (h : PortFCoherent s) (hk : s.phaseF.awaitsSet = false) :
    s.toSet = pinNone := by
  obtain h | ⟨h, _⟩ := h.slot
  · exact h
  · rw [hk] at h
    cases h

/-- Port F at no step of a start after its validation, with the set slot empty. -/
theorem PortFCoherent.of_slot_free {t : State} (hphase : t.cmdF.hasPhase t.phaseF)
    (hk : t.phaseF.pastValidation = false) (hs : t.toSet = pinNone)
    (hfound : t.phaseF = .t .t2 → t.cmdF.pin.toNat < t.cfg.npins) : PortFCoherent t :=
  ⟨hphase, by rw [hk]; nofun, .inl hs, hfound⟩

/-- Port F idle, with the set slot empty. -/
theorem PortFCoherent.of_idle {t : State} (hk : t.phaseF = .idle) (hs : t.toSet = pinNone) : PortFCoherent t :=
  .of_slot_free (by rw [hk]; trivial) (by rw [hk]; rfl) hs (by rw [hk]; nofun)

/-- The phases after validation are steps of a start (R81). -/
theorem hasPhase_iff_of_pastValidation (c : LatchF) {k : PhaseF} (hk : k.pastValidation = true) :
    c.hasPhase k ↔ c.op = .startUs ∨ c.op = .startCcy := by
  cases k
  case idle | v | t | c0 | c1 => cases hk
  all_goals exact Iff.rfl

/-- A validated start goes on with the same pin and durations. -/
theorem PortFCoherent.goOn {s t : State} (h : PortFCoherent s) (hs : s.phaseF.pastValidation = true)
    (ht : t.phaseF.pastValidation = true) (hc : t.cfg = s.cfg) (hl : t.cmdF = { s.cmdF with live := t.cmdF.live })
    (hslot : t.toSet = pinNone ∨ (t.phaseF.awaitsSet = true ∧ t.toSet = t.cmdF.pin)) : PortFCoherent t where
  phase := by
    rw [hasPhase_iff_of_pastValidation _ ht, hl]
    exact (hasPhase_iff_of_pastValidation _ hs).mp h.phase
  valid _ := by
    rw [hc, hl]
    exact h.valid hs
  slot := hslot
  found hk := by
    rw [hk] at ht
    cases ht

theorem LatchF.Valid.pin_lt {c : LatchF} {cfg : Cfg} (h : c.Valid cfg) : c.pin.toNat < 32 :=
  Nat.lt_of_lt_of_le h.1 cfg.valid.2.1

theorem PortFCoherent.stepValidate {s : State} (h : PortFCoherent s) (hk : s.phaseF = .v) :
    PortFCoherent s.stepValidate := by
  have hfree : s.toSet = pinNone := h.toSet_eq (by rw [hk]; rfl)
  unfold State.stepValidate
  split
  · exact .of_idle rfl hfree
  · next hv =>
    have hgood := (validate_eq_none_iff _ _ _ _ _).mp hv
    have hvalid := stretch_valid hgood
    refine ⟨?_, fun _ => ⟨?_, hvalid.duty_le, hvalid.pos, hvalid.lt⟩, .inl hfree, nofun⟩
    · have hphase := h.phase
      rw [hk] at hphase
      exact hphase
    · exact Nat.lt_of_not_le (not_or.mp hgood).1

theorem PortFCoherent.publishSet {s : State} (h : PortFCoherent s) (hs : s.phaseF.pastValidation = true) {k : PhaseF}
    (hk : k.pastValidation = true) (ha : k.awaitsSet = true) : PortFCoherent (s.publishSet k) := by
  unfold State.publishSet
  split
  · exact h.goOn hs hk rfl rfl (.inr ⟨ha, rfl⟩)
  · exact h

theorem PortFCoherent.awaitSet {s : State} (h : PortFCoherent s) : PortFCoherent s.awaitSet := by
  unfold State.awaitSet
  split
  · next hfree => exact .of_idle rfl hfree
  · exact h

theorem PortFCoherent.startStep {s : State} (h : PortFCoherent s) : PortFCoherent s.startStep := by
  have stage : ∀ (t : State), s.phaseF.pastValidation = true → s.phaseF.awaitsSet = false →
      t.phaseF.pastValidation = true → t.cfg = s.cfg → t.cmdF = { s.cmdF with live := t.cmdF.live } →
      t.toSet = s.toSet → PortFCoherent t :=
    fun t hs ha ht hc hl hset => h.goOn hs ht hc hl (.inl (hset.trans (h.toSet_eq ha)))
  cases hk : s.phaseF <;> simp only [State.startStep, hk]
  case v => exact h.stepValidate hk
  case f1 | f2 | f3 | f5 | f6 | f7 | f8 | l5 | l7 =>
    exact stage _ (by rw [hk]; rfl) (by rw [hk]; rfl) rfl rfl rfl rfl
  case f4 | l6 =>
    refine stage _ (by rw [hk]; rfl) (by rw [hk]; rfl) ?_ rfl rfl rfl
    dsimp only [State.goF]
    split <;> rfl
  case f9 => split <;> exact stage _ (by rw [hk]; rfl) (by rw [hk]; rfl) rfl rfl rfl rfl
  case f10 | l8 => exact h.publishSet (by rw [hk]; rfl) rfl rfl
  case f11 =>
    obtain hfree | ⟨_, hpin⟩ := h.slot
    · unfold State.ensureTimer
      split <;> exact h.goOn (by rw [hk]; rfl) rfl (by simp) (by simp) (.inl (by simpa using hfree))
    · unfold State.ensureTimer
      split <;> exact h.goOn (by rw [hk]; rfl) rfl (by simp) (by simp) (.inr ⟨rfl, by simpa using hpin⟩)
  case f12 | l9 => exact h.awaitSet
  case idle | t | c0 | c1 => exact h

theorem PortFCoherent.setcbStep {s : State} (h : PortFCoherent s) : PortFCoherent s.setcbStep := by
  unfold State.setcbStep
  split
  · next hk =>
    have hphase := h.phase
    rw [hk] at hphase
    exact .of_slot_free hphase rfl (h.toSet_eq (by rw [hk]; rfl)) nofun
  · next hk =>
    have hfree : s.toSet = pinNone := h.toSet_eq (by rw [hk]; rfl)
    unfold State.callbackLifecycle
    split_ifs <;> exact .of_idle rfl hfree
  · exact h

theorem PortFCoherent.stopStep {s : State} (h : PortFCoherent s) {k : StopStep} (hk : s.phaseF = .t k) :
    PortFCoherent (s.stopStep .f k) := by
  have hop : s.cmdF.op = .stop := by
    have hphase := h.phase
    rw [hk] at hphase
    exact hphase
  have hfree : s.toSet = pinNone := h.toSet_eq (by rw [hk]; rfl)
  have hmove := stopMove s .f k
  generalize s.stopStep .f k = t at hmove
  cases hmove with
  | dormant | tearDown | done => exact .of_idle rfl hfree
  | running | notFound | publish | consumed => exact .of_slot_free hop rfl hfree nofun
  | found hpin => exact .of_slot_free hop rfl hfree fun _ => hpin
  | kick => exact .of_slot_free (t := s.kick.goStop .f .t4) ((kick_cmdF s).symm ▸ hop) rfl (by simpa using hfree) nofun
  | waitPublish | waitConsumed => exact h

/-- What a stop, on either port, leaves of the disable slot. -/
theorem DisableCoherent.stopStep {s : State} (h : DisableCoherent s) {port : CmdPort} {k : StopStep}
    (hpin : k = .t2 → (s.stopPin port).toNat < s.cfg.npins) : DisableCoherent (s.stopStep port k) := by
  have hmove := stopMove s port k
  generalize s.stopStep port k = t at hmove
  cases hmove with
  | publish => cases port <;> exact .inr (hpin rfl)
  | waitPublish | waitConsumed => exact h
  | dormant | running | found | notFound | kick | consumed | tearDown | done =>
    exact h.of_same (by simp) (by simp)

theorem PortICoherent.stopStep {s : State} (h : PortICoherent s) {k : StopStep} : PortICoherent (s.stopStep .i k) := by
  have hmove := stopMove s .i k
  generalize s.stopStep .i k = t at hmove
  cases hmove with
  | found hpin => exact fun _ => hpin
  | waitPublish | waitConsumed => exact h
  | dormant | running | notFound | publish | kick | consumed | tearDown | done => nofun

/-! ### What a step of one port leaves alone -/

/-- A start leaves port I and the disable slot alone. -/
theorem startStep_keepsPortI (s : State) :
    s.startStep.cmdI = s.cmdI ∧ s.startStep.phaseI = s.phaseI ∧ s.startStep.toDisable = s.toDisable := by
  cases hk : s.phaseF <;> simp only [State.startStep, hk, and_self]
  case v => unfold State.stepValidate; split <;> exact ⟨rfl, rfl, rfl⟩
  case f1 | f2 | f3 | f5 | f6 | f7 | f8 | l5 | l6 | l7 => exact ⟨rfl, rfl, rfl⟩
  case f9 => split <;> exact ⟨rfl, rfl, rfl⟩
  case f10 | l8 => unfold State.publishSet; split <;> exact ⟨rfl, rfl, rfl⟩
  case f11 => unfold State.ensureTimer; split <;> exact ⟨by simp, by simp, by simp⟩
  case f12 | l9 => unfold State.awaitSet; split <;> exact ⟨rfl, rfl, rfl⟩

/-- A `SETCB` leaves port I and the disable slot alone. -/
theorem setcbStep_keepsPortI (s : State) :
    s.setcbStep.cmdI = s.cmdI ∧ s.setcbStep.phaseI = s.phaseI ∧ s.setcbStep.toDisable = s.toDisable := by
  unfold State.setcbStep State.callbackLifecycle
  split
  · exact ⟨rfl, rfl, rfl⟩
  · split_ifs <;> exact ⟨rfl, rfl, rfl⟩
  · exact ⟨rfl, rfl, rfl⟩

/-- A stop on port F leaves port I alone. -/
theorem stopStep_f_keepsPortI (s : State) (k : StopStep) :
    (s.stopStep .f k).cmdI = s.cmdI ∧ (s.stopStep .f k).phaseI = s.phaseI := by
  have hmove := stopMove s .f k
  generalize s.stopStep .f k = t at hmove
  cases hmove <;> simp

/-- A stop on port I leaves port F and the set slot alone. -/
theorem stopStep_i_keepsPortF (s : State) (k : StopStep) :
    (s.stopStep .i k).cmdF = s.cmdF ∧ (s.stopStep .i k).phaseF = s.phaseF ∧ (s.stopStep .i k).toSet = s.toSet := by
  have hmove := stopMove s .i k
  generalize s.stopStep .i k = t at hmove
  cases hmove <;> simp

/-! ### The commands, through every step -/

theorem CommandsCoherent.startStep {s : State} (h : CommandsCoherent s) : CommandsCoherent s.startStep := by
  obtain ⟨hf, hd, hi⟩ := (commandsCoherent_iff s).mp h
  obtain ⟨hl, hp, hdis⟩ := startStep_keepsPortI s
  have hc := (CommandKeeps.startStep s).cfg
  exact (commandsCoherent_iff _).mpr ⟨hf.startStep, hd.of_same hc hdis, hi.of_same hc hl hp⟩

theorem CommandsCoherent.setcbStep {s : State} (h : CommandsCoherent s) : CommandsCoherent s.setcbStep := by
  obtain ⟨hf, hd, hi⟩ := (commandsCoherent_iff s).mp h
  obtain ⟨hl, hp, hdis⟩ := setcbStep_keepsPortI s
  have hc := (CommandKeeps.setcbStep s).cfg
  exact (commandsCoherent_iff _).mpr ⟨hf.setcbStep, hd.of_same hc hdis, hi.of_same hc hl hp⟩

theorem CommandsCoherent.stopStepF {s : State} (h : CommandsCoherent s) : CommandsCoherent s.stopStepF := by
  obtain ⟨hf, hd, hi⟩ := (commandsCoherent_iff s).mp h
  unfold State.stopStepF
  split
  · next k hk =>
    obtain ⟨hl, hp⟩ := stopStep_f_keepsPortI s k
    have hpin : k = .t2 → (s.stopPin .f).toNat < s.cfg.npins := fun h2 => hf.found (by rw [hk, h2])
    exact (commandsCoherent_iff _).mpr ⟨hf.stopStep hk, hd.stopStep hpin,
      hi.of_same (CommandKeeps.stopStep s .f k).cfg hl hp⟩
  · exact h

theorem CommandsCoherent.stopStepI {s : State} (h : CommandsCoherent s) : CommandsCoherent s.stopStepI := by
  obtain ⟨hf, hd, hi⟩ := (commandsCoherent_iff s).mp h
  unfold State.stopStepI
  split
  · next k hk =>
    obtain ⟨hl, hp, hs⟩ := stopStep_i_keepsPortF s k
    have hpin : k = .t2 → (s.stopPin .i).toNat < s.cfg.npins := fun h2 => hi (by rw [hk, h2])
    exact (commandsCoherent_iff _).mpr ⟨hf.of_same (CommandKeeps.stopStep s .i k).cfg hl hp hs, hd.stopStep hpin,
      hi.stopStep⟩
  · exact h

theorem CommandsCoherent.latchedStepF {s : State} (h : CommandsCoherent s) : CommandsCoherent s.latchedStepF := by
  unfold State.latchedStepF
  split
  exacts [h.startStep, h.startStep, h.stopStepF, h.setcbStep]

/-- The acceptance of a command while port F is idle (R60). -/
theorem CommandsCoherent.acceptF {s : State} (h : CommandsCoherent s) (hk : s.phaseF = .idle) (i : Instr) :
    CommandsCoherent (s.acceptF i) := by
  obtain ⟨hf, hd, hi⟩ := (commandsCoherent_iff s).mp h
  have hfree : s.toSet = pinNone := hf.toSet_eq (by rw [hk]; rfl)
  cases i
  case startUs =>
    exact (commandsCoherent_iff _).mpr ⟨.of_slot_free (.inl rfl) rfl hfree nofun, hd.of_same rfl rfl, hi.of_same rfl rfl rfl⟩
  case startCcy =>
    exact (commandsCoherent_iff _).mpr ⟨.of_slot_free (.inr rfl) rfl hfree nofun, hd.of_same rfl rfl, hi.of_same rfl rfl rfl⟩
  case stop | setcb =>
    exact (commandsCoherent_iff _).mpr ⟨.of_slot_free rfl rfl hfree nofun, hd.of_same rfl rfl, hi.of_same rfl rfl rfl⟩
  case istop | service => exact h

theorem CommandsCoherent.acceptIstop {s : State} (h : CommandsCoherent s) (pin : Byte) :
    CommandsCoherent (s.acceptIstop pin) := by
  obtain ⟨hf, hd, _⟩ := (commandsCoherent_iff s).mp h
  exact (commandsCoherent_iff _).mpr ⟨hf.of_same rfl rfl rfl rfl, hd.of_same rfl rfl, nofun⟩

/-- A `SERVICE` leaves the ports alone and both slots empty (`service_ports`). -/
theorem CommandsCoherent.service {s : State} (h : CommandsCoherent s) : CommandsCoherent s.service := by
  have hk := SchedulerKeeps.service s
  have hp := service_ports s
  have hempty : CommandsCoherent { s with toSet := pinNone, toDisable := pinNone } := by
    obtain ⟨⟨hphase, hvalid, _, hfound⟩, _, hi⟩ := (commandsCoherent_iff s).mp h
    exact (commandsCoherent_iff _).mpr ⟨⟨hphase, hvalid, .inl rfl, hfound⟩, .inl rfl, hi⟩
  exact hempty.of_same hk.cfg hk.cmdF hk.cmdI hk.phaseF hk.phaseI hp.toSet hp.toDisable

theorem does_commandsCoherent {e : Input} {s t : State} (h : Does s e t) (hc : CommandsCoherent s) :
    CommandsCoherent t := by
  cases h with
  | noStepF | noStepI | noIrq | noRead | noWrite => exact hc
  | portF hb _ he =>
    rw [exec_latchedF hb] at he
    cases he
    exact hc.latchedStepF
  | portI hb he =>
    rw [exec_latchedI hb] at he
    cases he
    exact hc.stopStepI
  | service => exact hc.service
  | elapse n => exact hc.of_same (by simp) (by simp) (by simp) (by simp) (by simp) (by simp) (by simp)
  | read | storeF | storeI | failF | failI => exact hc.of_same rfl rfl rfl rfl rfl rfl rfl
  | acceptF _ _ _ w i hk hi he =>
    have hc' : CommandsCoherent { s with cmdWordF := w } := hc.of_same rfl rfl rfl rfl rfl rfl rfl
    rw [exec_acceptF hi (s := { s with cmdWordF := w }) hk] at he
    cases he
    exact hc'.acceptF hk i
  | acceptI _ _ _ w i hk hi he =>
    have hc' : CommandsCoherent { s with cmdWordI := w } := hc.of_same rfl rfl rfl rfl rfl rfl rfl
    obtain ⟨pin, hacc⟩ := exec_acceptI hi (s := { s with cmdWordI := w }) hk
    rw [hacc] at he
    cases he
    exact hc'.acceptIstop pin
  | write =>
    unfold State.writeReg
    split <;> exact hc.of_same rfl rfl rfl rfl rfl rfl rfl
  | reset => exact commandsCoherent_of_idle rfl rfl rfl rfl

/-! ### The periods, through every step -/

/-- The enabled pins, their periods and the staged one untouched. -/
theorem PeriodsPositive.of_kept {s t : State} (h : PeriodsPositive s) (he : t.enabled = s.enabled)
    (hd : ∀ p, (t.desc p).periodCcys = (s.desc p).periodCcys)
    (hstaged : t.phaseF.pastStaging = true →
      s.phaseF.pastStaging = true ∧ t.cmdF = { s.cmdF with live := t.cmdF.live }) : PeriodsPositive t := by
  obtain ⟨hpos, hperiod⟩ := h
  refine ⟨fun p hp hen => ?_, fun ht => ?_⟩
  · rw [State.isEnabled, he] at hen
    rw [hd]
    exact hpos p hp hen
  · obtain ⟨hs, hl⟩ := hstaged ht
    rw [hd, hl]
    exact hperiod hs

/-- The enabled pins and the descriptors untouched, and port F not past the staging of a start's durations. -/
theorem PeriodsPositive.of_wt {s t : State} (h : PeriodsPositive s) (he : t.enabled = s.enabled) (hw : t.wt = s.wt)
    (hk : t.phaseF.pastStaging = false) : PeriodsPositive t :=
  h.of_kept he (fun p => by rw [State.desc, State.desc, hw]) (by rw [hk]; nofun)

/-- Step `F2` stages the period of a validated start (R84). -/
theorem PeriodsPositive.stagePeriod {s : State} (h : PeriodsPositive s) (hv : s.cmdF.Valid s.cfg) (k : PhaseF) :
    PeriodsPositive ((s.modDesc s.cmdF.pin.toNat fun d => { d with periodCcys := s.cmdF.period }).goF k) := by
  have hperiod : ∀ q, (((s.modDesc s.cmdF.pin.toNat fun d => { d with periodCcys := s.cmdF.period }).goF k).desc
      q).periodCcys = if q = s.cmdF.pin.toNat then s.cmdF.period else (s.desc q).periodCcys := by
    intro q
    rw [goF_desc, desc_modDesc _ _ _ _ hv.pin_lt]
    split <;> rfl
  refine ⟨fun q hq hen => ?_, fun _ => ?_⟩
  · rw [hperiod]
    split
    · exact ⟨hv.2.2.1, hv.2.2.2⟩
    · exact h.1 q hq hen
  · rw [hperiod]
    exact if_pos rfl

theorem PeriodsPositive.startStep {s : State} (hc : CommandsCoherent s) (h : PeriodsPositive s) :
    PeriodsPositive s.startStep := by
  obtain ⟨hf, _⟩ := (commandsCoherent_iff s).mp hc
  have stage : ∀ (f : Desc → Desc) (k : PhaseF), (∀ d, (f d).periodCcys = d.periodCcys) →
      (k.pastStaging = true → s.phaseF.pastStaging = true) →
      PeriodsPositive ((s.modDesc s.cmdF.pin.toNat f).goF k) := fun f k hp hk =>
    h.of_kept rfl (modDesc_keeps Desc.periodCcys s _ f hp) fun ht => ⟨hk ht, rfl⟩
  cases hk : s.phaseF <;> simp only [State.startStep, hk]
  case v =>
    unfold State.stepValidate
    split <;> exact h.of_wt rfl rfl rfl
  case f1 => exact stage _ _ (fun _ => rfl) nofun
  case f2 => exact h.stagePeriod (hf.valid (by rw [hk]; rfl)) .f3
  case f3 | f5 | f6 | f7 | f8 | l5 | l6 | l7 => exact stage _ _ (fun _ => rfl) fun _ => by rw [hk]; rfl
  case f4 => exact h.of_kept rfl (fun _ => rfl) fun _ => ⟨by rw [hk]; rfl, rfl⟩
  case f9 => split <;> exact h.of_kept rfl (fun _ => rfl) fun _ => ⟨by rw [hk]; rfl, rfl⟩
  case f10 | l8 =>
    unfold State.publishSet
    split
    · exact h.of_kept rfl (fun _ => rfl) fun _ => ⟨by rw [hk]; rfl, rfl⟩
    · exact h
  case f11 =>
    unfold State.ensureTimer
    split <;> exact h.of_kept (by simp) (by simp) fun _ => ⟨by rw [hk]; rfl, by simp⟩
  case f12 | l9 =>
    unfold State.awaitSet
    split
    · exact h.of_wt rfl rfl rfl
    · exact h
  case idle | t | c0 | c1 => exact h

theorem PeriodsPositive.setcbStep {s : State} (h : PeriodsPositive s) : PeriodsPositive s.setcbStep := by
  unfold State.setcbStep State.callbackLifecycle
  split
  · exact h.of_wt rfl rfl rfl
  · split_ifs <;> exact h.of_wt rfl rfl rfl
  · exact h

theorem PeriodsPositive.stopStepF {s : State} (h : PeriodsPositive s) : PeriodsPositive s.stopStepF := by
  unfold State.stopStepF
  split
  · next k hk =>
    have hmove := stopMove s .f k
    generalize s.stopStep .f k = t at hmove
    cases hmove with
    | waitPublish | waitConsumed => exact h
    | dormant | running | found | notFound | publish | kick | consumed | tearDown | done =>
      exact h.of_wt (by simp) (by simp) rfl
  · exact h

theorem PeriodsPositive.stopStepI {s : State} (h : PeriodsPositive s) : PeriodsPositive s.stopStepI := by
  unfold State.stopStepI
  split
  · next k _ =>
    obtain ⟨hl, hp, _⟩ := stopStep_i_keepsPortF s k
    refine h.of_kept (CommandKeeps.stopStep s .i k).enabled (fun p => ?_) fun ht => ⟨by rwa [hp] at ht, by rw [hl]⟩
    have hmove := stopMove s .i k
    generalize s.stopStep .i k = t at hmove
    cases hmove <;> simp [State.desc]
  · exact h

theorem PeriodsPositive.latchedStepF {s : State} (hc : CommandsCoherent s) (h : PeriodsPositive s) :
    PeriodsPositive s.latchedStepF := by
  unfold State.latchedStepF
  split
  exacts [h.startStep hc, h.startStep hc, h.stopStepF, h.setcbStep]

theorem PeriodsPositive.acceptF {s : State} (h : PeriodsPositive s) (i : Instr) : PeriodsPositive (s.acceptF i) := by
  cases i
  case startUs | startCcy | stop | setcb => exact h.of_wt rfl rfl rfl
  case istop | service => exact h

/-- A `SERVICE` enables no pin but that of the set request (R122, R139). -/
theorem service_isEnabled {s : State} {p : Nat} (hp : s.service.isEnabled p = true) :
    s.isEnabled p = true ∨ (s.toSet ≠ pinNone ∧ s.toSet.toNat = p) := by
  have happly : ∀ u : State, u.applyRequests.isEnabled p = true →
      u.isEnabled p = true ∨ (u.toSet ≠ pinNone ∧ u.toSet.toNat = p) := by
    intro u hu
    unfold State.applyRequests at hu
    split at hu
    · have hbit : (u.setEnabled ((u.enabled &&& ~~~ pinBit u.toDisable) ||| pinBit u.toSet)).isEnabled p = true := hu
      rw [isEnabled_setEnabled] at hbit
      have hor : maskBit u.enabled p = true ∨ maskBit (pinBit u.toSet) p = true := by
        unfold maskBit at hbit ⊢
        simp only [BitVec.getLsbD_or, BitVec.getLsbD_and, Bool.and_eq_true, Bool.or_eq_true] at hbit
        exact hbit.1.imp_left And.left
      refine hor.imp_right fun hset => ?_
      rw [maskBit_pinBit, decide_eq_true_eq] at hset
      exact ⟨hset.1, hset.2.1⟩
    · exact .inl hu
  have hrest : MasksShrink (s.enterService.readNow 0).applyRequests s.service :=
    ((MasksShrink.resolveSet (s.enterService.readNow 0).applyRequests (s.enterService.readNow 0).ccount).trans
      (.readNow _ 1)).trans (((MasksShrink.keptByScan s.beginService.2).scanLoop _ _ _ (.refl _)).trans (.rearm _ _))
  simpa using happly _ (hrest.enabled p hp)

/-- The pin a `SERVICE` enables is that of a start that has staged its durations (R84, R88). -/
theorem PeriodsPositive.service {s : State} (hc : CommandsCoherent s) (h : PeriodsPositive s) :
    PeriodsPositive s.service := by
  have hk := SchedulerKeeps.service s
  obtain ⟨hf, _⟩ := (commandsCoherent_iff s).mp hc
  refine ⟨fun p hp hen => ?_, fun hs => ?_⟩
  · rw [hk.periodCcys]
    obtain hen | ⟨hset, hpin⟩ := service_isEnabled hen
    · exact h.1 p hp hen
    · obtain ⟨hawait, hslot⟩ := hf.slot.resolve_left hset
      have hphase : s.phaseF.pastValidation = true ∧ s.phaseF.pastStaging = true := by
        revert hawait
        cases s.phaseF <;> simp [PhaseF.awaitsSet, PhaseF.pastValidation, PhaseF.pastStaging]
      obtain ⟨_, _, hpos, hlt⟩ := hf.valid hphase.1
      rw [← hpin, hslot, h.2 hphase.2]
      exact ⟨hpos, hlt⟩
  · rw [hk.phaseF] at hs
    rw [hk.cmdF, hk.periodCcys]
    exact h.2 hs

theorem does_periodsPositive {e : Input} {s t : State} (h : Does s e t) (hc : CommandsCoherent s)
    (hp : PeriodsPositive s) : PeriodsPositive t := by
  cases h with
  | noStepF | noStepI | noIrq | noRead | noWrite => exact hp
  | portF hb _ he =>
    rw [exec_latchedF hb] at he
    cases he
    exact hp.latchedStepF hc
  | portI hb he =>
    rw [exec_latchedI hb] at he
    cases he
    exact hp.stopStepI
  | service => exact hp.service hc
  | elapse n => exact hp.of_kept (by simp) (by simp) fun hs => ⟨by simpa using hs, by simp⟩
  | read | storeF | storeI | failF | failI => exact hp.of_kept rfl (fun _ => rfl) fun hs => ⟨hs, rfl⟩
  | acceptF _ _ _ w i hk hi he =>
    have hp' : PeriodsPositive { s with cmdWordF := w } := hp.of_kept rfl (fun _ => rfl) fun hs => ⟨hs, rfl⟩
    rw [exec_acceptF hi (s := { s with cmdWordF := w }) hk] at he
    cases he
    exact hp'.acceptF i
  | acceptI _ _ _ w i hk hi he =>
    obtain ⟨pin, hacc⟩ := exec_acceptI hi (s := { s with cmdWordI := w }) hk
    rw [hacc] at he
    cases he
    exact hp.of_kept rfl (fun _ => rfl) fun hs => ⟨hs, rfl⟩
  | write =>
    unfold State.writeReg
    split <;> exact hp.of_kept rfl (fun _ => rfl) fun hs => ⟨hs, rfl⟩
  | reset => exact periodsPositive_of_idle rfl rfl

/-- Settles O56: what each input can do keeps both invariants, the periods with the help of the commands. -/
theorem stepKeepsCommandsAndPeriods : Obligations.StepKeepsCommandsAndPeriods := by
  intro s t hc hp h
  have hc' : CommandsCoherent s.nextInput.2 := by rw [nextInput_eq]; exact hc
  have hp' : PeriodsPositive s.nextInput.2 := by rw [nextInput_eq]; exact hp
  have hdoes := does_of_step s t h
  exact ⟨does_commandsCoherent hdoes hc', does_periodsPositive hdoes hc' hp'⟩

end Sys2Proof.Machine
end

section
/-! PROOFS. Fair runs (R188): the timer goes on firing while its subsystem runs, a `SERVICE` follows every instant, and
every waiting step of either port completes. -/

namespace Sys2Proof.Machine

/-! ### The timer, through a step -/

theorem applyRequests_svcPending (s : State) : s.applyRequests.svcPending = s.svcPending := by
  unfold State.applyRequests
  split <;> rfl

theorem resolveSet_svcPending (s : State) (isrStart : Word) : (s.resolveSet isrStart).svcPending = s.svcPending := by
  unfold State.resolveSet
  split
  · rfl
  · dsimp only
    split <;> rfl

theorem rearm_svcPending (s : State) (deadline : Word) : (s.rearm deadline).svcPending = s.svcPending := by
  unfold State.rearm State.askCallback
  split <;> simp

/-- The scan raises no interrupt. -/
theorem keptByScan_noPending : KeptByScan fun s => s.svcPending = false where
  modDesc _ _ _ h := h
  setStateBit _ _ _ h := h
  gpioWrite _ _ _ h := h
  disable _ _ h := h
  readNow s n h := (readNow_svcPending s n).trans h
  cursor _ _ h := h

/-- A `SERVICE` ends with the timer armed and no interrupt pending (R121, R161). -/
theorem service_timer (s : State) : s.service.tArmed = true ∧ s.service.svcPending = false := by
  refine ⟨rfl, (rearm_svcPending _ _).trans (keptByScan_noPending.scanLoop _ _ _ ?_)⟩
  rw [State.beginService, readNow_svcPending, resolveSet_svcPending, applyRequests_svcPending, readNow_svcPending,
    enterService_svcPending]

theorem TimerCoherent.of_same {s t : State} (h : TimerCoherent s) (k : SameTimer s t) : TimerCoherent t := by
  rwa [TimerCoherent, k.tEnabled, k.timerRunning, k.svcPending, k.tArmed]

theorem TimerCoherent.move {s t : State} (h : TimerCoherent s) (k : TimerMove s t) : TimerCoherent t := by
  obtain ⟨hen, hrun, hdormant⟩ := h
  cases k with
  | same k => exact TimerCoherent.of_same ⟨hen, hrun, hdormant⟩ k
  | kick _ ha k =>
    refine TimerCoherent.of_same (s := { s with tArmed := true, tFireAt := _ }) ⟨hen, fun hr => ?_, fun hr => ?_⟩ k
    · exact ha ▸ hrun hr
    · have hunarmed := (hdormant hr).1
      rw [ha] at hunarmed
      cases hunarmed
  | init hr k =>
    exact TimerCoherent.of_same (s := s.initTimer) ⟨rfl, fun _ => (hdormant hr).2, fun h => (by cases h)⟩ k
  | deinit _ k =>
    exact TimerCoherent.of_same (s := s.deinitTimer) ⟨rfl, fun h => (by cases h), fun _ => ⟨rfl, rfl⟩⟩ k

theorem TimerCoherent.elapse {s : State} (h : TimerCoherent s) (n : Nat) : TimerCoherent (s.elapse n) := by
  obtain ⟨hen, hrun, hdormant⟩ := h
  unfold State.elapse
  split
  · next hfires =>
    refine ⟨hen, fun _ => rfl, fun hr => ?_⟩
    have hunarmed := (hdormant hr).1
    rw [hfires.1] at hunarmed
    cases hunarmed
  · exact ⟨hen, hrun, hdormant⟩

theorem does_timerCoherent {e : Input} {s t : State} (h : Does s e t) (hc : TimerCoherent s) : TimerCoherent t := by
  obtain k | ⟨rfl, _, hp, _⟩ | ⟨n, _, rfl⟩ | ⟨_, rfl⟩ := does_timer e s t h
  · exact hc.move k
  · obtain ⟨hen, _, hdormant⟩ := hc
    obtain ⟨harmed, hpending⟩ := service_timer s
    have k := SchedulerKeeps.service s
    refine ⟨by rw [k.tEnabled, k.timerRunning, hen], fun _ => by rw [harmed, hpending]; rfl, fun hr => ?_⟩
    rw [k.timerRunning] at hr
    rw [(hdormant hr).2] at hp
    cases hp
  · exact hc.elapse n
  · exact ⟨rfl, nofun, fun _ => ⟨rfl, rfl⟩⟩

/-! ### The count of an armed timer -/

/-- The cycles to the instant an armed timer fires at (R186). -/
def State.untilFire (s : State) : Nat := (s.tFireAt - s.ccount).toNat

/-- The remaining count of the timer is not more than the cycles to its instant (R184). -/
theorem timerRemaining_le (s : State) : s.timerRemaining ≤ s.untilFire := by
  unfold State.timerRemaining State.untilFire
  split
  · rw [BitVec.toInt_eq_toNat_cond]
    split <;> omega
  · omega

/-- Time that does not fire the timer is taken off its count. -/
theorem elapse_untilFire {s : State} {n : Nat} (hs : s.tArmed = true) (ht : (s.elapse n).tArmed = true) :
    (s.elapse n).untilFire + n = s.untilFire := by
  unfold State.elapse at ht ⊢
  split at ht
  · cases ht
  · next hlate =>
    rw [if_neg hlate]
    have hlt : n < (s.tFireAt - s.ccount).toNat := Nat.lt_of_not_le fun h => hlate ⟨hs, h⟩
    have hn : (BitVec.ofNat 32 n).toNat = n := by
      rw [BitVec.toNat_ofNat]
      omega
    show (s.tFireAt - (s.ccount + BitVec.ofNat 32 n)).toNat + n = (s.tFireAt - s.ccount).toNat
    rw [← sub_sub, BitVec.toNat_sub_of_le (BitVec.le_def.mpr (by omega)), hn]
    omega

/-- The kick brings the instant nearer (R89, R104). -/
theorem kick_untilFire {s t : State} (hk : s.cfg.kickCcys < s.timerRemaining)
    (h : SameTimer { s with tArmed := true, tFireAt := s.ccount + BitVec.ofNat 32 s.cfg.kickCcys } t) :
    t.untilFire ≤ s.untilFire := by
  have hcount : t.untilFire = s.cfg.kickCcys % 2 ^ 32 := by
    rw [State.untilFire, h.tFireAt, h.ccount, add_sub_cancel_left, BitVec.toNat_ofNat]
  have := timerRemaining_le s
  have := Nat.mod_le s.cfg.kickCcys (2 ^ 32)
  omega

/-- While the subsystem goes on running with the timer armed, a step brings its instant no further away, and time passing
brings it nearer. -/
theorem does_untilFire {e : Input} {s t : State} (h : Does s e t) (hs : s.timerRunning = true)
    (ht : t.timerRunning = true) (ha : s.tArmed = true) (ha' : t.tArmed = true) (hno : ¬s.serviceStarts e) :
    t.untilFire ≤ s.untilFire ∧ ∀ k, 0 < k → e = .elapse k → t.untilFire < s.untilFire := by
  cases e
  case elapse n =>
    cases h
    have hcount := elapse_untilFire ha ha'
    refine ⟨by omega, fun k hk he => ?_⟩
    cases he
    omega
  all_goals
    refine ⟨?_, fun _ _ he => by cases he⟩
    obtain k | ⟨_, hsvc⟩ | ⟨n, he, _⟩ | ⟨_, rfl⟩ := does_timer _ s t h
    · cases k with
      | same k => rw [State.untilFire, State.untilFire, k.tFireAt, k.ccount]
      | kick hk _ k => exact kick_untilFire hk k
      | init hr _ => rw [hs] at hr; cases hr
      | deinit _ k => rw [k.timerRunning] at ht; cases ht
    · exact absurd hsvc hno
    · cases he
    · cases ht

/-- While the subsystem goes on running a pending interrupt stays pending until it is taken. -/
theorem does_pending {e : Input} {s t : State} (h : Does s e t) (hs : s.timerRunning = true)
    (ht : t.timerRunning = true) (hp : s.svcPending = true) (hno : ¬s.serviceStarts e) : t.svcPending = true := by
  obtain k | ⟨_, hsvc⟩ | ⟨n, _, rfl⟩ | ⟨_, rfl⟩ := does_timer e s t h
  · cases k with
    | same k => exact k.svcPending.trans hp
    | kick _ _ k => exact k.svcPending.trans hp
    | init hr _ => rw [hs] at hr; cases hr
    | deinit _ k => rw [k.timerRunning] at ht; cases ht
  · exact absurd hsvc hno
  · unfold State.elapse
    split
    · rfl
    · exact hp
  · cases ht

/-! ### The steps of the ports -/

/-- Port I's next step leaves the machine as it is while it is not enabled (R103, R105). -/
theorem stopStepI_of_not_ready {s : State} (h : s.readyI = false) : s.stopStepI = s := by
  unfold State.stopStepI
  split
  · next k hk =>
    simp only [State.readyI, hk] at h
    have hmove := stopMove s .i k
    generalize s.stopStep .i k = t at hmove
    cases hmove with
    | waitPublish | waitConsumed => rfl
    | dormant | running | found | notFound | kick | tearDown | done => cases h
    | publish hfree | consumed hfree => simp [State.stopGuard, hfree] at h
  · rfl

/-- The steps to the end of a stop on port I, at most. -/
def PhaseI.stepsLeft : PhaseI → Nat
  | .idle => 0
  | .t .t5 => 1
  | .t .t4 => 2
  | .t .t3 => 3
  | .t .t2 => 4
  | .t .t1 => 5
  | .t .t0 => 6

/-- An enabled step of port I brings its stop nearer to its end. -/
theorem stopStepI_of_ready {s : State} (h : s.readyI = true) : s.stopStepI.phaseI.stepsLeft < s.phaseI.stepsLeft := by
  unfold State.stopStepI
  split
  · next k hk =>
    simp only [State.readyI, hk] at h
    rw [hk]
    have hmove := stopMove s .i k
    generalize s.stopStep .i k = t at hmove
    cases hmove with
    | waitPublish hfull | waitConsumed hfull => simp [State.stopGuard, hfull] at h
    | dormant | running | found | notFound | publish | kick | consumed | tearDown | done =>
      simp [PhaseI.stepsLeft]
  · next hk =>
    simp only [State.readyI, hk] at h
    cases h

/-- A stop on port I is ready when the disable slot is empty. -/
theorem readyI_of_free {s : State} (hb : s.phaseI ≠ .idle) (hd : s.toDisable = pinNone) : s.readyI = true := by
  unfold State.readyI
  split
  · next hk => exact absurd hk hb
  · next k _ => cases k <;> simp [State.stopGuard, hd]

/-- A step of port F leaves port I alone. -/
theorem latchedStepF_phaseI (s : State) : s.latchedStepF.phaseI = s.phaseI := by
  obtain ⟨_, hstart, _⟩ := startStep_keepsPortI s
  obtain ⟨_, hsetcb, _⟩ := setcbStep_keepsPortI s
  unfold State.latchedStepF
  split
  · exact hstart
  · exact hstart
  · unfold State.stopStepF
    split
    · next k _ => exact (stopStep_f_keepsPortI s k).2
    · rfl
  · exact hsetcb

/-- While port I is busy, a step leaves its phase alone or brings its stop nearer to its end. -/
theorem does_phaseI {e : Input} {s t : State} (h : Does s e t) (hb : s.phaseI ≠ .idle) :
    t.phaseI = s.phaseI ∨ t.phaseI.stepsLeft < s.phaseI.stepsLeft := by
  cases h with
  | noStepF | noStepI | noIrq | noRead | noWrite => exact .inl rfl
  | portF hbF _ he =>
    rw [exec_latchedF hbF] at he
    cases he
    exact .inl (latchedStepF_phaseI s)
  | portI _ he =>
    rw [exec_latchedI hb] at he
    cases he
    cases hready : s.readyI with
    | true => exact .inr (stopStepI_of_ready hready)
    | false => exact .inl (by rw [stopStepI_of_not_ready hready])
  | service => exact .inl (service_ports s).phaseI
  | elapse n => exact .inl (by simp)
  | read | storeF | storeI | failF | failI => exact .inl rfl
  | acceptF _ _ _ w i hk hi he =>
    rw [exec_acceptF hi (s := { s with cmdWordF := w }) hk] at he
    cases he
    cases i <;> exact .inl rfl
  | acceptI _ _ _ _ _ hk => exact absurd hk hb
  | write =>
    unfold State.writeReg
    split <;> exact .inl rfl
  | reset =>
    refine .inr ?_
    show 0 < s.phaseI.stepsLeft
    cases hk : s.phaseI with
    | idle => exact absurd hk hb
    | t k => cases k <;> decide

/-- The phases of port F whose step waits for a slot (R88, R90, R91, R103, R105). -/
def PhaseF.waits (k : PhaseF) : Prop := k ∈ [PhaseF.f10, .f12, .l8, .l9, .t .t2, .t .t4]

theorem PhaseF.waits.ne_idle {k : PhaseF} (h : k.waits) : k ≠ .idle := by
  rintro rfl
  simp [PhaseF.waits] at h

/-- A step of port F that waits for a slot, `free` saying that the slot is empty: it leaves its phase when the slot is,
and else the machine as it is. -/
def WaitsFor (s t : State) (free : Prop) : Prop := (free ∧ t.phaseF ≠ s.phaseF) ∨ (¬free ∧ t = s)

theorem publishSet_waitsFor {s : State} {k : PhaseF} (hk : s.phaseF ≠ k) :
    WaitsFor s (s.publishSet k) (s.toSet = pinNone) := by
  unfold State.publishSet
  split
  · next hfree => exact .inl ⟨hfree, hk.symm⟩
  · next hfull => exact .inr ⟨hfull, rfl⟩

theorem awaitSet_waitsFor {s : State} (hb : s.phaseF ≠ .idle) : WaitsFor s s.awaitSet (s.toSet = pinNone) := by
  unfold State.awaitSet
  split
  · next hfree => exact .inl ⟨hfree, hb.symm⟩
  · next hfull => exact .inr ⟨hfull, rfl⟩

theorem stopStep_f_waitsFor {s : State} {k : StopStep} (hk : s.phaseF = .t k) (hw : k = .t2 ∨ k = .t4) :
    WaitsFor s (s.stopStep .f k) (s.toDisable = pinNone) := by
  unfold WaitsFor
  rw [hk]
  have hmove := stopMove s .f k
  generalize s.stopStep .f k = t at hmove
  cases hmove with
  | publish hfree | consumed hfree => exact .inl ⟨hfree, by simp⟩
  | waitPublish hfull | waitConsumed hfull => exact .inr ⟨hfull, rfl⟩
  | dormant | running | found | notFound | kick | tearDown | done => simp at hw

/-- At a waiting phase the next step of port F waits for what `readyF` tests. -/
theorem latchedStepF_waitsFor {s : State} (hc : CommandsCoherent s) (hi : s.phaseI = .idle) (hw : s.phaseF.waits) :
    WaitsFor s s.latchedStepF (s.readyF = true) := by
  have hphase := ((commandsCoherent_iff s).mp hc).1.phase
  have start : s.cmdF.op = .startUs ∨ s.cmdF.op = .startCcy → s.latchedStepF = s.startStep := by
    rintro (h | h) <;> rw [State.latchedStepF, h]
  have stop : s.cmdF.op = .stop → s.latchedStepF = s.stopStepF := fun h => by rw [State.latchedStepF, h]
  simp only [PhaseF.waits, List.mem_cons, List.not_mem_nil, or_false] at hw
  obtain hk | hk | hk | hk | hk | hk := hw <;> rw [hk] at hphase <;>
    simp only [State.readyF, hi, hk, State.stopGuard, decide_true, Bool.true_and, decide_eq_true_eq]
  case inl | inr.inr.inl =>
    rw [start hphase, State.startStep, hk]
    exact publishSet_waitsFor (by rw [hk]; nofun)
  case inr.inl | inr.inr.inr.inl =>
    rw [start hphase, State.startStep, hk]
    exact awaitSet_waitsFor (by rw [hk]; nofun)
  case inr.inr.inr.inr.inl =>
    rw [stop hphase, State.stopStepF, hk]
    exact stopStep_f_waitsFor hk (.inl rfl)
  case inr.inr.inr.inr.inr =>
    rw [stop hphase, State.stopStepF, hk]
    exact stopStep_f_waitsFor hk (.inr rfl)

/-- Port F is ready when port I is idle and both slots are empty. -/
theorem readyF_of_free {s : State} (hb : s.phaseF ≠ .idle) (hi : s.phaseI = .idle) (hs : s.toSet = pinNone)
    (hd : s.toDisable = pinNone) : s.readyF = true := by
  unfold State.readyF
  rw [hi]
  cases hk : s.phaseF
  case idle => exact absurd hk hb
  case t k => cases k <;> simp [State.stopGuard, hd]
  all_goals simp [hs]

/-- A busy port F that is not ready while port I is idle is at a waiting phase. -/
theorem waits_of_not_ready {s : State} (hb : s.phaseF ≠ .idle) (hi : s.phaseI = .idle) (h : s.readyF = false) :
    s.phaseF.waits := by
  unfold State.readyF at h
  cases hk : s.phaseF <;> simp [hi, hk] at h hb
  case t k => cases k <;> simp [State.stopGuard] at h <;> simp [PhaseF.waits]
  all_goals simp [PhaseF.waits]

/-- A turn of port F while its step is not enabled changes nothing (R12). -/
theorem perform_portF_of_not_ready {s : State} (hc : CommandsCoherent s) (h : s.readyF = false) :
    perform .portF s = .next s := by
  show s.stepPortF = .next s
  unfold State.stepPortF
  split
  · next hturn =>
    obtain ⟨hi, hb⟩ := hturn
    rw [exec_latchedF hb]
    obtain ⟨hready, _⟩ | ⟨_, hsame⟩ := latchedStepF_waitsFor hc hi (waits_of_not_ready hb hi h)
    · rw [h] at hready
      cases hready
    · rw [hsame]
  · rfl

/-- A turn of port I while its step is not enabled changes nothing (R12). -/
theorem perform_portI_of_not_ready {s : State} (h : s.readyI = false) : perform .portI s = .next s := by
  show s.stepPortI = .next s
  unfold State.stepPortI
  split
  · next hb => rw [exec_latchedI hb, stopStepI_of_not_ready h]
  · rfl

/-- The slots from a `SERVICE` on, while port F waits: no set request is outstanding, and no disable request but one that
port I has published and still waits for (R103, R105). -/
structure SlotsFree (s : State) : Prop where
  toSet : s.toSet = pinNone
  toDisable : s.toDisable = pinNone ∨ s.phaseI = .t .t3 ∨ s.phaseI = .t .t4

theorem SlotsFree.stopStepI {s : State} (h : SlotsFree s) : SlotsFree s.stopStepI := by
  unfold State.stopStepI
  split
  · next k hk =>
    obtain ⟨hset, hdis⟩ := h
    rw [hk] at hdis
    refine ⟨(stopStep_i_keepsPortF s k).2.2.trans hset, ?_⟩
    have hmove := stopMove s .i k
    generalize s.stopStep .i k = t at hmove
    cases hmove with
    | publish => exact .inr (.inl rfl)
    | kick => exact .inr (.inr rfl)
    | consumed hfree => exact .inl hfree
    | waitPublish => exact hdis.imp_right (by simp)
    | waitConsumed => exact .inr (.inr hk)
    | dormant | running | found | notFound | tearDown | done => simpa using hdis
  · exact h

theorem SlotsFree.of_same {s t : State} (h : SlotsFree s) (hs : t.toSet = s.toSet) (hd : t.toDisable = s.toDisable)
    (hi : t.phaseI = s.phaseI) : SlotsFree t := by
  refine ⟨hs.trans h.toSet, ?_⟩
  rw [hd, hi]
  exact h.toDisable

/-- While port F stays at a waiting phase no step fills a slot but port I's own publish. -/
theorem does_slotsFree {e : Input} {s t : State} (h : Does s e t) (hc : CommandsCoherent s) (hw : s.phaseF.waits)
    (hstay : t.phaseF = s.phaseF) (hfree : SlotsFree s) : SlotsFree t := by
  have hbusy : s.phaseF ≠ .idle := hw.ne_idle
  cases h with
  | noStepF | noStepI | noIrq | noRead | noWrite => exact hfree
  | portF _ hi he =>
    rw [exec_latchedF hbusy] at he
    cases he
    obtain ⟨_, hleft⟩ | ⟨_, hsame⟩ := latchedStepF_waitsFor hc hi hw
    · exact absurd hstay hleft
    · rwa [hsame]
  | portI hb he =>
    rw [exec_latchedI hb] at he
    cases he
    exact hfree.stopStepI
  | service => exact ⟨(service_ports s).toSet, .inl (service_ports s).toDisable⟩
  | elapse n => exact hfree.of_same (by simp) (by simp) (by simp)
  | read | storeF | storeI | failF | failI => exact hfree.of_same rfl rfl rfl
  | acceptF _ _ _ _ _ hk => exact absurd hk hbusy
  | acceptI _ _ _ w i hk hi he =>
    obtain ⟨pin, hacc⟩ := exec_acceptI hi (s := { s with cmdWordI := w }) hk
    rw [hacc] at he
    cases he
    refine ⟨hfree.toSet, .inl (hfree.toDisable.resolve_right ?_)⟩
    rw [hk]
    nofun
  | write =>
    unfold State.writeReg
    split <;> exact hfree.of_same rfl rfl rfl
  | reset => exact ⟨rfl, .inl rfl⟩

/-! ### Fair runs -/

section FairRun

variable {e : Nat → Input} {r : Nat → State} (h : RunOf e r)
include h

/-- What every step keeps holds from any instant of a run on at which it holds. -/
theorem run_keeps {P : State → Prop} {n : Nat} (hP : P (r n))
    (hkeep : ∀ m, n ≤ m → Does (r m) (e m) (r (m + 1)) → P (r m) → P (r (m + 1))) : ∀ m, n ≤ m → P (r m) :=
  Nat.le_induction hP fun m hm => hkeep m hm (run_does h m)

/-- The reset input leaves the timer subsystem dormant. -/
theorem run_reset {m : Nat} (he : e m = .reset) : (r (m + 1)).timerRunning = false := by
  have hstep := run_perform h m
  rw [he] at hstep
  exact (Host.Outcome.next.inj hstep) ▸ rfl

/-- The turn of a busy port I is the next step of its stop. -/
theorem run_portI {m : Nat} (he : e m = .portI) (hb : (r m).phaseI ≠ .idle) : r (m + 1) = (r m).stopStepI := by
  have hstep := run_perform h m
  rw [he, show perform .portI (r m) = exec (r m).cmdI.instr (r m) from if_pos hb, exec_latchedI hb] at hstep
  exact (Host.Outcome.next.inj hstep).symm

/-- The turn of a busy port F, port I being idle, is the next step of its command. -/
theorem run_portF {m : Nat} (he : e m = .portF) (hi : (r m).phaseI = .idle) (hb : (r m).phaseF ≠ .idle) :
    r (m + 1) = (r m).latchedStepF := by
  have hstep := run_perform h m
  rw [he, show perform .portF (r m) = exec (r m).cmdF.instr (r m) from if_pos ⟨hi, hb⟩, exec_latchedF hb] at hstep
  exact (Host.Outcome.next.inj hstep).symm

/-- While the timer subsystem runs, a `SERVICE` follows every instant of a fair run: an unarmed timer has an interrupt
pending, which is taken, and the count of an armed one runs down. -/
theorem run_serviceStarts (hf : Fair e r) {n : Nat} (hc : TimerCoherent (r n))
    (hrun : ∀ m, n ≤ m → (r m).timerRunning = true) : ∃ m, n ≤ m ∧ (r m).serviceStarts (e m) := by
  obtain ⟨hservice, htime, _, _⟩ := hf
  by_contra hno
  have hnone : ∀ m, n ≤ m → ¬(r m).serviceStarts (e m) := fun m hm hs => hno ⟨m, hm, hs⟩
  have hcoh : ∀ m, n ≤ m → TimerCoherent (r m) := run_keeps h hc fun _ _ => does_timerCoherent
  have hrun' : ∀ m, n ≤ m → (r (m + 1)).timerRunning = true := fun m hm => hrun _ (Nat.le_succ_of_le hm)
  have hpending : ∀ m, n ≤ m → (r m).svcPending = false := by
    intro m hm
    by_contra hp
    have hstays : ∀ i, m ≤ i → (r i).svcPending = true := by
      refine run_keeps (P := fun s => s.svcPending = true) h (eq_true_of_ne_false hp) fun i hi hdoes hpi => ?_
      have hni := hm.trans hi
      exact does_pending hdoes (hrun i hni) (hrun' i hni) hpi (hnone i hni)
    have henabled : ∀ i, m ≤ i → (r i).tEnabled = true := fun i hi =>
      (hcoh i (hm.trans hi)).1.trans (hrun i (hm.trans hi))
    obtain ⟨i, hi, he⟩ := hservice m fun i hi => ⟨hstays i hi, henabled i hi⟩
    exact hnone i (hm.trans hi) ⟨he, hstays i hi, henabled i hi⟩
  have harmed : ∀ m, n ≤ m → (r m).tArmed = true := by
    intro m hm
    have := (hcoh m hm).2.1 (hrun m hm)
    rw [hpending m hm] at this
    simpa using this.symm
  have hstep : ∀ m, n ≤ m → (r (m + 1)).untilFire ≤ (r m).untilFire
      ∧ ∀ k, 0 < k → e m = .elapse k → (r (m + 1)).untilFire < (r m).untilFire := fun m hm =>
    does_untilFire (run_does h m) (hrun m hm) (hrun' m hm) (harmed m hm) (harmed _ (Nat.le_succ_of_le hm)) (hnone m hm)
  have hdown : ∀ c m, n ≤ m → (r m).untilFire = c → False := by
    intro c
    induction c using Nat.strong_induction_on with
    | _ c ih =>
      rintro m hm rfl
      obtain ⟨i, k, hi, hk, he⟩ := htime m
      have hle : (r i).untilFire ≤ (r m).untilFire :=
        run_keeps (P := fun s => s.untilFire ≤ (r m).untilFire) h (le_refl _)
          (fun j hj _ hc => (hstep j (hm.trans hj)).1.trans hc) i hi
      exact ih _ (((hstep i (hm.trans hi)).2 k hk he).trans_le hle) (i + 1) (by omega) rfl
  exact hdown _ n (le_refl n) rfl

/-- A `SERVICE` that starts leaves both slots empty. -/
theorem run_slotsFree {m : Nat} (hs : (r m).serviceStarts (e m)) :
    (r (m + 1)).toSet = pinNone ∧ (r (m + 1)).toDisable = pinNone := by
  rw [run_service h m hs]
  exact ⟨(service_ports _).toSet, (service_ports _).toDisable⟩

/-- While the timer subsystem runs, a stop on port I comes nearer to its end in a fair run. -/
theorem run_portI_advances (hf : Fair e r) {n : Nat} (hc : TimerCoherent (r n))
    (hrun : ∀ m, n ≤ m → (r m).timerRunning = true) (hb : (r n).phaseI ≠ .idle) :
    ∃ m, n ≤ m ∧ (r m).phaseI.stepsLeft < (r n).phaseI.stepsLeft := by
  by_contra hno
  have hnone : ∀ m, n ≤ m → ¬(r m).phaseI.stepsLeft < (r n).phaseI.stepsLeft := fun m hm hlt => hno ⟨m, hm, hlt⟩
  have hstay : ∀ m, n ≤ m → (r m).phaseI = (r n).phaseI := by
    refine run_keeps (P := fun s => s.phaseI = (r n).phaseI) h rfl fun m hm hdoes hk => ?_
    obtain hsame | hlt := does_phaseI hdoes (by rw [hk]; exact hb)
    · exact hsame.trans hk
    · rw [hk] at hlt
      exact absurd hlt (hnone (m + 1) (by omega))
  obtain ⟨m, hm, hs⟩ := run_serviceStarts h hf hc hrun
  have hready : (r (m + 1)).readyI = true :=
    readyI_of_free (by rw [hstay (m + 1) (by omega)]; exact hb) (run_slotsFree h hs).2
  obtain ⟨_, _, _, hfairI⟩ := hf
  obtain ⟨i, hi, ⟨he, hready⟩ | he⟩ := hfairI (m + 1) hready
  · have hlt := stopStepI_of_ready hready
    rw [← run_portI h he (by rw [hstay i (by omega)]; exact hb), hstay i (by omega)] at hlt
    exact hnone (i + 1) (by omega) hlt
  · have := run_reset h he
    rw [hrun (i + 1) (by omega)] at this
    cases this

/-- While the timer subsystem runs, port I is idle again and again in a fair run. -/
theorem run_portI_idle (hf : Fair e r) {n : Nat} (hc : TimerCoherent (r n))
    (hrun : ∀ m, n ≤ m → (r m).timerRunning = true) : ∃ m, n ≤ m ∧ (r m).phaseI = .idle := by
  generalize hleft : (r n).phaseI.stepsLeft = left
  induction left using Nat.strong_induction_on generalizing n with
  | _ left ih =>
    by_cases hb : (r n).phaseI = .idle
    · exact ⟨n, le_refl n, hb⟩
    · obtain ⟨m, hm, hlt⟩ := run_portI_advances h hf hc hrun hb
      rw [hleft] at hlt
      have hcm : TimerCoherent (r m) := run_keeps h hc (fun _ _ => does_timerCoherent) m hm
      obtain ⟨i, hi, hidle⟩ := ih _ hlt hcm (fun i hi => hrun i (hm.trans hi)) rfl
      exact ⟨i, hm.trans hi, hidle⟩

/-- While the timer subsystem runs, port F leaves every waiting phase in a fair run. -/
theorem run_portF_leaves (hf : Fair e r) {n : Nat} (hc : TimerCoherent (r n)) (hcmd : CommandsCoherent (r n))
    (hrun : ∀ m, n ≤ m → (r m).timerRunning = true) (hw : (r n).phaseF.waits) :
    ∃ m, n ≤ m ∧ (r m).phaseF ≠ (r n).phaseF := by
  by_contra hno
  have hstay : ∀ m, n ≤ m → (r m).phaseF = (r n).phaseF := fun m hm => by
    by_contra hk
    exact hno ⟨m, hm, hk⟩
  have hwaits : ∀ m, n ≤ m → (r m).phaseF.waits := fun m hm => by rwa [hstay m hm]
  have hcoh : ∀ m, n ≤ m → CommandsCoherent (r m) := run_keeps h hcmd fun _ _ => does_commandsCoherent
  have hcoh' : ∀ m, n ≤ m → TimerCoherent (r m) := run_keeps h hc fun _ _ => does_timerCoherent
  obtain ⟨m, hm, hs⟩ := run_serviceStarts h hf hc hrun
  obtain ⟨hset, hdis⟩ := run_slotsFree h hs
  have hfree : ∀ i, m + 1 ≤ i → SlotsFree (r i) := by
    refine run_keeps h ⟨hset, .inl hdis⟩ fun i hi hdoes => ?_
    exact does_slotsFree hdoes (hcoh i (by omega)) (hwaits i (by omega))
      ((hstay (i + 1) (by omega)).trans (hstay i (by omega)).symm)
  obtain ⟨i, hi, hidle⟩ := run_portI_idle h hf (hcoh' (m + 1) (by omega)) fun i hi => hrun i (by omega)
  have hbusy : ∀ i, n ≤ i → (r i).phaseF ≠ .idle := fun i hi => (hwaits i hi).ne_idle
  have hready : (r i).readyF = true := by
    refine readyF_of_free (hbusy i (by omega)) hidle (hfree i hi).toSet ((hfree i hi).toDisable.resolve_right ?_)
    rw [hidle]
    nofun
  obtain ⟨_, _, hfairF, _⟩ := hf
  obtain ⟨j, hj, ⟨he, hready⟩ | he⟩ := hfairF i hready
  · have hidle : (r j).phaseI = .idle := by
      simp only [State.readyF, Bool.and_eq_true, decide_eq_true_eq] at hready
      exact hready.1
    obtain ⟨_, hleft⟩ | ⟨hnot, _⟩ := latchedStepF_waitsFor (hcoh j (by omega)) hidle (hwaits j (by omega))
    · rw [← run_portF h he hidle (hbusy j (by omega)), hstay (j + 1) (by omega), hstay j (by omega)] at hleft
      exact hleft rfl
    · exact hnot hready
  · have := run_reset h he
    rw [hrun (j + 1) (by omega)] at this
    cases this

end FairRun

/-- Settles O60: while the timer subsystem runs, port F leaves its waiting phases (`run_portF_leaves`) and a stop on port I
advances (`run_portI_advances`); a step that is not enabled leaves the machine as it is. -/
theorem fairRunEndsEveryWait : Obligations.FairRunEndsEveryWait := by
  refine ⟨fun e r h hf n hc hcmd => ?_, fun s hc => ⟨perform_portF_of_not_ready hc, perform_portI_of_not_ready⟩⟩
  by_cases hrun : ∀ m, n ≤ m → (r m).timerRunning = true
  · refine ⟨fun k hk hphase => ?_, fun k _ hphase => ?_⟩
    · obtain ⟨m, hm, hleft⟩ := run_portF_leaves h hf hc hcmd hrun (by rw [hphase]; exact hk)
      exact ⟨m, hm, .inr (by rwa [← hphase])⟩
    · obtain ⟨m, hm, hlt⟩ := run_portI_advances h hf hc hrun (by rw [hphase]; nofun)
      refine ⟨m, hm, .inr fun hk => ?_⟩
      rw [hk, hphase] at hlt
      exact lt_irrefl _ hlt
  · obtain ⟨m, hrun⟩ := not_forall.mp hrun
    obtain ⟨hm, hstopped⟩ := Classical.not_imp.mp hrun
    exact ⟨fun _ _ _ => ⟨m, hm, .inl (by simpa using hstopped)⟩, fun _ _ _ => ⟨m, hm, .inl (by simpa using hstopped)⟩⟩

end Sys2Proof.Machine
end

section
/-! PROOFS. The bus and the step: which accesses the map has and what each word of it reads and stores (R40 to R44), the
instruction that an input selects (R44, R60, R69, R171), a write of a pin (R48) and the guarded publish (R49). -/

namespace Sys2Proof.Machine

/-! ### The accesses of the bus -/

/-- Every word below the descriptors is in the map, however many pins there are (R40). -/
theorem lt_mapBytes_of_lt (c : Cfg) {off : Nat} (h : off < 0x100) : off < mapBytes c := by
  unfold mapBytes
  omega

theorem busAccess_of_inMap {c : Cfg} {off : Nat} (act : Host.Outcome State Fault Refusal) (ha : off % 4 = 0)
    (hm : off < mapBytes c) : busAccess c off 4 act = act := by
  rw [busAccess, if_pos ⟨rfl, ha⟩, if_pos hm]

theorem busAccess_of_pastMap {c : Cfg} {off : Nat} (act : Host.Outcome State Fault Refusal) (ha : off % 4 = 0)
    (hm : mapBytes c ≤ off) : busAccess c off 4 act = .fault .noSuchRegister := by
  rw [busAccess, if_pos ⟨rfl, ha⟩, if_neg (by omega)]

theorem busAccess_of_misfit (c : Cfg) {off width : Nat} (act : Host.Outcome State Fault Refusal)
    (h : width ≠ 4 ∨ off % 4 ≠ 0) : busAccess c off width act = .refused .busAccessUndefined := by
  rw [busAccess, if_neg (by omega)]

theorem perform_busRead {s : State} {ctx : Context} (hr : s.contextRuns ctx = true) (off width : Nat) :
    perform (.busRead ctx off width) s = busAccess s.cfg off width (.next { s with busData := s.readReg off }) :=
  if_pos hr

theorem perform_busWrite {s : State} {ctx : Context} (hr : s.contextRuns ctx = true) (off width : Nat) (v : Word) :
    perform (.busWrite ctx off width v) s = busAccess s.cfg off width (s.doBusWrite off v) :=
  if_pos hr

/-! ### What each word of the map reads -/

/-- The words between the last named one and the descriptors are reserved (R40). -/
theorem readReg_reserved (s : State) {off : Nat} (hlo : 0x02C ≤ off) (hhi : off < 0x100) : s.readReg off = 0#32 := by
  unfold State.readReg
  rw [if_neg (by omega)]
  split
  case h_12 => rfl
  all_goals omega

/-- The word at `k` of descriptor `p` stands at `0x100 + 0x20 * p + k` (R41). -/
theorem readReg_desc (s : State) (p : Nat) {k : Nat} (hk : k < 0x20) :
    s.readReg (0x100 + 0x20 * p + k) = (s.desc p).readWord k := by
  have hpin : (0x100 + 0x20 * p + k - 0x100) / 0x20 = p := by omega
  have hword : (0x100 + 0x20 * p + k - 0x100) % 0x20 = k := by omega
  unfold State.readReg
  rw [if_pos (by omega), hpin, hword]

/-- Settles O9: the named words by their row of R41, the reserved ones by `readReg_reserved`, the descriptors by
`readReg_desc`. -/
theorem registerMapReads : Obligations.RegisterMapReads := by
  intro s
  refine ⟨fun ctx off hr ha hm => ?_, rfl, rfl, rfl, rfl, rfl, rfl, rfl, rfl, rfl, rfl, rfl,
    fun off => readReg_reserved s, fun p _ => ?_⟩
  · rw [perform_busRead hr, busAccess_of_inMap _ ha hm]
  · refine ⟨?_, ?_, ?_, ?_, ?_, ?_, ?_, ?_⟩ <;> exact readReg_desc s p (by decide)

/-! ### What a write stores -/

/-- A word of the map that is no operand register ignores a plain store (R40, R41). -/
theorem writeReg_of_not_arg (s : State) {off : Nat} (v : Word) (h : off ∉ [0x004, 0x008, 0x00C, 0x010]) :
    s.writeReg off v = s := by
  unfold State.writeReg
  split
  case h_5 => rfl
  all_goals exact absurd (by decide) h

/-- A write of a word of the map that takes no command is a plain store. -/
theorem perform_storeWord {s : State} {ctx : Context} (hr : s.contextRuns ctx = true) {off : Nat} (v : Word)
    (ha : off % 4 = 0) (hm : off < mapBytes s.cfg) (hF : off ≠ offCmdF) (hI : off ≠ offCmdI) :
    perform (.busWrite ctx off 4 v) s = .next (s.writeReg off v) := by
  rw [perform_busWrite hr, busAccess_of_inMap _ ha hm, State.doBusWrite, if_neg hF, if_neg hI]

/-- Settles O8: by which accesses the map has (`busAccess`), then by what a plain store does to each word. -/
theorem registerMapWrites : Obligations.RegisterMapWrites := by
  intro s ctx off width v hr
  have storeArg : ∀ a ∈ [0x004, 0x008, 0x00C, 0x010],
      perform (.busWrite ctx a 4 v) s = .next (s.writeReg a v) := by
    intro a ha
    have hlow : a % 4 = 0 ∧ a < 0x100 ∧ a ≠ offCmdF ∧ a ≠ offCmdI := by
      revert a
      decide
    obtain ⟨h4, hm, hF, hI⟩ := hlow
    exact perform_storeWord hr v h4 (lt_mapBytes_of_lt _ hm) hF hI
  refine ⟨fun h => ?_, fun hw ha hm => ?_, storeArg 0x004 (by decide), storeArg 0x008 (by decide),
    storeArg 0x00C (by decide), storeArg 0x010 (by decide), fun hw ha hm hoff => ?_⟩
  · rw [perform_busWrite hr, perform_busRead hr]
    exact ⟨busAccess_of_misfit _ _ h, busAccess_of_misfit _ _ h⟩
  · subst hw
    rw [perform_busWrite hr, perform_busRead hr]
    exact ⟨busAccess_of_pastMap _ ha hm, busAccess_of_pastMap _ ha hm⟩
  · subst hw
    simp only [List.mem_cons, List.not_mem_nil, or_false, not_or] at hoff
    obtain ⟨hF, h0, h1, h2, h3, hI⟩ := hoff
    rw [perform_storeWord hr v ha hm hF hI, writeReg_of_not_arg s v (by simp [h0, h1, h2, h3])]

/-! ### The instruction that an input selects -/

/-- A step performs the first of the given inputs, in the state without it (U10). -/
theorem step_of_inputs {s : State} {e : Input} {rest : List Input} (h : s.inputs = e :: rest) :
    step s = perform e { s with inputs := rest } := by
  rw [step, State.nextInput, h]

/-- A word written to `CMD_F` reaches port F (R41). -/
theorem perform_cmdWordF {s : State} {ctx : Context} (hr : s.contextRuns ctx = true) (w : Word) :
    perform (.busWrite ctx 0x000 4 w) s = s.writeCmdF w := by
  rw [perform_busWrite hr, busAccess_of_inMap _ rfl (lt_mapBytes_of_lt _ (by decide)), State.doBusWrite, if_pos rfl]

/-- A word written to `CMD_I` reaches port I (R41). -/
theorem perform_cmdWordI {s : State} {ctx : Context} (hr : s.contextRuns ctx = true) (w : Word) :
    perform (.busWrite ctx 0x020 4 w) s = s.writeCmdI w := by
  rw [perform_busWrite hr, busAccess_of_inMap _ rfl (lt_mapBytes_of_lt _ (by decide)), State.doBusWrite,
    if_neg (by decide), if_pos rfl]

/-- An idle port F accepts a word of its table (R60). -/
theorem writeCmdF_of_decode {s : State} {w : Word} {i : Instr} (hk : s.phaseF = .idle) (hd : decode .f w = .ok i) :
    s.writeCmdF w = exec i { s with cmdWordF := w } := by
  simp only [State.writeCmdF, hk, hd, ne_eq, not_true_eq_false, if_false]

/-- An idle port I accepts a word of its table (R60, R68). -/
theorem writeCmdI_of_decode {s : State} {w : Word} {i : Instr} (hk : s.phaseI = .idle) (hd : decode .i w = .ok i) :
    s.writeCmdI w = exec i { s with cmdWordI := w } := by
  simp only [State.writeCmdI, hk, hd, ne_eq, not_true_eq_false, if_false]

/-- A word of its table written to an idle port F is stored for read-back and accepted (R44, R60). -/
theorem perform_acceptF {s : State} {ctx : Context} {w : Word} {i : Instr} (hr : s.contextRuns ctx = true)
    (hk : s.phaseF = .idle) (hd : decode .f w = .ok i) :
    perform (.busWrite ctx 0x000 4 w) s = exec i { s with cmdWordF := w } := by
  rw [perform_cmdWordF hr, writeCmdF_of_decode hk hd]

/-- A word of its table written to an idle port I is stored for read-back and accepted (R44, R60). -/
theorem perform_acceptI {s : State} {ctx : Context} {w : Word} {i : Instr} (hr : s.contextRuns ctx = true)
    (hk : s.phaseI = .idle) (hd : decode .i w = .ok i) :
    perform (.busWrite ctx 0x020 4 w) s = exec i { s with cmdWordI := w } := by
  rw [perform_cmdWordI hr, writeCmdI_of_decode hk hd]

/-- An interrupt that is pending and enabled asserts the line, which decodes as `SERVICE` (R69, R186). -/
theorem takeIrq_of_pending {s : State} (hp : s.svcPending = true) (he : s.tEnabled = true) :
    s.takeIrq = exec .service s := by
  have hline : s.irqLine = 1#32 := if_pos ⟨hp, he⟩
  have hdecode : decode .irq 1#32 = .ok .service := rfl
  rw [State.takeIrq, hline, hdecode]

/-- Settles O6: the step performs the given input (`step_of_inputs`), and each input that the rules let happen comes
down to `exec` of the instruction it selects. -/
theorem stepRunsTheSelectedInstruction : Obligations.StepRunsTheSelectedInstruction := by
  intro s rest
  refine ⟨fun ctx w i h hr hk hd => ?_, fun ctx w i h hr hk hd => ?_, fun h hF hI => ?_, fun h hI => ?_,
    fun h hI => ?_, fun h hp he => ?_⟩ <;> rw [step_of_inputs h]
  · exact perform_acceptF (s := { s with inputs := rest }) hr hk hd
  · exact perform_acceptI (s := { s with inputs := rest }) hr hk hd
  · exact if_pos ⟨hI, hF⟩
  · exact if_neg fun hc => hI hc.1
  · exact if_pos hI
  · exact takeIrq_of_pending (s := { s with inputs := rest }) hp he

/-! ### A write of a pin -/

/-- Settles O12: a write sets its own bit of the levels (`maskBit_setMaskBit`), since a pin is one of the 32. -/
theorem gpioWriteDrivesOnePin : Obligations.GpioWriteDrivesOnePin := by
  intro s p v hp
  obtain ⟨_, hpins, _⟩ := s.cfg.valid
  refine ⟨fun q => ?_, rfl⟩
  rw [gpioWrite_gpio, maskBit_setMaskBit _ _ _ _ (by omega)]

/-! ### The guarded publish -/

theorem publishSet_of_free {s : State} (k : PhaseF) (h : s.toSet = pinNone) :
    s.publishSet k = { s with toSet := s.cmdF.pin, phaseF := k } := if_pos h

theorem publishSet_of_taken {s : State} (k : PhaseF) (h : s.toSet ≠ pinNone) : s.publishSet k = s := if_neg h

/-- Settles O19: at `F10` a start takes the step `publishSet`. -/
theorem freshStartPublishes : Obligations.FreshStartPublishes := by
  intro s i hi hl hk
  have hexec : exec i s = .next (s.publishSet .f11) := by
    rw [exec_start s i hi hl (by rw [hk]; nofun), State.startStep, hk]
  rw [hexec]
  exact ⟨fun h => by rw [publishSet_of_free _ h], fun h => by rw [publishSet_of_taken _ h]⟩

end Sys2Proof.Machine
end

section
/-! PROOFS. The encoding: a word selects at most one row of its port's table (R66 to R69), the row and the fields fix
every bit of the word (R61, R64), what an accepted command word does (R60, R65, R67), and the packed registers (R70,
R73). -/

namespace Sys2Proof

open Laws.EncodeSelectsRow (rowMask rowPattern readBack Statement)

/-! ### The rows of a port -/

/-- A word meets the mask and the pattern of a row (R66). -/
def Row.Selects (r : Row) (w : Word) : Prop := w &&& r.mask = r.pattern

/-- The patterns of two rows differ on a bit that both masks keep. -/
def Row.Clashes (r q : Row) : Prop := r.pattern &&& q.mask ≠ q.pattern &&& r.mask

theorem Row.Clashes.not_selects {r q : Row} (h : r.Clashes q) {w : Word} (hr : r.Selects w) : ¬q.Selects w := by
  intro hq
  apply h
  calc r.pattern &&& q.mask
      _ = w &&& r.mask &&& q.mask := by rw [hr]
      _ = w &&& q.mask &&& r.mask := by rw [BitVec.and_assoc, BitVec.and_comm r.mask, ← BitVec.and_assoc]
      _ = q.pattern &&& r.mask := by rw [hq]

theorem selectRow_cons_of_selects {r : Row} {w : Word} (rest : List Row) (h : r.Selects w) :
    selectRow (r :: rest) w = some (r.read w) := by
  have hmatch : (w &&& r.mask == r.pattern) = true := beq_iff_eq.mpr h
  simp [selectRow, hmatch]

theorem selectRow_cons_of_not_selects {r : Row} {w : Word} (rest : List Row) (h : ¬r.Selects w) :
    selectRow (r :: rest) w = selectRow rest w := by
  have hmatch : (w &&& r.mask == r.pattern) = false := beq_eq_false_iff_ne.mpr h
  simp [selectRow, hmatch]

/-- In a table of disjoint rows a word selects the row that it meets, whatever stands before it. -/
theorem selectRow_of_mem {rows : List Row} (hrows : rows.Pairwise Row.Clashes) {r : Row} (hr : r ∈ rows) {w : Word}
    (hw : r.Selects w) : selectRow rows w = some (r.read w) := by
  induction hrows with
  | nil => cases hr
  | @cons q rest hq _ ih =>
    rcases List.mem_cons.mp hr with rfl | hr
    · exact selectRow_cons_of_selects rest hw
    · rw [selectRow_cons_of_not_selects rest fun h => (hq r hr).not_selects h hw, ih hr]

theorem selectRow_eq_none_iff {rows : List Row} {w : Word} :
    selectRow rows w = none ↔ ∀ r ∈ rows, ¬r.Selects w := by
  unfold selectRow Row.Selects
  simp

theorem selectRow_eq_some_iff {rows : List Row} (hrows : rows.Pairwise Row.Clashes) {w : Word} {i : Instr} :
    selectRow rows w = some i ↔ ∃ r ∈ rows, r.Selects w ∧ r.read w = i := by
  constructor
  · intro h
    obtain ⟨r, hfind, hread⟩ := Option.map_eq_some_iff.mp h
    have hmatch := List.find?_some hfind
    exact ⟨r, List.mem_of_find?_eq_some hfind, beq_iff_eq.mp hmatch, hread⟩
  · rintro ⟨r, hr, hw, rfl⟩
    exact selectRow_of_mem hrows hr hw

/-- The row of an instruction in its port's table; for `SERVICE` the asserted line as a row of its own (R69). -/
def Instr.row (i : Instr) : Row := ⟨rowMask i, rowPattern i, readBack i⟩

/-- The table that a port decodes by: R66, R68, and for the interrupt line the one row of R69. -/
def Port.rows : Port → List Row
  | .f => rowsF
  | .i => rowsI
  | .irq => [Instr.service.row]

theorem Port.rows_clash (p : Port) : p.rows.Pairwise Row.Clashes := by
  unfold Row.Clashes
  cases p <;> decide

theorem Instr.row_mem_rows (i : Instr) : i.row ∈ i.port.rows := by
  cases i with
  | startUs => exact .head _
  | startCcy => exact .tail _ (.head _)
  | stop => exact .tail _ (.tail _ (.head _))
  | setcb => exact .tail _ (.tail _ (.tail _ (.head _)))
  | istop | service => exact .head _

theorem Port.exists_row {p : Port} {r : Row} (h : r ∈ p.rows) : ∃ i : Instr, i.port = p ∧ i.row = r := by
  cases p
  case f =>
    simp only [Port.rows, rowsF, List.mem_cons, List.not_mem_nil, or_false] at h
    obtain rfl | rfl | rfl | rfl := h
    · exact ⟨.startUs false 0#8 0#8, rfl, rfl⟩
    · exact ⟨.startCcy false 0#8 0#8, rfl, rfl⟩
    · exact ⟨.stop 0#8, rfl, rfl⟩
    · exact ⟨.setcb false, rfl, rfl⟩
  case i => exact ⟨.istop 0#8, rfl, (List.mem_singleton.mp h).symm⟩
  case irq => exact ⟨.service, rfl, (List.mem_singleton.mp h).symm⟩

/-- The interrupt line has one bit that exists, and the row of `SERVICE` is that bit asserted (R69). -/
theorem row_service_selects_iff (w : Word) : Instr.service.row.Selects w ↔ w = 1#32 := by
  have hall : w &&& 0xFFFFFFFF#32 = w := BitVec.and_allOnes
  exact iff_of_eq (congrArg (· = 1#32) hall)

/-! ### What decodes -/

/-- Why a word that selects no row of a port's table is rejected there (R67, R69). -/
def Port.rejection : Port → DecodeError
  | .f => .illegalOnPortF
  | .i => .illegalOnPortI
  | .irq => .lineNotAsserted

/-- Every port decodes by its table: the selected row reads the word, and a word that selects none is rejected. -/
theorem decode_eq_elim (p : Port) (w : Word) :
    decode p w = (selectRow p.rows w).elim (.error p.rejection) .ok := by
  cases p
  case f => unfold decode Port.rows; cases selectRow rowsF w <;> rfl
  case i => unfold decode Port.rows; cases selectRow rowsI w <;> rfl
  case irq =>
    have hsel : selectRow Port.irq.rows w = if w = 1#32 then some .service else none := by
      by_cases hw : w = 1#32
      · rw [if_pos hw]
        exact selectRow_of_mem (Port.rows_clash .irq) (.head _) ((row_service_selects_iff w).mpr hw)
      · rw [if_neg hw, selectRow_eq_none_iff]
        intro r hr
        rw [List.mem_singleton.mp hr, row_service_selects_iff]
        exact hw
    rw [hsel, decode]
    split_ifs <;> rfl

/-- A word decodes on a port to the instruction that a row of the port, selected by the word, reads from it. -/
theorem decode_eq_ok_iff (p : Port) (w : Word) (i : Instr) :
    decode p w = .ok i ↔ ∃ j : Instr, j.port = p ∧ j.row.Selects w ∧ readBack j w = i := by
  have hsel : decode p w = .ok i ↔ selectRow p.rows w = some i := by
    rw [decode_eq_elim]
    cases selectRow p.rows w <;> simp
  rw [hsel, selectRow_eq_some_iff p.rows_clash]
  constructor
  · rintro ⟨r, hr, hw, hread⟩
    obtain ⟨j, hj, rfl⟩ := Port.exists_row hr
    exact ⟨j, hj, hw, hread⟩
  · rintro ⟨j, rfl, hw, hread⟩
    exact ⟨j.row, j.row_mem_rows, hw, hread⟩

theorem decode_of_selects (j : Instr) {w : Word} (h : j.row.Selects w) : decode j.port w = .ok (readBack j w) :=
  (decode_eq_ok_iff ..).mpr ⟨j, rfl, h, rfl⟩

theorem decode_of_not_selects {p : Port} {w : Word} (h : ∀ j : Instr, j.port = p → ¬j.row.Selects w) :
    decode p w = .error p.rejection := by
  have hsel : selectRow p.rows w = none := by
    rw [selectRow_eq_none_iff]
    intro r hr
    obtain ⟨j, hj, rfl⟩ := Port.exists_row hr
    exact h j hj
  rw [decode_eq_elim, hsel]
  rfl

/-! ### The round trips -/

/-- The family `EncodeSelectsRow`, joined over the instructions. -/
theorem encode_selectsRow (i : Instr) : Statement i := by
  cases i with
  | startUs a l p => exact Laws.EncodeSelectsRow.startUs a l p
  | startCcy a l p => exact Laws.EncodeSelectsRow.startCcy a l p
  | stop p => exact Laws.EncodeSelectsRow.stop p
  | setcb en => exact Laws.EncodeSelectsRow.setcb en
  | istop p => exact Laws.EncodeSelectsRow.istop p
  | service => exact Laws.EncodeSelectsRow.service

/-- Settles O1: the encoding selects the instruction's row, which reads every operand back (`encode_selectsRow`). -/
theorem decodeOfEncodeIsTheInstruction : Obligations.DecodeOfEncodeIsTheInstruction := by
  intro i
  obtain ⟨hsel, hread⟩ := encode_selectsRow i
  rw [decode_of_selects i hsel, hread]

theorem getLsbD_eq_of_and {w v m : Word} (h : w &&& m = v &&& m) {k : Nat} (hk : m.getLsbD k = true) :
    w.getLsbD k = v.getLsbD k := by
  simpa [hk] using congrArg (·.getLsbD k) h

theorem getLsbD_eq_of_extract {w v : Word} {start len : Nat} (h : w.extractLsb' start len = v.extractLsb' start len)
    {k : Nat} (hlo : start ≤ k) (hhi : k < start + len) : w.getLsbD k = v.getLsbD k := by
  have hbit := congrArg (·.getLsbD (k - start)) h
  simpa [show k - start < len by omega, show start + (k - start) = k by omega] using hbit

/-- Every bit of a start is an opcode or reserved bit, or one of `pin`, `align` and `autoPwm` (R61). -/
theorem eq_of_startFields {w v : Word} (hm : w &&& 0xFE0000FF#32 = v &&& 0xFE0000FF#32)
    (ha : fieldAutoPwm w = fieldAutoPwm v) (hl : fieldAlign w = fieldAlign v) (hp : fieldPin w = fieldPin v) :
    w = v := by
  have hcover : ∀ k < 32, (0xFE0000FF#32).getLsbD k = true ∨ k = 24 ∨ (16 ≤ k ∧ k < 24) ∨ (8 ≤ k ∧ k < 16) := by
    decide
  refine BitVec.eq_of_getLsbD_eq fun k hk => ?_
  obtain hmask | rfl | ⟨hlo, hhi⟩ | ⟨hlo, hhi⟩ := hcover k hk
  · exact getLsbD_eq_of_and hm hmask
  · exact ha
  · exact getLsbD_eq_of_extract hl hlo hhi
  · exact getLsbD_eq_of_extract hp hlo hhi

/-- Every bit of a stop is an opcode or reserved bit, or one of `pin` (R61). -/
theorem eq_of_stopFields {w v : Word} (hm : w &&& 0xFFFF00FF#32 = v &&& 0xFFFF00FF#32)
    (hp : fieldPin w = fieldPin v) : w = v := by
  have hcover : ∀ k < 32, (0xFFFF00FF#32).getLsbD k = true ∨ (8 ≤ k ∧ k < 16) := by decide
  refine BitVec.eq_of_getLsbD_eq fun k hk => ?_
  obtain hmask | ⟨hlo, hhi⟩ := hcover k hk
  · exact getLsbD_eq_of_and hm hmask
  · exact getLsbD_eq_of_extract hp hlo hhi

/-- Every bit of a `SETCB` is an opcode or reserved bit, or `en` (R61). -/
theorem eq_of_setcbFields {w v : Word} (hm : w &&& 0xFFFFFEFF#32 = v &&& 0xFFFFFEFF#32)
    (hen : fieldEn w = fieldEn v) : w = v := by
  have hcover : ∀ k < 32, (0xFFFFFEFF#32).getLsbD k = true ∨ k = 8 := by decide
  refine BitVec.eq_of_getLsbD_eq fun k hk => ?_
  obtain hmask | rfl := hcover k hk
  · exact getLsbD_eq_of_and hm hmask
  · exact hen

/-- The row and the fields read by it fix every bit of a word. -/
theorem eq_of_selects_of_readBack {j : Instr} {w v : Word} (hw : j.row.Selects w) (hv : j.row.Selects v)
    (h : readBack j w = readBack j v) : w = v := by
  have hm : w &&& rowMask j = v &&& rowMask j := hw.trans hv.symm
  cases j with
  | startUs | startCcy => injection h with ha hl hp; exact eq_of_startFields hm ha hl hp
  | stop | istop => injection h with hp; exact eq_of_stopFields hm hp
  | setcb => injection h with hen; exact eq_of_setcbFields hm hen
  | service => rw [(row_service_selects_iff w).mp hw, (row_service_selects_iff v).mp hv]

theorem row_readBack (j : Instr) (w : Word) : (readBack j w).row = j.row := by cases j <;> rfl

theorem port_readBack (j : Instr) (w : Word) : (readBack j w).port = j.port := by cases j <;> rfl

theorem encode_readBack {j : Instr} {w : Word} (h : j.row.Selects w) : encode (readBack j w) = w := by
  obtain ⟨hsel, hread⟩ := encode_selectsRow (readBack j w)
  have hsel : (readBack j w).row.Selects (encode (readBack j w)) := hsel
  have hread : (readBack j w).row.read (encode (readBack j w)) = readBack j w := hread
  rw [row_readBack] at hsel hread
  exact eq_of_selects_of_readBack hsel h hread

/-- Settles O2: the selected row belongs to the port, and with the fields it reads it fixes the word
(`encode_readBack`). -/
theorem encodeOfDecodeIsTheWord : Obligations.EncodeOfDecodeIsTheWord := by
  intro p w i h
  obtain ⟨j, rfl, hw, rfl⟩ := (decode_eq_ok_iff p w i).mp h
  exact ⟨port_readBack j w, encode_readBack hw⟩

/-! ### The tables of the two command ports -/

/-- Settles O4: a word selects the row it meets (`decode_of_selects`), and the four rows are all that port F has. -/
theorem portFTableSelectsRows : Obligations.PortFTableSelectsRows := by
  intro w
  refine ⟨fun h => decode_of_selects (.startUs false 0#8 0#8) h,
    fun h => decode_of_selects (.startCcy false 0#8 0#8) h, fun h => decode_of_selects (.stop 0#8) h,
    fun h => decode_of_selects (.setcb false) h, fun hUs hCcy hStop hSetcb => decode_of_not_selects fun j hj => ?_⟩
  cases j with
  | startUs => exact hUs
  | startCcy => exact hCcy
  | stop => exact hStop
  | setcb => exact hSetcb
  | istop | service => cases hj

/-- Settles O5: the one row of port I is that of `ISTOP`. -/
theorem portITableSelectsIstop : Obligations.PortITableSelectsIstop := by
  intro w
  refine ⟨fun h => decode_of_selects (.istop 0#8) h, fun h => decode_of_not_selects fun j hj => ?_⟩
  cases j with
  | istop => exact h
  | startUs | startCcy | stop | setcb | service => cases hj

/-- Settles O3: each word is the encoding of the instruction given for it, so that it decodes back to it (O1). -/
theorem specWordsDecode : Obligations.SpecWordsDecode :=
  have decodes := decodeOfEncodeIsTheInstruction
  ⟨decodes (.startUs false 0xFF#8 5#8), decodes (.startCcy false 0xFF#8 5#8), decodes (.startCcy false 1#8 4#8),
    decodes (.startCcy true 0xFF#8 3#8), decodes (.stop 200#8), decodes (.setcb true), decodes (.istop 1#8),
    decodes .service⟩

end Sys2Proof

namespace Sys2Proof.Machine

/-! ### Command words that select no row, and accepted ones -/

theorem writeCmdF_of_busy {s : State} (w : Word) (hk : s.phaseF ≠ .idle) :
    s.writeCmdF w = .next { s with cmdWordF := w } := if_pos hk

theorem writeCmdI_of_busy {s : State} (w : Word) (hk : s.phaseI ≠ .idle) :
    s.writeCmdI w = .next { s with cmdWordI := w } := if_pos hk

/-- An illegal word fails at once: the phase stays what it was, `IDLE` (R67). -/
theorem writeCmdF_of_illegal {s : State} {w : Word} {e : DecodeError} (hk : s.phaseF = .idle)
    (hd : decode .f w = .error e) : s.writeCmdF w = .next { s with cmdWordF := w, fResult := false } := by
  simp only [State.writeCmdF, hk, hd, ne_eq, not_true_eq_false, if_false, State.fail, State.endCommand]

/-- The same on port I (R67, R68). -/
theorem writeCmdI_of_illegal {s : State} {w : Word} {e : DecodeError} (hk : s.phaseI = .idle)
    (hd : decode .i w = .error e) : s.writeCmdI w = .next { s with cmdWordI := w, iResult := false } := by
  simp only [State.writeCmdI, hk, hd, ne_eq, not_true_eq_false, if_false, State.fail, State.endCommand]

/-- Settles O7: a word at offset `0x000` or `0x020` reaches its port, which is idle and fails it or is busy and only
stores it. -/
theorem unselectedCommandWrites : Obligations.UnselectedCommandWrites := by
  intro s ctx w hr
  rw [perform_cmdWordF hr, perform_cmdWordI hr]
  exact ⟨fun _ hk hd => writeCmdF_of_illegal hk hd, fun _ hk hd => writeCmdI_of_illegal hk hd, writeCmdF_of_busy w,
    writeCmdI_of_busy w⟩

theorem exec_istop_of_idle {s : State} (pin : Byte) (h : s.phaseI = .idle) :
    exec (.istop pin) s = .next (s.acceptIstop pin) := congrArg Host.Outcome.next (if_pos h)

/-- Settles O13: on an idle port a command is its acceptance (`exec_acceptF`, `exec_istop_of_idle`). -/
theorem acceptanceLatchesTheCommand : Obligations.AcceptanceLatchesTheCommand := by
  intro s
  exact ⟨fun h _ _ _ => ⟨exec_acceptF rfl h, exec_acceptF rfl h⟩, fun h _ => exec_acceptF rfl h,
    fun h _ => exec_acceptF rfl h, fun h pin => exec_istop_of_idle pin h⟩

/-! ### The packed registers -/

/-- The flags of `STATUS` from bit 0 up, the reserved bits 0 (R73). -/
def State.statusBits (s : State) : List Bool :=
  [s.fBusy, s.fResult, s.fYield, false, s.iBusy, s.iResult, false, false, s.timerRunning, s.cbRegistered]

/-- The bits of `x` from bit 0 up are those of `bs`, and 0 above them. -/
def HasBits {n : Nat} (x : BitVec n) (bs : List Bool) : Prop := ∀ k, x.getLsbD k = bs.getD k false

theorem HasBits.append {n m : Nat} {x : BitVec n} {y : BitVec m} {bs cs : List Bool} (hx : HasBits x bs)
    (hy : HasBits y cs) (hm : cs.length = m) : HasBits (x ++ y) (cs ++ bs) := by
  intro k
  rw [BitVec.getLsbD_append]
  split_ifs with hk
  · rw [hy k, List.getD_append _ _ _ _ (by omega)]
  · rw [hx (k - m), List.getD_append_right _ _ _ _ (by omega), hm]

theorem hasBits_zero (n m : Nat) : HasBits (0#n) (List.replicate m false) := by
  intro k
  simp

theorem hasBits_ofBool (b : Bool) : HasBits (BitVec.ofBool b) [b] := by
  intro k
  cases k <;> simp

theorem hasBits_statusWord (s : State) : HasBits s.statusWord s.statusBits :=
  (hasBits_zero 22 0)
    |>.append (hasBits_ofBool s.cbRegistered) rfl
    |>.append (hasBits_ofBool s.timerRunning) rfl
    |>.append (hasBits_zero 2 2) rfl
    |>.append (hasBits_ofBool s.iResult) rfl
    |>.append (hasBits_ofBool s.iBusy) rfl
    |>.append (hasBits_zero 1 1) rfl
    |>.append (hasBits_ofBool s.fYield) rfl
    |>.append (hasBits_ofBool s.fResult) rfl
    |>.append (hasBits_ofBool s.fBusy) rfl

theorem getLsbD_statusWord_reserved (s : State) {k : Nat} (hk : k = 3 ∨ k = 6 ∨ k = 7 ∨ 10 ≤ k) :
    s.statusWord.getLsbD k = false := by
  rw [hasBits_statusWord s k]
  obtain rfl | rfl | rfl | hk := hk
  · rfl
  · rfl
  · rfl
  · exact List.getD_eq_default _ _ hk

/-- A field that stands `m` bits up in `x` stands `start` bits up in `x ++ y`, for a `y` of the bits between. -/
theorem extract_above {n m start len : Nat} {x : BitVec n} {y : BitVec m} {v : BitVec len} (hs : m ≤ start)
    (h : x.extractLsb' (start - m) len = v) : (x ++ y).extractLsb' start len = v :=
  (BitVec.extractLsb'_append_eq_of_le hs).trans h

/-- The packing of `REQ` (R73). -/
theorem reqWord_fields (s : State) :
    s.reqWord.extractLsb' 0 8 = s.toSet ∧ s.reqWord.extractLsb' 8 8 = s.toDisable
      ∧ s.reqWord.extractLsb' 16 16 = 0#16 := by
  unfold State.reqWord
  exact ⟨BitVec.extractLsb'_append_eq_right, extract_above (by decide) BitVec.extractLsb'_append_eq_right,
    extract_above (by decide) (extract_above (by decide) BitVec.extractLsb'_zero)⟩

/-- The packing of `SCAN` (R73). -/
theorem scanWord_fields (s : State) :
    s.scanWord.extractLsb' 0 8 = s.firstPin ∧ s.scanWord.extractLsb' 8 8 = s.lastPin
      ∧ s.scanWord.extractLsb' 16 8 = s.cursor ∧ s.scanWord.extractLsb' 24 8 = 0#8 := by
  unfold State.scanWord
  exact ⟨BitVec.extractLsb'_append_eq_right, extract_above (by decide) BitVec.extractLsb'_append_eq_right,
    extract_above (by decide) (extract_above (by decide) BitVec.extractLsb'_append_eq_right),
    extract_above (by decide) (extract_above (by decide) (extract_above (by decide) BitVec.extractLsb'_zero))⟩

/-- The packing of `CTRL` (R70). -/
theorem ctrlWord_fields (d : Desc) :
    d.ctrlWord.extractLsb' 0 2 = d.mode.code ∧ d.ctrlWord.extractLsb' 2 6 = 0#6
      ∧ d.ctrlWord.extractLsb' 8 8 = d.alignPhase ∧ d.ctrlWord.extractLsb' 16 1 = BitVec.ofBool d.autoPwm
      ∧ d.ctrlWord.extractLsb' 17 15 = 0#15 := by
  unfold Desc.ctrlWord
  exact ⟨BitVec.extractLsb'_append_eq_right, extract_above (by decide) BitVec.extractLsb'_append_eq_right,
    extract_above (by decide) (extract_above (by decide) BitVec.extractLsb'_append_eq_right),
    extract_above (by decide) (extract_above (by decide) (extract_above (by decide) BitVec.extractLsb'_append_eq_right)),
    extract_above (by decide) (extract_above (by decide) (extract_above (by decide) (extract_above (by decide)
      BitVec.extractLsb'_zero)))⟩

/-- Settles O10: `STATUS` by its list of bits (`hasBits_statusWord`), the other registers by their fields. -/
theorem statusRegistersArePacked : Obligations.StatusRegistersArePacked := by
  refine ⟨fun s => ?_, fun d => ?_⟩
  · have hbits := hasBits_statusWord s
    obtain ⟨hset, hdisable, hzero⟩ := reqWord_fields s
    exact ⟨hbits 0, hbits 1, hbits 2, hbits 4, hbits 5, hbits 8, hbits 9, fun _ hk => getLsbD_statusWord_reserved s hk,
      hset, hdisable, hzero, scanWord_fields s⟩
  · obtain ⟨hmode, hlow, halign, hauto, hhigh⟩ := ctrlWord_fields d
    refine ⟨?_, hlow, halign, ?_, hhigh⟩
    · rw [hmode]
      cases d.mode <;> rfl
    · simpa using congrArg (·.getLsbD 0) hauto

end Sys2Proof.Machine
end

section
/-! PROOFS. The steps of a start (R81, R84 to R91): what each step makes of the state it is taken in, a fresh start and a
live update from their acceptance on, and the wait that no `SERVICE` ends (R201). -/

namespace Sys2Proof.Machine

/-! ### One step of a start -/

/-- The instruction `i` is a start, it is the one in port F's latch, and its next step is `k` (R81). -/
structure StartAt (i : Instr) (k : PhaseF) (s : State) : Prop where
  isStart : i.isStart = true
  latched : s.cmdF.instr = i
  phase : s.phaseF = k

theorem StartAt.exec_startStep {i : Instr} {k : PhaseF} {s : State} (h : StartAt i k s) (hk : k ≠ .idle) :
    exec i s = .next s.startStep :=
  exec_start s i h.isStart h.latched (h.phase ▸ hk)

/-- A start at a named step takes that step: with the phase written out, `startStep` computes to the step's row in the
list of R81. -/
theorem StartAt.exec_row {i : Instr} {k : PhaseF} {s : State} (h : StartAt i k s) (hk : k ≠ .idle) :
    exec i s = .next ({ s with phaseF := k } : State).startStep := by
  rw [h.exec_startStep hk, ← h.phase]

/-- Settles O15: the rows `F1` to `F3`; and a descriptor write is local (`desc_setDesc`), since a pin is one of the 32. -/
theorem startStagesConfiguration : Obligations.StartStagesConfiguration := by
  refine ⟨fun _ _ hi hl => ⟨fun hk => (StartAt.mk hi hl hk).exec_row nofun,
    fun hk => (StartAt.mk hi hl hk).exec_row nofun, fun hk => (StartAt.mk hi hl hk).exec_row nofun⟩,
    fun s p q d hp => ?_⟩
  obtain ⟨_, hpins, _⟩ := s.cfg.valid
  exact desc_setDesc s p q d (by omega)

/-- Step `F4` (R85): the bit `enabled[pin]` is latched and the branch follows it. -/
theorem StartAt.exec_f4 {i : Instr} {s : State} (h : StartAt i .f4 s) {live : Bool}
    (hlive : s.isEnabled s.cmdF.pin.toNat = live) :
    exec i s = .next { s with
      cmdF := { s.cmdF with live := live }, phaseF := if live then .l5 else .f5 } := by
  subst hlive
  exact h.exec_row nofun

/-- Settles O16: both values of the bit. -/
theorem startBranchesOnEnabled : Obligations.StartBranchesOnEnabled :=
  fun _ _ hi hl hk => ⟨(StartAt.mk hi hl hk).exec_f4, (StartAt.mk hi hl hk).exec_f4⟩

/-- Settles O17: the rows `F5` to `F8`. -/
theorem freshStartStagesDescriptor : Obligations.FreshStartStagesDescriptor :=
  fun _ _ hi hl => ⟨fun hk => (StartAt.mk hi hl hk).exec_row nofun, fun hk => (StartAt.mk hi hl hk).exec_row nofun,
    fun hk => (StartAt.mk hi hl hk).exec_row nofun, fun hk => (StartAt.mk hi hl hk).exec_row nofun⟩

/-- Step `F9` of R87: the pin is driven low when the latched duty is zero. -/
def State.forceLow (s : State) : State := if s.cmdF.duty = 0#32 then s.gpioWrite s.cmdF.pin.toNat false else s

/-- Step `F9` (R87). -/
theorem StartAt.exec_f9 {i : Instr} {s : State} (h : StartAt i .f9 s) :
    exec i s = .next (s.forceLow.goF .f10) := by
  rw [h.exec_startStep nofun, State.startStep, h.phase, State.forceLow]

/-- Settles O18: the two cases of `forceLow`. -/
theorem zeroDutyStartForcesPinLow : Obligations.ZeroDutyStartForcesPinLow := by
  intro s i hi hl hk
  rw [(StartAt.mk hi hl hk).exec_f9, State.forceLow]
  refine ⟨fun hzero => ?_, fun hduty => ?_⟩
  · rw [if_pos hzero, State.goF]
  · rw [if_neg hduty, State.goF]

/-- Step `F11` (R89). -/
theorem StartAt.exec_f11 {i : Instr} {s : State} (h : StartAt i .f11 s) :
    exec i s = .next (s.ensureTimer.goF .f12) := by
  rw [h.exec_startStep nofun, State.startStep, h.phase]

/-- Settles O20: a dormant subsystem is initialised, a running one is kicked (`kick_cases`). -/
theorem freshStartMakesTheSchedulerRun : Obligations.FreshStartMakesTheSchedulerRun := by
  intro s i hi hl hk
  rw [(StartAt.mk hi hl hk).exec_f11, State.ensureTimer]
  refine ⟨fun hdormant => ?_, fun hrunning hfar => ?_, fun hrunning hnear => ?_⟩
  · rw [if_neg (by rw [hdormant]; nofun)]
    rfl
  · obtain ⟨_, _, hkick⟩ | ⟨hnear, _⟩ := kick_cases s
    · rw [if_pos hrunning, hkick, State.goF]
    · omega
  · obtain ⟨hfar, _⟩ | ⟨_, hkick⟩ := kick_cases s
    · omega
    · rw [if_pos hrunning, hkick, State.goF]

/-- Step `F10` with the slot free (R88, `freshStartPublishes`). -/
theorem StartAt.exec_f10 {i : Instr} {s : State} (h : StartAt i .f10 s) (hfree : s.toSet = pinNone) :
    exec i s = .next { s with toSet := s.cmdF.pin, phaseF := .f11 } :=
  (freshStartPublishes s i h.isStart h.latched h.phase).1 hfree

/-- Step `L6` (R91): a live update without a run time goes on at its end, `L9`. -/
theorem StartAt.exec_l6 {i : Instr} {s : State} (h : StartAt i .l6 s) {k : PhaseF}
    (hk : (if s.cmdF.run = 0#32 then .l9 else .l7) = k) :
    exec i s = .next ((s.modDesc s.cmdF.pin.toNat fun d => { d with expiryCcy := s.cmdF.run }).goF k) := by
  subst hk
  exact h.exec_row nofun

/-- Settles O22: the rows `L5` to `L7`, with the branch of `L6`, and the guarded publish of `L8`. -/
theorem liveUpdatePassesThroughInfinite : Obligations.LiveUpdatePassesThroughInfinite := by
  refine fun s i hi hl => ⟨fun hk => ?_, fun hk hrun => ?_, fun hk hrun => ?_, fun hk => ?_, fun hk hfree => ?_,
    fun hk htaken => ?_⟩
  · exact (StartAt.mk hi hl hk).exec_row nofun
  · exact (StartAt.mk hi hl hk).exec_l6 (if_pos hrun)
  · exact (StartAt.mk hi hl hk).exec_l6 (if_neg hrun)
  · exact (StartAt.mk hi hl hk).exec_row nofun
  · rw [(StartAt.mk hi hl hk).exec_startStep nofun, State.startStep, hk, publishSet_of_free .l9 hfree]
  · rw [(StartAt.mk hi hl hk).exec_startStep nofun, State.startStep, hk, publishSet_of_taken .l9 htaken]

/-! ### Several steps of a start -/

/-- Some steps of a command and then some more of it. -/
theorem execSteps_add {i : Instr} {m n : Nat} {s t : State} (h : execSteps i m s = .next t) :
    execSteps i (m + n) s = execSteps i n t := by
  induction m generalizing s with
  | zero =>
    cases h
    rw [Nat.zero_add]
  | succ m ih =>
    rw [Nat.succ_add]
    simp only [execSteps] at h ⊢
    cases he : exec i s with
    | next u =>
      rw [he] at h
      exact ih h
    | fault | refused =>
      rw [he] at h
      cases h

/-- The next `n` steps of the start `i` lead from `s` to `t`, where its next step is `k`. -/
structure Reaches (i : Instr) (n : Nat) (s : State) (k : PhaseF) (t : State) : Prop where
  run : execSteps i n s = .next t
  arrived : StartAt i k t

theorem Reaches.of_exec {i : Instr} {s t : State} {k : PhaseF} (he : exec i s = .next t) (ht : StartAt i k t) :
    Reaches i 1 s k t :=
  ⟨by simp only [execSteps, he], ht⟩

theorem Reaches.trans {i : Instr} {m n : Nat} {s t u : State} {k k' : PhaseF} (h : Reaches i m s k t)
    (g : Reaches i n t k' u) : Reaches i (m + n) s k' u :=
  ⟨(execSteps_add h.run).trans g.run, g.arrived⟩

/-- One step of a start that keeps the instruction in the latch. -/
theorem StartAt.reaches {i : Instr} {s t : State} {k k' : PhaseF} (h : StartAt i k s) (he : exec i s = .next t)
    (hl : t.cmdF.instr = s.cmdF.instr) (hk : t.phaseF = k') : Reaches i 1 s k' t :=
  .of_exec he ⟨h.isStart, hl.trans h.latched, hk⟩

/-- Two writes of one descriptor are one (R45). -/
theorem modDesc_modDesc (s : State) (p : Nat) (f g : Desc → Desc) :
    (s.modDesc p f).modDesc p g = s.modDesc p (g ∘ f) := by
  by_cases hp : p < 32
  · rw [State.modDesc, State.modDesc, State.modDesc, setDesc_setDesc, desc_setDesc s p p _ hp, if_pos rfl]
    rfl
  · simp only [State.modDesc, setDesc_outside _ _ _ (Nat.le_of_not_lt hp)]

/-- In the `n` steps from `k` to `k'` a start stages fields of its pin's descriptor and does nothing else; `f` of its latch
says which. -/
def Stages (n : Nat) (k k' : PhaseF) (f : LatchF → Desc → Desc) : Prop :=
  ∀ (i : Instr) (s : State), StartAt i k s →
    Reaches i n s k' ((s.modDesc s.cmdF.pin.toNat (f s.cmdF)).goF k')

/-- A step of R81 that stages fields of the descriptor. -/
theorem Stages.step {k k' : PhaseF} {f : LatchF → Desc → Desc} (hk : k ≠ .idle)
    (h : ∀ s : State, ({ s with phaseF := k } : State).startStep = (s.modDesc s.cmdF.pin.toNat (f s.cmdF)).goF k') :
    Stages 1 k k' f :=
  fun _ s hs => hs.reaches ((hs.exec_row hk).trans (congrArg _ (h s))) rfl rfl

theorem Stages.trans {m n : Nat} {k k' k'' : PhaseF} {f g : LatchF → Desc → Desc} (hf : Stages m k k' f)
    (hg : Stages n k' k'' g) : Stages (m + n) k k'' fun c => g c ∘ f c := by
  intro i s hs
  have hfirst := hf i s hs
  rw [← modDesc_modDesc]
  exact hfirst.trans (hg i _ hfirst.arrived)

/-- The fields that `F1` to `F3` stage (R84). -/
def LatchF.configure (c : LatchF) (d : Desc) : Desc :=
  { d with dutyCcys := c.duty, periodCcys := c.period, autoPwm := c.autoPwm }

/-- The fields that `F5` to `F8` stage (R86). -/
def LatchF.stageFresh (c : LatchF) (d : Desc) : Desc :=
  { d with nextPeriodCcy := c.offset, expiryCcy := c.run, mode := .init, alignPhase := alignTarget c.align }

/-- The fields that `L5` and `L6` stage (R91). -/
def LatchF.stageLive (c : LatchF) (d : Desc) : Desc := { d with mode := .infinite, expiryCcy := c.run }

theorem stages_configure : Stages 3 .f1 .f4 LatchF.configure :=
  have f1 : Stages 1 .f1 .f2 fun c d => { d with dutyCcys := c.duty } := .step nofun fun _ => rfl
  have f2 : Stages 1 .f2 .f3 fun c d => { d with periodCcys := c.period } := .step nofun fun _ => rfl
  have f3 : Stages 1 .f3 .f4 fun c d => { d with autoPwm := c.autoPwm } := .step nofun fun _ => rfl
  (f1.trans f2).trans f3

theorem stages_stageFresh : Stages 4 .f5 .f9 LatchF.stageFresh :=
  have f5 : Stages 1 .f5 .f6 fun c d => { d with nextPeriodCcy := c.offset } := .step nofun fun _ => rfl
  have f6 : Stages 1 .f6 .f7 fun c d => { d with expiryCcy := c.run } := .step nofun fun _ => rfl
  have f7 : Stages 1 .f7 .f8 fun _ d => { d with mode := .init } := .step nofun fun _ => rfl
  have f8 : Stages 1 .f8 .f9 fun c d => { d with alignPhase := alignTarget c.align } := .step nofun fun _ => rfl
  ((f5.trans f6).trans f7).trans f8

/-! ### From the acceptance to the branch -/

/-- The latch of a start after step `F4`: the operands sampled at its acceptance (R64, R65), the durations of step `V`
(R83) and the bit read at `F4` (R85). -/
def State.startLatch (s : State) (op : Op) (scale : Word → Word) (a : Bool) (l p : Byte) : LatchF :=
  { op := op, pin := p, align := l, autoPwm := a, en := s.cmdF.en
    high := scale s.arg0, low := scale s.arg1, run := scale s.arg2, offset := scale s.arg3
    duty := (stretch s.cfg (scale s.arg0) (scale s.arg1)).1
    period := (stretch s.cfg (scale s.arg0) (scale s.arg1)).2
    live := s.isEnabled p.toNat }

/-- A start at its branch: the configuration of the pin is staged, and step `F4` has been taken (R84, R85). -/
def State.branched (s : State) (op : Op) (scale : Word → Word) (a : Bool) (l p : Byte) : State :=
  let c := s.startLatch op scale a l p
  (({ s with cmdF := c } : State).modDesc p.toNat c.configure).goF (if c.live then .l5 else .f5)

/-- The acceptance of a start, in microseconds or in cycles (R80, R81). -/
theorem reaches_v {s : State} {i : Instr} {scale : Word → Word} {a : Bool} {l p : Byte}
    (hi : (i = .startUs a l p ∧ scale = us2Ccy s.cfg) ∨ (i = .startCcy a l p ∧ scale = id)) (hidle : s.phaseF = .idle) :
    ∃ op, Reaches i 1 s .v (s.acceptStart op scale a l p) := by
  obtain ⟨rfl, rfl⟩ | ⟨rfl, rfl⟩ := hi
  · exact ⟨.startUs, .of_exec (exec_acceptF rfl hidle) ⟨rfl, rfl, rfl⟩⟩
  · exact ⟨.startCcy, .of_exec (exec_acceptF rfl hidle) ⟨rfl, rfl, rfl⟩⟩

/-- Step `V` of a start whose operands pass the tests (R82, R83). -/
theorem StartAt.exec_v {i : Instr} {s : State} (h : StartAt i .v s)
    (hvalid : validate s.cfg s.cmdF.pin s.cmdF.align s.cmdF.high s.cmdF.low = none) :
    exec i s = .next { s with
      cmdF := { s.cmdF with
        duty := (stretch s.cfg s.cmdF.high s.cmdF.low).1, period := (stretch s.cfg s.cmdF.high s.cmdF.low).2 }
      phaseF := .f1 } := by
  rw [h.exec_startStep nofun, State.startStep, h.phase]
  simp only [State.stepValidate, hvalid]

/-- A start whose operands pass the tests is at its branch after six steps. -/
theorem reaches_branched {s : State} {i : Instr} {scale : Word → Word} {a : Bool} {l p : Byte}
    (hi : (i = .startUs a l p ∧ scale = us2Ccy s.cfg) ∨ (i = .startCcy a l p ∧ scale = id)) (hidle : s.phaseF = .idle)
    (hvalid : validate s.cfg p l (scale s.arg0) (scale s.arg1) = none) :
    ∃ op, Reaches i 6 s (if s.isEnabled p.toNat then .l5 else .f5) (s.branched op scale a l p) := by
  obtain ⟨op, hv⟩ := reaches_v hi hidle
  have hf1 := hv.arrived.reaches (hv.arrived.exec_v hvalid) rfl rfl
  have hf4 := stages_configure i _ hf1.arrived
  have hbranch := hf4.arrived.reaches (hf4.arrived.exec_f4 rfl) rfl rfl
  exact ⟨op, ((hv.trans hf1).trans hf4).trans hbranch⟩

/-- The pin of a start that passes the tests is one of the 32 (R82). -/
theorem pin_lt_of_validate {c : Cfg} {pin align : Byte} {high low : Word} (h : validate c pin align high low = none) :
    pin.toNat < 32 := by
  have hgood := (validate_eq_none_iff c pin align high low).mp h
  obtain ⟨_, hpins, _⟩ := c.valid
  by_contra hpin
  exact hgood (.inl (by omega))

/-- The table once more descriptor fields of a start at its branch are staged. -/
theorem desc_branched_modDesc (s : State) (op : Op) (scale : Word → Word) (a : Bool) (l : Byte) {p : Byte}
    (hp : p.toNat < 32) (f : Desc → Desc) (q : Nat) :
    ((s.branched op scale a l p).modDesc p.toNat f).desc q =
      if q = p.toNat then f ((s.startLatch op scale a l p).configure (s.desc p.toNat)) else s.desc q := by
  rw [State.branched, desc_modDesc _ _ _ _ hp, goF_desc, goF_desc, desc_modDesc _ _ _ _ hp, desc_modDesc _ _ _ _ hp,
    if_pos rfl]
  split <;> rfl

/-! ### A fresh start to its wait -/

/-- The forced level is a write of the pin and nothing else (R48, R87). -/
theorem forceLow_eq (s : State) : s.forceLow = { s with gpio := s.forceLow.gpio, trace := s.forceLow.trace } := by
  unfold State.forceLow
  split <;> rfl

/-- After step `F11` the subsystem runs, and nothing but the timer has changed (R89). -/
theorem ensureTimer_eq (s : State) : s.ensureTimer = { s with
    timerRunning := true
    tEnabled := s.ensureTimer.tEnabled
    tArmed := s.ensureTimer.tArmed
    tFireAt := s.ensureTimer.tFireAt } := by
  unfold State.ensureTimer
  split
  · next hrunning =>
    rw [← hrunning]
    obtain ⟨_, _, hkick⟩ | ⟨_, hkick⟩ := kick_cases s <;> rw [hkick]
  · rfl

/-- Steps `F9` to `F11` with the slot free: the pin is published and the subsystem runs (R87 to R89). -/
theorem StartAt.reaches_f12 {i : Instr} {s : State} (h : StartAt i .f9 s) (hfree : s.toSet = pinNone) :
    ∃ gpio trace tEnabled tArmed tFireAt, Reaches i 3 s .f12 { s with
      toSet := s.cmdF.pin, timerRunning := true, phaseF := .f12
      gpio := gpio, trace := trace, tEnabled := tEnabled, tArmed := tArmed, tFireAt := tFireAt } := by
  have he := h.exec_f9
  rw [forceLow_eq] at he
  have hf10 := h.reaches (k' := .f10) he rfl rfl
  have hf11 := hf10.arrived.reaches (k' := .f11) (hf10.arrived.exec_f10 hfree) rfl rfl
  have he' := hf11.arrived.exec_f11
  rw [ensureTimer_eq] at he'
  exact ⟨_, _, _, _, _, (hf10.trans hf11).trans (hf11.arrived.reaches he' rfl rfl)⟩

/-- Settles O23: six steps to the branch, four that stage the descriptor and three that publish it and start the timer. -/
theorem freshStartRunsToItsWait : Obligations.FreshStartRunsToItsWait := by
  intro s i scale a l p hi hidle hfree hdisabled hvalid
  obtain ⟨op, hbranch⟩ := reaches_branched hi hidle hvalid
  rw [hdisabled] at hbranch
  have hf9 := stages_stageFresh i _ hbranch.arrived
  obtain ⟨_, _, _, _, _, hf12⟩ := hf9.arrived.reaches_f12 hfree
  have hdesc := desc_branched_modDesc s op scale a l (pin_lt_of_validate hvalid) (s.startLatch op scale a l p).stageFresh
  exact ⟨_, ((hbranch.trans hf9).trans hf12).run, rfl, rfl, rfl, rfl, rfl, rfl,
    (hdesc p.toNat).trans (if_pos rfl), fun q hq => (hdesc q).trans (if_neg hq)⟩

/-! ### A live update without a run time -/

/-- Steps `L5` and `L6` of a live update without a run time (R91). -/
theorem StartAt.reaches_l9 {i : Instr} {s : State} (h : StartAt i .l5 s) (hrun : s.cmdF.run = 0#32) :
    Reaches i 2 s .l9 ((s.modDesc s.cmdF.pin.toNat s.cmdF.stageLive).goF .l9) := by
  have l5 : Stages 1 .l5 .l6 fun _ d => { d with mode := .infinite } := .step nofun fun _ => rfl
  have hl6 := l5 i s h
  have hl9 := hl6.arrived.reaches (hl6.arrived.exec_l6 (if_pos hrun)) rfl rfl
  have hwrites : (s.modDesc s.cmdF.pin.toNat fun d => { d with mode := .infinite }).modDesc s.cmdF.pin.toNat
      (fun d => { d with expiryCcy := s.cmdF.run }) = s.modDesc s.cmdF.pin.toNat s.cmdF.stageLive :=
    modDesc_modDesc s _ _ _
  rw [← hwrites]
  exact hl6.trans hl9

/-- Settles O24: six steps to the branch, two that stage the unlimited mode and the end, for which the slot is free. -/
theorem liveUpdateWithoutRunTimeEnds : Obligations.LiveUpdateWithoutRunTimeEnds := by
  intro s i scale a l p hi hidle hfree henabled hrun hvalid
  obtain ⟨op, hbranch⟩ := reaches_branched hi hidle hvalid
  rw [henabled] at hbranch
  have hl9 := hbranch.arrived.reaches_l9 hrun
  obtain ⟨hi, hl, hk⟩ := hl9.arrived
  obtain ⟨_, hend, _⟩ := startEndsWhenRequestConsumed _ i hi hl (.inr hk)
  have hdesc := desc_branched_modDesc s op scale a l (pin_lt_of_validate hvalid) (s.startLatch op scale a l p).stageLive
  refine ⟨_, ((hbranch.trans hl9).trans (hl9.arrived.reaches (hend hfree) rfl rfl)).run, rfl, rfl, hfree, rfl, rfl, rfl,
    rfl, ((hdesc p.toNat).trans (if_pos rfl)).trans ?_, fun q hq => (hdesc q).trans (if_neg hq)⟩
  rw [LatchF.stageLive, State.startLatch, hrun]
  rfl

/-! ### The wait that no `SERVICE` ends -/

/-- A start that waits at `F12` for the request `req`, with the timer subsystem torn down (R201). -/
structure StuckAt (req : Byte) (s : State) : Prop where
  phaseF : s.phaseF = .f12
  toSet : s.toSet = req
  timerRunning : s.timerRunning = false
  tEnabled : s.tEnabled = false

theorem StuckAt.of_same {req : Byte} {s t : State} (h : StuckAt req s) (hp : t.phaseF = s.phaseF)
    (hs : t.toSet = s.toSet) (hr : t.timerRunning = s.timerRunning) (he : t.tEnabled = s.tEnabled) : StuckAt req t :=
  ⟨hp.trans h.phaseF, hs.trans h.toSet, hr.trans h.timerRunning, he.trans h.tEnabled⟩

/-- The step at `F12` waits for the slot, whatever command is in the latch (R90). -/
theorem latchedStepF_of_f12 {s : State} (hk : s.phaseF = .f12) (htaken : s.toSet ≠ pinNone) : s.latchedStepF = s := by
  cases hop : s.cmdF.op <;> simp only [State.latchedStepF, hop]
  case startUs | startCcy => rw [State.startStep, hk, State.awaitSet, if_neg htaken]
  case stop => rw [State.stopStepF, hk]
  case setcb => rw [State.setcbStep, hk]

/-- No step of a stop wakes a dormant timer subsystem (R100). -/
theorem stopStep_dormant {s : State} {port : CmdPort} {k : StopStep} (hr : s.timerRunning = false)
    (he : s.tEnabled = false) :
    (s.stopStep port k).timerRunning = false ∧ (s.stopStep port k).tEnabled = false := by
  have hmove := stopMove s port k
  generalize s.stopStep port k = t at hmove
  cases hmove <;> simp [hr, he]

theorem StuckAt.stopStepI {req : Byte} {s : State} (h : StuckAt req s) : StuckAt req s.stopStepI := by
  unfold State.stopStepI
  split
  · next k _ =>
    obtain ⟨_, hphase, hset⟩ := stopStep_i_keepsPortF s k
    obtain ⟨hrunning, henabled⟩ := stopStep_dormant (port := .i) (k := k) h.timerRunning h.tEnabled
    exact ⟨hphase.trans h.phaseF, hset.trans h.toSet, hrunning, henabled⟩
  · exact h

/-- Every input but a reset leaves the wait as it is: port F waits, the timer raises no `SERVICE`, and a busy port F accepts
no word. -/
theorem does_stuckAt {req : Byte} (hreq : req ≠ pinNone) {e : Input} {s t : State} (h : Does s e t)
    (hreset : e ≠ .reset) (hs : StuckAt req s) : StuckAt req t := by
  have hbusy : s.phaseF ≠ .idle := by
    rw [hs.phaseF]
    nofun
  cases h with
  | noStepF | noStepI | noIrq | noRead | noWrite => exact hs
  | portF _ _ he =>
    rw [exec_latchedF hbusy, latchedStepF_of_f12 hs.phaseF (by rwa [hs.toSet])] at he
    cases he
    exact hs
  | portI hb he =>
    rw [exec_latchedI hb] at he
    cases he
    exact hs.stopStepI
  | service _ hirq => exact absurd (hs.tEnabled.symm.trans hirq) nofun
  | elapse n => exact hs.of_same (by simp) (by simp) (by simp) (by simp)
  | read | storeF | storeI | failI => exact hs.of_same rfl rfl rfl rfl
  | failF _ _ _ _ hk => exact absurd hk hbusy
  | acceptF _ _ _ _ _ hk => exact absurd hk hbusy
  | acceptI _ _ _ w i hk hi he =>
    obtain ⟨pin, hacc⟩ := exec_acceptI hi (s := { s with cmdWordI := w }) hk
    rw [hacc] at he
    cases he
    exact hs.of_same rfl rfl rfl rfl
  | write =>
    unfold State.writeReg
    split <;> exact hs.of_same rfl rfl rfl rfl
  | reset => exact absurd rfl hreset

/-- Settles O58: the wait is kept by everything an input can do (`does_stuckAt`). -/
theorem tornDownStartWaitsForever : Obligations.TornDownStartWaitsForever := by
  intro s t hphase htaken hrunning henabled hreset hstep
  have hs : StuckAt s.toSet s.nextInput.2 := by
    rw [nextInput_eq]
    exact ⟨hphase, rfl, hrunning, henabled⟩
  obtain ⟨hp, ht, hr, he⟩ := does_stuckAt htaken (does_of_step s t hstep) hreset hs
  exact ⟨hp, ht, hr, he⟩

end Sys2Proof.Machine
end

section
/-! PROOFS. The steps of a stop (R100 to R108): what each step makes of the state it is taken in, the same on both ports
(R107), and the stop of a pin that is not enabled from its acceptance to its end. -/

namespace Sys2Proof.Machine

/-! ### One step of a stop -/

/-- The stop of `pin` that a port executes (R100, R107). -/
def CmdPort.stop (port : CmdPort) (pin : Byte) : Instr :=
  match port with
  | .f => .stop pin
  | .i => .istop pin

/-- The stop of `pin` is the command in progress on a port, and its next step is `k` (R12, R107). -/
inductive StopAt (pin : Byte) (k : StopStep) (s : State) : CmdPort → Prop
  | f (phase : s.phaseF = .t k) (latched : s.cmdF.instr = .stop pin) : StopAt pin k s .f
  | i (phase : s.phaseI = .t k) (latched : s.cmdI.pin = pin) : StopAt pin k s .i

theorem StopAt.stopPin {port : CmdPort} {pin : Byte} {k : StopStep} {s : State} (h : StopAt pin k s port) :
    s.stopPin port = pin := by
  cases h with
  | f _ hl => exact (pin_of_instr_stop _ _ hl).2
  | i _ hl => exact hl

theorem StopAt.exec_stopStep {port : CmdPort} {pin : Byte} {k : StopStep} {s : State} (h : StopAt pin k s port) :
    exec (port.stop pin) s = .next (s.stopStep port k) := by
  cases h with
  | f hk hl => exact exec_stop s pin k hk hl
  | i hk hl => exact exec_istop s pin k hk hl

section Rows

variable {port : CmdPort} {pin : Byte} {s : State}

/-- Step `T0` in a dormant subsystem (R101, R165). -/
theorem StopAt.exec_t0_of_dormant (h : StopAt pin .t0 s port) (hdormant : s.timerRunning = false) :
    exec (port.stop pin) s = .next (s.endCommand port false) := by
  rw [h.exec_stopStep, State.stopStep, if_neg (by rw [hdormant]; nofun), fail_eq]

/-- Step `T0` in a running subsystem (R101). -/
theorem StopAt.exec_t0_of_running (h : StopAt pin .t0 s port) (hrunning : s.timerRunning = true) :
    exec (port.stop pin) s = .next (s.goStop port .t1) := by
  rw [h.exec_stopStep, State.stopStep, if_pos hrunning]

/-- Step `T1` (R102): what the test finds is latched and the branch follows it. -/
theorem StopAt.exec_t1 (h : StopAt pin .t1 s port) {live : Bool} (hlive : s.stopFinds pin = live) :
    exec (port.stop pin) s = .next ((s.setLive port live).goStop port (if live = true then .t2 else .t5)) := by
  rw [h.exec_stopStep, State.stopStep, h.stopPin, hlive]

/-- Step `T2` with the slot free (R103). -/
theorem StopAt.exec_t2_of_free (h : StopAt pin .t2 s port) (hfree : s.toDisable = pinNone) :
    exec (port.stop pin) s = .next (({ s with toDisable := pin } : State).goStop port .t3) := by
  rw [h.exec_stopStep, State.stopStep, if_pos hfree, h.stopPin]

/-- Step `T2` with the slot taken (R103). -/
theorem StopAt.exec_t2_of_taken (h : StopAt pin .t2 s port) (htaken : s.toDisable ≠ pinNone) :
    exec (port.stop pin) s = .next s := by
  rw [h.exec_stopStep, State.stopStep, if_neg htaken]

/-- Step `T3` with the timer further away than the kick (R104). -/
theorem StopAt.exec_t3_of_far (h : StopAt pin .t3 s port) (hfar : s.cfg.kickCcys < s.timerRemaining) :
    exec (port.stop pin) s = .next ((s.timerWrite s.cfg.kickCcys).goStop port .t4) := by
  rw [h.exec_stopStep, State.stopStep, State.kick, if_pos hfar]

/-- Step `T3` with the timer imminent, fired or unarmed (R104). -/
theorem StopAt.exec_t3_of_near (h : StopAt pin .t3 s port) (hnear : s.timerRemaining ≤ s.cfg.kickCcys) :
    exec (port.stop pin) s = .next (s.goStop port .t4) := by
  rw [h.exec_stopStep, State.stopStep, State.kick, if_neg (Nat.not_lt.mpr hnear)]

/-- Step `T4` with the request consumed (R105). -/
theorem StopAt.exec_t4_of_free (h : StopAt pin .t4 s port) (hfree : s.toDisable = pinNone) :
    exec (port.stop pin) s = .next (s.goStop port .t5) := by
  rw [h.exec_stopStep, State.stopStep, if_pos hfree]

/-- Step `T4` with the slot still taken (R105). -/
theorem StopAt.exec_t4_of_taken (h : StopAt pin .t4 s port) (htaken : s.toDisable ≠ pinNone) :
    exec (port.stop pin) s = .next s := by
  rw [h.exec_stopStep, State.stopStep, if_neg htaken]

/-- Step `T5` with no further need of the timer (R106, R112). -/
theorem StopAt.exec_t5_of_idle (h : StopAt pin .t5 s port) (henabled : s.enabled = 0#32)
    (hcb : s.cbRegistered = false) : exec (port.stop pin) s = .next (s.deinitTimer.endCommand port true) := by
  rw [h.exec_stopStep, State.stopStep, if_pos ⟨henabled, hcb⟩]

/-- Step `T5` with the timer still needed (R106). -/
theorem StopAt.exec_t5_of_needed (h : StopAt pin .t5 s port) (hneeded : s.enabled ≠ 0#32 ∨ s.cbRegistered = true) :
    exec (port.stop pin) s = .next (s.endCommand port true) := by
  have hbusy : ¬(s.enabled = 0#32 ∧ s.cbRegistered = false) := by
    rintro ⟨henabled, hcb⟩
    obtain hpins | hreg := hneeded
    · exact hpins henabled
    · rw [hcb] at hreg
      cases hreg
  rw [h.exec_stopStep, State.stopStep, if_neg hbusy]

end Rows

theorem stopFinds_iff (s : State) (pin : Byte) :
    s.stopFinds pin = true ↔ pin.toNat < s.cfg.npins ∧ maskBit s.enabled pin.toNat = true := by
  rw [State.stopFinds, State.isEnabled, Bool.and_eq_true, decide_eq_true_iff]

/-- A pin whose bit is 0 is not found, whether the map has it or not (R102). -/
theorem stopFinds_of_disabled {s : State} {pin : Byte} (h : s.isEnabled pin.toNat = false) :
    s.stopFinds pin = false := by
  rw [State.stopFinds, h, Bool.and_false]

/-- Settles O25: both cases of step `T0` on each port. -/
theorem stopFailsWhileDormant : Obligations.StopFailsWhileDormant := by
  refine fun s pin => ⟨fun hk hl => ?_, fun hk hl => ?_⟩
  · have h := StopAt.f hk hl
    exact ⟨h.exec_t0_of_dormant, h.exec_t0_of_running⟩
  · have h := StopAt.i hk hl
    exact ⟨h.exec_t0_of_dormant, h.exec_t0_of_running⟩

/-- Settles O26: the live bit of step `T1` is what the test finds (`stopFinds_iff`). -/
theorem stopLooksAtEnabled : Obligations.StopLooksAtEnabled := by
  intro s pin live hlive
  have hfinds : s.stopFinds pin = live := Bool.eq_iff_iff.mpr ((stopFinds_iff s pin).trans hlive.symm)
  exact ⟨fun hk hl => (StopAt.f hk hl).exec_t1 hfinds, fun hk hl => (StopAt.i hk hl).exec_t1 hfinds⟩

/-- Settles O27: the guarded steps `T2` and `T4` on each port; port F yields at no step of a stop. -/
theorem stopPublishesAndWaits : Obligations.StopPublishesAndWaits := by
  refine fun s pin => ⟨fun hk hl => ?_, fun hk hl => ?_, fun hk hl => ?_, fun hk hl => ?_⟩
  · have h := StopAt.f hk hl
    exact ⟨h.exec_t2_of_free, h.exec_t2_of_taken⟩
  · have h := StopAt.i hk hl
    exact ⟨h.exec_t2_of_free, h.exec_t2_of_taken⟩
  · have h := StopAt.f hk hl
    have hyield : s.fYield = false := by
      rw [State.fYield, hk]
      rfl
    exact ⟨hyield, h.exec_t4_of_free, h.exec_t4_of_taken⟩
  · have h := StopAt.i hk hl
    exact ⟨h.exec_t4_of_free, h.exec_t4_of_taken⟩

/-- Settles O28: both cases of step `T3` on each port. -/
theorem stopKicksTheTimer : Obligations.StopKicksTheTimer := by
  refine fun s pin => ⟨fun hk hl => ?_, fun hk hl => ?_⟩
  · have h := StopAt.f hk hl
    exact ⟨h.exec_t3_of_far, h.exec_t3_of_near⟩
  · have h := StopAt.i hk hl
    exact ⟨h.exec_t3_of_far, h.exec_t3_of_near⟩

/-- Settles O29: both cases of step `T5` on each port. -/
theorem stopTearsDownAnIdleTimer : Obligations.StopTearsDownAnIdleTimer := by
  refine fun s pin => ⟨fun hk hl => ?_, fun hk hl => ?_⟩
  · have h := StopAt.f hk hl
    exact ⟨h.exec_t5_of_idle, h.exec_t5_of_needed⟩
  · have h := StopAt.i hk hl
    exact ⟨h.exec_t5_of_idle, h.exec_t5_of_needed⟩

/-! ### The stop of a pin that is not enabled -/

theorem StopAt.goStop {port : CmdPort} {pin : Byte} {k : StopStep} {s : State} (h : StopAt pin k s port)
    (k' : StopStep) : StopAt pin k' (s.goStop port k') port := by
  cases h with
  | f _ hl => exact .f rfl hl
  | i _ hl => exact .i rfl hl

theorem StopAt.setLive {port : CmdPort} {pin : Byte} {k : StopStep} {s : State} (h : StopAt pin k s port)
    (v : Bool) : StopAt pin k (s.setLive port v) port := by
  cases h with
  | f hk hl => exact .f hk hl
  | i hk hl => exact .i hk hl

/-- The end of a command forgets at which step of a stop it was (R29). -/
theorem goStop_endCommand (s : State) (port : CmdPort) (k : StopStep) (r : Bool) :
    (s.goStop port k).endCommand port r = s.endCommand port r := by
  cases port <;> rfl

/-- One step of a command and then some more of it. -/
theorem execSteps_succ_of_exec {i : Instr} {n : Nat} {s t : State} (h : exec i s = .next t) :
    execSteps i (n + 1) s = execSteps i n t := by
  simp only [execSteps, h]

/-- From `T0` a stop of a pin that is not enabled goes by `T1` to `T5`, and leaves alone a timer that something else
needs (R108 (a)). -/
theorem StopAt.execSteps_of_disabled {port : CmdPort} {pin : Byte} {s : State} (h : StopAt pin .t0 s port)
    (hrunning : s.timerRunning = true) (hdisabled : s.isEnabled pin.toNat = false)
    (hneeded : s.enabled ≠ 0#32 ∨ s.cbRegistered = true) :
    execSteps (port.stop pin) 3 s = .next (((s.goStop port .t1).setLive port false).endCommand port true) := by
  have h1 : StopAt pin .t1 (s.goStop port .t1) port := h.goStop .t1
  have hlooks := h1.exec_t1 (stopFinds_of_disabled ((goStop_isEnabled s port .t1 _).trans hdisabled))
  have h5 : StopAt pin .t5 (((s.goStop port .t1).setLive port false).goStop port .t5) port :=
    (h1.setLive false).goStop .t5
  have hends := h5.exec_t5_of_needed (by simpa using hneeded)
  rw [goStop_endCommand] at hends
  calc execSteps (port.stop pin) 3 s
    _ = execSteps (port.stop pin) 2 (s.goStop port .t1) := execSteps_succ_of_exec (h.exec_t0_of_running hrunning)
    _ = execSteps (port.stop pin) 1 (((s.goStop port .t1).setLive port false).goStop port .t5) :=
      execSteps_succ_of_exec hlooks
    _ = .next (((s.goStop port .t1).setLive port false).endCommand port true) := execSteps_succ_of_exec hends

/-- Settles O30: the acceptance and three steps (`StopAt.execSteps_of_disabled`); the port is idle before and after. -/
theorem stopOfADisabledPinChangesNothing : Obligations.StopOfADisabledPinChangesNothing := by
  refine fun s pin hrunning hdisabled hneeded => ⟨fun hidle => ?_, fun hidle => ?_⟩
  · have h : StopAt pin .t0 (s.acceptStop pin) .f := .f rfl rfl
    rw [execSteps_succ_of_exec (exec_acceptF rfl hidle)]
    refine (h.execSteps_of_disabled hrunning hdisabled hneeded).trans ?_
    rw [hidle]
    rfl
  · have h : StopAt pin .t0 (s.acceptIstop pin) .i := .i rfl rfl
    rw [execSteps_succ_of_exec (exec_istop_of_idle pin hidle)]
    refine (h.execSteps_of_disabled hrunning hdisabled hneeded).trans ?_
    rw [hidle]
    rfl

end Sys2Proof.Machine
end

section
/-! PROOFS. `SETCB` (R110) and the lifecycle of the timer subsystem (R111 to R113): what each step of a `SETCB` makes of
the state it is taken in, and no pin enabled while the subsystem is dormant, through every step. -/

namespace Sys2Proof.Machine

/-! ### No pin enabled while dormant -/

/-- A move of the timer writes no pin's bit, and ends the subsystem only with no pin enabled (R112). -/
theorem EnabledImpliesRunning.move {s t : State} (h : EnabledImpliesRunning s) (k : TimerMove s t) :
    EnabledImpliesRunning t := by
  cases k with
  | same k | kick _ _ k =>
    intro hpins
    rw [k.enabled] at hpins
    exact k.timerRunning.trans (h hpins)
  | init _ k => exact fun _ => k.timerRunning
  | deinit hnone k => exact fun hpins => absurd (k.enabled.trans hnone) hpins

/-- A `SERVICE` may enable a pin (R122), but the interrupt that starts it pends only while the subsystem runs (R189). -/
theorem does_enabledImpliesRunning {e : Input} {s t : State} (h : Does s e t) (hc : TimerCoherent s)
    (hr : EnabledImpliesRunning s) : EnabledImpliesRunning t := by
  obtain k | ⟨rfl, _, hpending, _⟩ | ⟨n, _, rfl⟩ | ⟨_, rfl⟩ := does_timer e s t h
  · exact hr.move k
  · obtain ⟨_, _, hdormant⟩ := hc
    have hrunning : s.timerRunning = true := by
      by_contra hstopped
      obtain ⟨_, hnone⟩ := hdormant (eq_false_of_ne_true hstopped)
      rw [hpending] at hnone
      cases hnone
    exact fun _ => (SchedulerKeeps.service s).timerRunning.trans hrunning
  · intro hpins
    rw [elapse_enabled] at hpins
    rw [elapse_timerRunning]
    exact hr hpins
  · exact fun hpins => absurd rfl hpins

/-- Settles O54: what each input can do keeps the timer coherent, and with its help the enabled pins within the running
subsystem. -/
theorem stepKeepsTheTimerCoherent : Obligations.StepKeepsTheTimerCoherent := by
  intro s t hc hr h
  have hc' : TimerCoherent s.nextInput.2 := by rw [nextInput_eq]; exact hc
  have hr' : EnabledImpliesRunning s.nextInput.2 := by rw [nextInput_eq]; exact hr
  have hdoes := does_of_step s t h
  exact ⟨does_timerCoherent hdoes hc', does_enabledImpliesRunning hdoes hc' hr'⟩

/-! ### The steps of `SETCB` -/

/-- Registering wakes a dormant subsystem (R111). -/
theorem callbackLifecycle_of_dormant {s : State} (h : s.timerRunning = false) :
    s.callbackLifecycle true = s.initTimer := if_pos ⟨h, rfl⟩

/-- Unregistering with no pin enabled tears a running subsystem down (R112). -/
theorem callbackLifecycle_of_unneeded {s : State} (h : s.timerRunning = true) (he : s.enabled = 0#32) :
    s.callbackLifecycle false = s.deinitTimer := by
  rw [State.callbackLifecycle, if_neg (fun hc => by cases hc.2), if_pos ⟨h, rfl, he⟩]

/-- A dormant subsystem with nothing to run for stays dormant, and a running one that is needed stays running (R110). -/
theorem callbackLifecycle_of_settled {s : State} {en : Bool}
    (h : (s.timerRunning = false ∧ en = false) ∨ (s.timerRunning = true ∧ (en = true ∨ s.enabled ≠ 0#32))) :
    s.callbackLifecycle en = s := by
  unfold State.callbackLifecycle
  obtain ⟨hr, rfl⟩ | ⟨hr, rfl | he⟩ := h
  · simp [hr]
  · simp [hr]
  · simp [hr, he]

/-- Step `C0` (R110). -/
theorem exec_setcb_c0 {s : State} {en : Bool} (hl : s.cmdF.instr = .setcb en) (hk : s.phaseF = .c0) :
    exec (.setcb en) s = .next { s with cbRegistered := en, phaseF := .c1 } := by
  obtain ⟨_, hen⟩ := en_of_instr_setcb _ _ hl
  rw [exec_setcb s en (by rw [hk]; nofun) hl, State.setcbStep, hk, hen]

/-- Step `C1` (R110). -/
theorem exec_setcb_c1 {s : State} {en : Bool} (hl : s.cmdF.instr = .setcb en) (hk : s.phaseF = .c1) :
    exec (.setcb en) s = .next ((s.callbackLifecycle en).endCommand .f true) := by
  obtain ⟨_, hen⟩ := en_of_instr_setcb _ _ hl
  rw [exec_setcb s en (by rw [hk]; nofun) hl, State.setcbStep, hk, hen]

/-- Settles O31: step `C0` sets the bit (`exec_setcb_c0`), and step `C1` ends the command after one of the three cases of
`callbackLifecycle`. -/
theorem setcbRegistersAndManagesTheTimer : Obligations.SetcbRegistersAndManagesTheTimer := by
  refine fun s en hl => ⟨exec_setcb_c0 hl, fun hk => ?_⟩
  rw [exec_setcb_c1 hl hk]
  refine ⟨fun hr hen => ?_, fun hr hen he => ?_, fun h => ?_⟩
  · rw [hen, callbackLifecycle_of_dormant hr]
    rfl
  · rw [hen, callbackLifecycle_of_unneeded hr he]
    rfl
  · rw [callbackLifecycle_of_settled h]
    rfl

end Sys2Proof.Machine
end

section
/-! PROOFS. The requests at the start of a `SERVICE` (R122 to R128), the re-arm at its end (R160, R161), and that
`SERVICE`s recur and consume what is published (R188). -/

namespace Sys2Proof.Machine

/-! ### The bounds of a mask -/

/-- The highest set bit of a mask that is not empty is set. -/
theorem maskBit_highestSet {m : Word} {p : Nat} (hp : maskBit m p = true) : maskBit m (highestSet m) = true := by
  unfold highestSet
  cases hf : (List.range 32).reverse.find? (fun q => maskBit m q) with
  | none => exact absurd hp (List.find?_eq_none.mp hf p (by simpa using maskBit_lt m p hp))
  | some b => exact List.find?_some hf

/-- The lowest set bit of a mask that is not empty is set. -/
theorem maskBit_lowestSet {m : Word} {p : Nat} (hp : maskBit m p = true) : maskBit m (lowestSet m) = true := by
  unfold lowestSet
  cases hf : (List.range 32).find? (fun q => maskBit m q) with
  | none => exact absurd hp (List.find?_eq_none.mp hf p (List.mem_range.mpr (maskBit_lt m p hp)))
  | some b => exact List.find?_some hf

/-- A mask that is not zero has a set bit. -/
theorem exists_maskBit {m : Word} (h : m ≠ 0#32) : ∃ p, maskBit m p = true := by
  by_contra hno
  exact h (mask_eq_zero m fun p => eq_false_of_ne_true fun hp => hno ⟨p, hp⟩)

/-- The bounds of a mask that is not empty, as numbers: 8 bits hold every bit's index (R123). -/
theorem bounds_toNat {m : Word} (h : m ≠ 0#32) :
    (bounds m).1.toNat = lowestSet m ∧ (bounds m).2.toNat = highestSet m := by
  obtain ⟨p, hp⟩ := exists_maskBit h
  have hlow : lowestSet m ≤ p := lowestSet_le hp
  obtain ⟨hhigh, h32⟩ := le_highestSet hp
  rw [bounds, if_pos h, BitVec.toNat_ofNat, BitVec.toNat_ofNat]
  omega

/-- Settles O37: both bounds are set bits (`maskBit_lowestSet`, `maskBit_highestSet`) and enclose every set bit
(`bounds_enclose`). -/
theorem boundsAreLowestAndHighest : Obligations.BoundsAreLowestAndHighest := by
  refine ⟨if_neg (not_not.mpr rfl), fun m hm => ?_⟩
  obtain ⟨hfirst, hlast⟩ := bounds_toNat hm
  obtain ⟨p, hp⟩ := exists_maskBit hm
  refine ⟨?_, ?_, fun q => bounds_enclose⟩
  · rw [hfirst]
    exact maskBit_lowestSet hp
  · rw [hlast]
    exact maskBit_highestSet hp

/-! ### The application of the requests -/

/-- The mask `enabled` after both requests, the set winning for the same pin (R122). -/
def State.requestedMask (s : State) : Word := (s.enabled &&& ~~~ pinBit s.toDisable) ||| pinBit s.toSet

/-- There is a request to apply (R122): a set of a pin that is not enabled, or a disable. -/
def State.Requested (s : State) : Prop :=
  (s.toSet ≠ pinNone ∧ s.isEnabled s.toSet.toNat = false) ∨ s.toDisable ≠ pinNone

theorem applyRequests_of_requested {s : State} (h : s.Requested) :
    s.applyRequests =
      { s.setEnabled s.requestedMask with
        firstPin := (bounds (s.setEnabled s.requestedMask).enabled).1
        lastPin := (bounds (s.setEnabled s.requestedMask).enabled).2
        toDisable := pinNone } := if_pos h

theorem applyRequests_of_not_requested {s : State} (h : ¬s.Requested) : s.applyRequests = s := if_neg h

/-- A mask whose bits are those of pins is written as it is (R23). -/
theorem and_pinMask_eq_self {m : Word} {c : Cfg} (h : ∀ p, maskBit m p = true → p < c.npins) : m &&& pinMask c = m := by
  refine BitVec.eq_of_getLsbD_eq fun p _ => ?_
  show maskBit (m &&& pinMask c) p = maskBit m p
  rw [maskBit_and_pinMask]
  by_cases hp : maskBit m p = true
  · simp [hp, h p hp]
  · simp [hp]

/-- Each bit after both requests (R122). -/
theorem maskBit_requestedMask (s : State) (p : Nat) :
    maskBit s.requestedMask p
      = ((s.isEnabled p && !maskBit (pinBit s.toDisable) p) || maskBit (pinBit s.toSet) p) := by
  by_cases hp : p < 32
  · simp [State.requestedMask, State.isEnabled, maskBit, hp]
  · simp [State.requestedMask, State.isEnabled, maskBit, BitVec.getLsbD_of_ge _ p (Nat.le_of_not_lt hp)]

/-- The requests name pins only, so that their mask stands in the map. -/
theorem requestedMask_inMap {s : State} (hm : MasksInMap s) (hset : s.toSet = pinNone ∨ s.toSet.toNat < s.cfg.npins) :
    s.requestedMask &&& pinMask s.cfg = s.requestedMask := by
  refine and_pinMask_eq_self fun p hp => ?_
  rw [maskBit_requestedMask, Bool.or_eq_true, Bool.and_eq_true] at hp
  obtain ⟨hen, _⟩ | hpin := hp
  · exact pin_lt_of_isEnabled hm hen
  · rw [maskBit_pinBit, decide_eq_true_eq] at hpin
    obtain ⟨hne, rfl, _⟩ := hpin
    exact hset.resolve_left hne

/-- The pin of a set request is enabled afterwards, even where a disable names it too (R122, R173). -/
theorem maskBit_requestedMask_toSet {s : State} (hne : s.toSet ≠ pinNone) (hlt : s.toSet.toNat < 32) :
    maskBit s.requestedMask s.toSet.toNat = true := by
  rw [maskBit_requestedMask, maskBit_pinBit s.toSet, decide_eq_true ⟨hne, rfl, hlt⟩, Bool.or_true]

/-- Settles O36: the requests name pins (`requestedMask_inMap`), so the one write of `enabled` is their whole mask. -/
theorem requestsAreAppliedInOneAssignment : Obligations.RequestsAreAppliedInOneAssignment := by
  intro s hm hset m
  have hmask : (s.setEnabled s.requestedMask).enabled = s.requestedMask := requestedMask_inMap hm hset
  refine ⟨fun h => ?_, fun hs hd => ?_, fun hne => ?_⟩
  · rw [applyRequests_of_requested h, hmask, State.setEnabled, requestedMask_inMap hm hset]
    rfl
  · refine applyRequests_of_not_requested ?_
    rintro (⟨hne, hoff⟩ | hne)
    · rw [hs.resolve_left hne] at hoff
      cases hoff
    · exact hne hd
  · by_cases h : s.Requested
    · rw [applyRequests_of_requested h, State.isEnabled, hmask]
      exact maskBit_requestedMask_toSet hne (Nat.lt_of_lt_of_le (hset.resolve_left hne) s.cfg.valid.2.1)
    · rw [applyRequests_of_not_requested h]
      exact eq_true_of_ne_false fun hoff => h (.inl ⟨hne, hoff⟩)

/-! ### The resolution of the set request -/

theorem resolveSet_of_none {s : State} (isrStart : Word) (h : s.toSet = pinNone) : s.resolveSet isrStart = s := if_pos h

/-- A set request of a pin whose waveform is new (R125). -/
theorem resolveSet_of_init {s : State} (isrStart : Word) (h : s.toSet ≠ pinNone)
    (hmode : (s.desc s.toSet.toNat).mode = .init) :
    s.resolveSet isrStart = { s.resolveInit s.toSet.toNat isrStart with toSet := pinNone } := by
  simp only [State.resolveSet, if_neg h, hmode]

/-- A set request of an enabled pin with a run time (R126). -/
theorem resolveSet_of_updateExpiry {s : State} (isrStart : Word) (h : s.toSet ≠ pinNone)
    (hmode : (s.desc s.toSet.toNat).mode = .updateExpiry) :
    s.resolveSet isrStart = { s.modDesc s.toSet.toNat Desc.resolveExpiry with toSet := pinNone } := by
  simp only [State.resolveSet, if_neg h, hmode]

/-- A set request of a descriptor that is resolved already is consumed (R127, R128). -/
theorem resolveSet_of_resolved {s : State} (isrStart : Word) (h : s.toSet ≠ pinNone)
    (hmode : (s.desc s.toSet.toNat).mode = .infinite ∨ (s.desc s.toSet.toNat).mode = .expires) :
    s.resolveSet isrStart = { s with toSet := pinNone } := by
  obtain hmode | hmode := hmode <;> simp only [State.resolveSet, if_neg h, hmode]

/-- A new waveform without a run time (R125). -/
theorem resolveInit_of_endless {s : State} {p : Nat} (isrStart : Word) (h : (s.desc p).expiryCcy = 0#32) :
    s.resolveInit p isrStart = (s.setStateBit p false).setDesc p { s.desc p with
      nextPeriodCcy := s.resolvedStart p isrStart, nextEventCcy := s.resolvedStart p isrStart, mode := .infinite } := by
  simp only [State.resolveInit, State.modDesc, setStateBit_desc, h, if_true]

/-- A new waveform with a run time, which counts from its first period (R125, R126). -/
theorem resolveInit_of_runTime {s : State} {p : Nat} (isrStart : Word) (h : (s.desc p).expiryCcy ≠ 0#32) :
    s.resolveInit p isrStart = (s.setStateBit p false).setDesc p { s.desc p with
      nextPeriodCcy := s.resolvedStart p isrStart, nextEventCcy := s.resolvedStart p isrStart
      expiryCcy := s.resolvedStart p isrStart + (s.desc p).expiryCcy, mode := .expires } := by
  simp only [State.resolveInit, State.modDesc, setStateBit_desc, h, if_false, Desc.resolveExpiry]

/-- Settles O38: one equation of `resolveSet` per mode; `INIT` has two, by whether a run time was staged. -/
theorem setRequestIsResolved : Obligations.SetRequestIsResolved := by
  intro s isrStart p d a t start
  refine ⟨resolveSet_of_none isrStart, fun hne hmode hrun => ?_, fun hne hmode hrun => ?_, fun hne hmode => ?_,
    resolveSet_of_resolved isrStart⟩
  · exact (resolveSet_of_init isrStart hne hmode).trans (by rw [resolveInit_of_endless isrStart hrun]; rfl)
  · exact (resolveSet_of_init isrStart hne hmode).trans (by rw [resolveInit_of_runTime isrStart hrun]; rfl)
  · exact resolveSet_of_updateExpiry isrStart hne hmode

/-! ### The phases of a `SERVICE` -/

theorem applyRequests_ccount (s : State) : s.applyRequests.ccount = s.ccount := by
  unfold State.applyRequests
  split <;> rfl

theorem resolveSet_ccount (s : State) (isrStart : Word) : (s.resolveSet isrStart).ccount = s.ccount := by
  unfold State.resolveSet
  split
  · rfl
  · dsimp only
    split <;> rfl

/-- The re-arm's delay lies within the two clamps (R160). -/
theorem clampDelay_bounds (c : Cfg) (d : Int) :
    (c.minRearmCcys : Int) ≤ clampDelay c d ∧ clampDelay c d ≤ c.maxRearmCcys := by
  obtain ⟨_, _, _, _, _, _, _, _, ⟨_, hle⟩, _⟩ := c.valid
  unfold clampDelay
  dsimp only
  split_ifs <;> omega

/-- A timer write of `n` cycles fires after `n` of them (R183). -/
theorem timerWrite_untilFire (s : State) (n : Nat) : (s.timerWrite n).untilFire = n % 2 ^ 32 := by
  rw [State.untilFire, timerWrite_tFireAt, timerWrite_ccount, add_sub_cancel_left, BitVec.toNat_ofNat]

/-- The re-arm leaves a count within the two clamps, whatever the deadline and the callback's reply (R160, R161). -/
theorem rearm_untilFire (s : State) (deadline : Word) :
    s.cfg.minRearmCcys ≤ (s.rearm deadline).untilFire ∧ (s.rearm deadline).untilFire ≤ s.cfg.maxRearmCcys := by
  have hcfg : (s.askCallback.2.readNow 1).cfg = s.cfg := ((SchedulerKeeps.askCallback s).trans (.readNow _ 1)).cfg
  obtain ⟨_, _, _, _, _, _, _, _, _, hmax, _⟩ := s.cfg.valid
  unfold State.rearm State.leaveService
  dsimp only
  rw [timerWrite_untilFire, hcfg]
  obtain ⟨hlo, hhi⟩ := clampDelay_bounds s.cfg
    (rawDelay deadline (s.askCallback.2.readNow 1).ccount s.askCallback.1)
  omega

/-- A `SERVICE` leaves a count within the two clamps (R160, R161). -/
theorem service_untilFire (s : State) :
    s.cfg.minRearmCcys ≤ s.service.untilFire ∧ s.service.untilFire ≤ s.cfg.maxRearmCcys := by
  have hcfg := ((SchedulerKeeps.beginService s).trans (.scanLoop s.cfg.isrBudgetCcys
    (s.beginService.1 + BitVec.ofNat 32 s.cfg.isrBudgetCcys) _)).cfg
  rw [← hcfg]
  exact rearm_untilFire _ _

/-- Settles O34: the two reads of the counter are those of `readNow_eq`, and the rest is what a whole `SERVICE` leaves in
the slots (`service_ports`) and of the timer (`service_timer`, `service_untilFire`). -/
theorem serviceCompletesAndRearms : Obligations.ServiceCompletesAndRearms := by
  intro s
  obtain ⟨n, _, hn, ha⟩ := readNow_eq s.enterService 0
  obtain ⟨n', hpos, hn', hb⟩ :=
    readNow_eq ((s.enterService.readNow 0).applyRequests.resolveSet (s.enterService.readNow 0).ccount) 1
  rw [resolveSet_ccount, applyRequests_ccount] at hb
  have hports := service_ports s
  obtain ⟨harmed, hpending⟩ := service_timer s
  exact ⟨n, n', _, _, by omega, hpos, by omega, ha, hb, rfl, hports.toSet, hports.toDisable, harmed, hpending,
    service_untilFire s⟩

/-! ### The count from one `SERVICE` to the next -/

/-- A count is running and has not come to its end (R186). -/
def State.Counting (s : State) : Prop := s.tArmed = true ∧ 0 < s.untilFire

/-- A `SERVICE` starts a count (R161). -/
theorem service_counting (s : State) : s.service.Counting := by
  obtain ⟨_, _, _, _, _, _, _, _, ⟨hmin, _⟩, _⟩ := s.cfg.valid
  exact ⟨(service_timer s).1, Nat.lt_of_lt_of_le hmin (service_untilFire s).1⟩

theorem State.Counting.of_same {s t : State} (h : s.Counting) (k : SameTimer s t) : t.Counting := by
  rwa [State.Counting, State.untilFire, k.tArmed, k.tFireAt, k.ccount]

/-- The kick starts a new count (R89, R104). -/
theorem timerWrite_kick_counting (s : State) : (s.timerWrite s.cfg.kickCcys).Counting := by
  obtain ⟨_, _, _, _, _, _, _, _, _, _, _, hpos, hlt⟩ := s.cfg.valid
  refine ⟨rfl, ?_⟩
  rw [timerWrite_untilFire]
  omega

/-- Time that passes and fires no interrupt leaves the count running, and is taken off it (R186). -/
theorem State.Counting.elapse {s : State} (h : s.Counting) {n : Nat} (hp : (s.elapse n).svcPending = false) :
    (s.elapse n).Counting ∧ (s.elapse n).untilFire + n = s.untilFire := by
  obtain ⟨harmed, _⟩ := h
  have hlate : ¬(s.tArmed = true ∧ (s.tFireAt - s.ccount).toNat ≤ n) := fun hfires => by
    rw [State.elapse, if_pos hfires] at hp
    cases hp
  have harmed' : (s.elapse n).tArmed = true := by
    rw [State.elapse, if_neg hlate]
    exact harmed
  have hcount := elapse_untilFire harmed harmed'
  have hlt : n < s.untilFire := Nat.lt_of_not_le fun hle => hlate ⟨harmed, hle⟩
  exact ⟨⟨harmed', by omega⟩, hcount⟩

/-- While the subsystem runs and no interrupt is pending a step leaves the count running, and what passes in it is taken
off the count. -/
theorem does_counting {e : Input} {s t : State} (h : Does s e t) (hs : s.timerRunning = true)
    (ht : t.timerRunning = true) (hp : s.svcPending = false) (hp' : t.svcPending = false) (hc : s.Counting) :
    t.Counting ∧ t.untilFire + cyclesOf e ≤ s.untilFire := by
  have hno : ¬s.serviceStarts e := by
    rintro ⟨_, hpend, _⟩
    rw [hp] at hpend
    cases hpend
  cases e
  case elapse n =>
    cases h
    obtain ⟨hc', hcount⟩ := hc.elapse hp'
    exact ⟨hc', hcount.le⟩
  all_goals
    have hc' : t.Counting := by
      obtain k | ⟨_, hsvc⟩ | ⟨n, he, _⟩ | ⟨_, rfl⟩ := does_timer _ s t h
      · cases k with
        | same k => exact hc.of_same k
        | kick _ _ k => exact (timerWrite_kick_counting s).of_same k
        | init hr _ => rw [hs] at hr; cases hr
        | deinit _ k => rw [k.timerRunning] at ht; cases ht
      · exact absurd hsvc hno
      · cases he
      · cases ht
    exact ⟨hc', (does_untilFire h hs ht hc.1 hc'.1 hno).1⟩

section Run

variable {e : Nat → Input} {r : Nat → State} (h : RunOf e r)
include h

/-- From a `SERVICE` to the next interrupt a count is running, and the cycles that passed are taken off it. -/
theorem run_counting {n m : Nat} (hnm : n + 1 ≤ m) (hs : (r n).serviceStarts (e n))
    (hquiet : ∀ i, n < i → i ≤ m → (r i).timerRunning = true ∧ (r i).svcPending = false) :
    (r m).Counting
      ∧ (r m).untilFire + (Finset.sum (Finset.Ico (n + 1) m) fun i => cyclesOf (e i)) ≤ (r n).cfg.maxRearmCcys := by
  induction m, hnm using Nat.le_induction with
  | base =>
    rw [run_service h n hs, Finset.Ico_self, Finset.sum_empty]
    exact ⟨service_counting _, (service_untilFire _).2⟩
  | succ m hm ih =>
    obtain ⟨hc, hcount⟩ := ih fun i hi hle => hquiet i hi (Nat.le_succ_of_le hle)
    obtain ⟨hrun, hp⟩ := hquiet m hm (Nat.le_succ m)
    obtain ⟨hrun', hp'⟩ := hquiet (m + 1) (by omega) (le_refl _)
    obtain ⟨hc', hstep⟩ := does_counting (run_does h m) hrun hrun' hp hp' hc
    rw [Finset.sum_Ico_succ_top hm]
    exact ⟨hc', by omega⟩

end Run

/-- Settles O59: until the next interrupt the cycles since a `SERVICE` and the rest of its count are at most
`MAX_REARM_CCYS` (`run_counting`), and while the subsystem runs a `SERVICE` follows every instant (`run_serviceStarts`). -/
theorem fairRunServesEveryRequest : Obligations.FairRunServesEveryRequest := by
  refine fun e r h => ⟨fun n m hnm hs hquiet => ?_, fun hf n hc => ?_⟩
  · obtain ⟨⟨_, hpos⟩, hcount⟩ := run_counting h hnm hs hquiet
    omega
  · by_cases hrun : ∀ m, n ≤ m → (r m).timerRunning = true
    · obtain ⟨m, hm, hs⟩ := run_serviceStarts h hf hc hrun
      exact ⟨m, hm, .inr ⟨hs, run_slotsFree h hs⟩⟩
    · push Not at hrun
      obtain ⟨m, hm, hstopped⟩ := hrun
      exact ⟨m, hm, .inl (eq_false_of_ne_true hstopped)⟩

end Sys2Proof.Machine
end

section
/-! PROOFS. The visit of one pin (R138 to R151): its expiry, the forward skip, the edge actions, and the phase that they
keep. -/

namespace Sys2Proof.Machine

/-! ### The periods missed at an overshoot -/

theorem natDiv_of_pos (a : Nat) {b : Nat} (hb : 0 < b) : natDiv a b = a / b := if_neg (Nat.ne_of_gt hb)

/-- With no idle period every whole period elapsed is missed (R142). -/
theorem fwdPeriods_of_noIdle {period : Word} (hp : 0 < period.toNat) (o : Word) :
    fwdPeriods period period o = o.toNat / period.toNat := by
  rw [fwdPeriods, if_pos rfl, natDiv_of_pos _ hp]

/-- With an idle period none is missed before it has passed (R142). -/
theorem fwdPeriods_of_idle {duty period : Word} (hp : 0 < period.toNat) (hidle : duty ≠ period) (o : Word) :
    fwdPeriods duty period o =
      if (period - duty).toNat ≤ o.toNat then (o + duty).toNat / period.toNat else 0 := by
  rw [fwdPeriods, if_neg hidle, natDiv_of_pos _ hp]
  rfl

/-- The premises of 44_service_edges.md section 7 on a pin visited at overshoot `o`: a duty within a period of
`1 .. 2^31 - 1` cycles, and an overshoot of less than half the counter's range. -/
structure Paced (duty period o : Word) : Prop where
  duty : duty.toNat ≤ period.toNat
  pos : 0 < period.toNat
  period : period.toNat < 2 ^ 31
  overshoot : o.toNat < 2 ^ 31

/-- Under these premises no sum of R142 wraps, and the test for one idle period is part of the division. -/
theorem Paced.fwdPeriods_of_idle {duty period o : Word} (h : Paced duty period o) (hidle : duty ≠ period) :
    fwdPeriods duty period o = (o.toNat + duty.toNat) / period.toNat := by
  obtain ⟨hd, hpos, hp, ho⟩ := h
  have hsum : (o + duty).toNat = o.toNat + duty.toNat := BitVec.toNat_add_of_lt (by omega)
  have hdiff : (period - duty).toNat = period.toNat - duty.toNat := BitVec.toNat_sub_of_le hd
  rw [Machine.fwdPeriods_of_idle hpos hidle, hsum, hdiff]
  split
  · rfl
  · exact (Nat.div_eq_of_lt (by omega)).symm

/-- The missed periods lie within the overshoot and one duty: the schedule does not pass `now + duty`. -/
theorem Paced.fwdPeriods_mul_le {duty period o : Word} (h : Paced duty period o) :
    fwdPeriods duty period o * period.toNat ≤ o.toNat + duty.toNat := by
  by_cases hidle : duty = period
  · subst hidle
    rw [fwdPeriods_of_noIdle h.pos]
    exact (Nat.div_mul_le_self _ _).trans (Nat.le_add_right _ _)
  · rw [h.fwdPeriods_of_idle hidle]
    exact Nat.div_mul_le_self _ _

/-- One period more than the missed ones lies past the overshoot. -/
theorem Paced.lt_fwdPeriods_succ_mul {duty period o : Word} (h : Paced duty period o) :
    o.toNat < (fwdPeriods duty period o + 1) * period.toNat := by
  by_cases hidle : duty = period
  · subst hidle
    rw [fwdPeriods_of_noIdle h.pos]
    exact Nat.lt_mul_of_div_lt (Nat.lt_succ_self _) h.pos
  · rw [h.fwdPeriods_of_idle hidle]
    exact (Nat.le_add_right _ _).trans_lt (Nat.lt_mul_of_div_lt (Nat.lt_succ_self _) h.pos)

/-- Settles O41: the two branches of R142, and what they come to when no sum wraps. -/
theorem forwardSkipCountsWholePeriods : Obligations.ForwardSkipCountsWholePeriods := by
  intro duty period o hp
  have hpos : 0 < period.toNat := Nat.pos_of_ne_zero (BitVec.toNat_ne.mp hp)
  refine ⟨fun hidle => ?_, fun hidle => fwdPeriods_of_idle hpos hidle o, fun hd hlt ho => ?_⟩
  · rw [hidle, fwdPeriods_of_noIdle hpos]
  · have h : Paced duty period o := ⟨hd, hpos, hlt, ho⟩
    refine ⟨fun hidle => ?_, h.fwdPeriods_mul_le⟩
    rw [h.fwdPeriods_of_idle hidle, Nat.div_eq_zero_iff]
    omega

/-! ### The nudge -/

/-- Settles O43: the formula of R150 with a duty that is not zero, and at overshoot 0 both kinds of `Nudge`. -/
theorem nudgeIsProportional : Obligations.NudgeIsProportional := by
  intro c o duty idle hduty
  have hpos : 0 < duty.toNat := Nat.pos_of_ne_zero (BitVec.toNat_ne.mp hduty)
  refine ⟨fun hrule => ?_, ?_⟩
  · rw [nudge, hrule]
    simp [nudgeStandard, natDiv_of_pos _ hpos]
  · unfold nudge
    cases c.nudgeRule with
    | standard => simp [nudgeStandard, natDiv_of_pos _ hpos]
    | platform k => rfl

/-! ### The descriptor in a visit -/

theorem atExpiry_iff (d : Desc) : d.atExpiry = true ↔ d.mode = .expires ∧ d.nextEventCcy = d.expiryCcy :=
  decide_eq_true_iff

/-- The fold of R143, which for no missed period changes nothing. -/
theorem fold_eq (d : Desc) (k : Nat) (period : Word) :
    d.fold k period = { d with
      nextPeriodCcy := d.nextPeriodCcy + BitVec.ofNat 32 k * period
      endDutyCcy := d.endDutyCcy + BitVec.ofNat 32 k * period
      expiryCcy := if d.mode = .expires then d.expiryCcy + BitVec.ofNat 32 k * period else d.expiryCcy } := by
  unfold Desc.fold
  split
  · rfl
  · next hk =>
    obtain rfl : k = 0 := by omega
    simp

/-- The sooner of the edge and the expiry (R151), by the signed difference (R2). -/
theorem reschedule_eq (d : Desc) (e2 : Word) :
    d.reschedule e2 = { d with
      nextEventCcy := if d.mode = .expires ∧ 0 < (e2 - d.expiryCcy).toInt then d.expiryCcy else e2 } := by
  simp only [Desc.reschedule, after_iff]

/-- The `autoPwm` correction writes the next period start alone (R149). -/
theorem nudged_eq (d : Desc) (c : Cfg) (duty period now : Word) :
    d.nudged c duty period now = { d with
      nextPeriodCcy := if d.autoPwm = true ∧ duty ≠ 0#32
        then d.nextPeriodCcy + nudge c (now - d.endDutyCcy) duty (period - duty) else d.nextPeriodCcy } := by
  unfold Desc.nudged
  split <;> rfl

theorem desc_setDesc_same (s : State) {p : Nat} (d : Desc) (hp : p < 32) : (s.setDesc p d).desc p = d := by
  rw [desc_setDesc s p p d hp, if_pos rfl]

theorem modDesc_setDesc (s : State) {p : Nat} (d : Desc) (f : Desc → Desc) (hp : p < 32) :
    (s.setDesc p d).modDesc p f = s.setDesc p (f d) := by
  rw [State.modDesc, desc_setDesc_same s d hp, setDesc_setDesc]

/-! ### The branches of a visit -/

/-- The expiry (R139). -/
theorem servicePin_of_expiry {s : State} {p : Nat} (now : Word) (hexp : (s.desc p).atExpiry = true) :
    s.servicePin p now = s.setEnabled (setMaskBit s.enabled p false) :=
  if_pos hexp

/-- The stale event (R141). -/
theorem servicePin_of_stale {s : State} {p : Nat} {now : Word} (hexp : ¬(s.desc p).atExpiry = true)
    (hstale : (now - (s.desc p).edge (maskBit s.states p)).toInt < 0) :
    s.servicePin p now = s.setDesc p ((s.desc p).reschedule ((s.desc p).edge (maskBit s.states p))) :=
  (if_neg hexp).trans (if_pos hstale)

/-- The whole periods that a visit at `now` finds missed, the pin's level being `high` (R142). -/
def Desc.missed (d : Desc) (high : Bool) (now : Word) : Nat := fwdPeriods d.dutyCcys d.periodCcys (now - d.edge high)

/-- The schedule after the forward skip (R143). -/
def Desc.forwarded (d : Desc) (high : Bool) (now : Word) : Desc := d.fold (d.missed high now) d.periodCcys

/-- The edge that has been reached: the forward skip, then the edge action (R142 to R148). -/
theorem servicePin_of_reached {s : State} {p : Nat} {now : Word} (hexp : ¬(s.desc p).atExpiry = true)
    (hreached : 0 ≤ (now - (s.desc p).edge (maskBit s.states p)).toInt) :
    s.servicePin p now = (s.setDesc p ((s.desc p).forwarded (maskBit s.states p) now)).edgeAction p now
      (s.desc p).dutyCcys (s.desc p).periodCcys (maskBit s.states p) :=
  (if_neg hexp).trans (if_neg (not_lt.mpr hreached))

/-- Settles O39: the write of `enabled` clears the pin's bit, and with the masks in the map no other. -/
theorem expiryTerminatesWithoutAnEdge : Obligations.ExpiryTerminatesWithoutAnEdge := by
  intro s p now hmode hevent hm
  rw [servicePin_of_expiry now ((atExpiry_iff _).mpr ⟨hmode, hevent⟩)]
  refine ⟨fun q => ?_, rfl⟩
  rw [isEnabled_disable]
  by_cases hq : s.isEnabled q = true
  · simp [hq, pin_lt_of_isEnabled hm hq]
  · simp [hq]

/-- Settles O40: the stale visit, with the rescheduling of R151 written out. -/
theorem staleEventOnlyReschedules : Obligations.StaleEventOnlyReschedules := by
  intro s p now d edge hexp hstale
  rw [servicePin_of_stale (mt (atExpiry_iff _).mp hexp) hstale, reschedule_eq]
  rfl

/-! ### The edge actions -/

section EdgeAction

variable (s : State) {p : Nat} (d : Desc) (now : Word) {duty : Word} (period : Word) (hp : p < 32)
include hp

/-- A low pin with a duty rises (R144). -/
theorem edgeAction_rise (hduty : duty ≠ 0#32) :
    (s.setDesc p d).edgeAction p now duty period false = ((s.setDesc p (({ d with
      nextPeriodCcy := d.nextPeriodCcy + period
      endDutyCcy := d.nextPeriodCcy + duty } : Desc).reschedule (d.nextPeriodCcy + duty))).setStateBit p true).gpioWrite
        p true := by
  rw [State.edgeAction, if_pos rfl, if_pos hduty, State.riseEdge, modDesc_setDesc s d _ hp, desc_setDesc_same s d hp]

/-- A low pin without a duty stays low (R145). -/
theorem edgeAction_zeroDuty :
    (s.setDesc p d).edgeAction p now 0#32 period false = s.setDesc p (({ d with
      nextPeriodCcy := d.nextPeriodCcy + period
      endDutyCcy := d.nextPeriodCcy + period } : Desc).reschedule (d.nextPeriodCcy + period)) := by
  rw [State.edgeAction, if_pos rfl, if_neg (not_not.mpr rfl), State.zeroDutyEdge, modDesc_setDesc s d _ hp,
    desc_setDesc_same s d hp]

/-- A high pin whose falling edge moved into the future stays high (R146). -/
theorem edgeAction_staysHigh (hfuture : (now - d.endDutyCcy).toInt < 0) :
    (s.setDesc p d).edgeAction p now duty period true = s.setDesc p (d.reschedule d.endDutyCcy) := by
  rw [State.edgeAction, if_neg Bool.true_eq_false.mp, desc_setDesc_same s d hp, if_pos hfuture, State.staysHigh,
    modDesc_setDesc s d _ hp]

/-- A high pin whose high phase ends where the next period starts goes straight into the next one (R147). -/
theorem edgeAction_fullDuty (hdue : 0 ≤ (now - d.endDutyCcy).toInt) (hfull : d.endDutyCcy = d.nextPeriodCcy) :
    (s.setDesc p d).edgeAction p now duty period true = s.setDesc p (({ d with
      endDutyCcy := d.nextPeriodCcy + duty
      nextPeriodCcy := d.nextPeriodCcy + period } : Desc).reschedule (d.nextPeriodCcy + duty)) := by
  rw [State.edgeAction, if_neg Bool.true_eq_false.mp, desc_setDesc_same s d hp, if_neg (not_lt.mpr hdue), if_pos hfull,
    State.fullDutyTurn, modDesc_setDesc s d _ hp, desc_setDesc_same s d hp]

/-- A high pin whose falling edge has come falls (R148), with the `autoPwm` correction (R149). -/
theorem edgeAction_fall (hdue : 0 ≤ (now - d.endDutyCcy).toInt) (hfalls : d.endDutyCcy ≠ d.nextPeriodCcy) :
    (s.setDesc p d).edgeAction p now duty period true =
      ((s.setDesc p ((d.nudged s.cfg duty period now).reschedule
        (d.nudged s.cfg duty period now).nextPeriodCcy)).setStateBit p false).gpioWrite p false := by
  rw [State.edgeAction, if_neg Bool.true_eq_false.mp, desc_setDesc_same s d hp, if_neg (not_lt.mpr hdue),
    if_neg hfalls, State.fallEdge, modDesc_setDesc s d _ hp, setDesc_cfg]

end EdgeAction

/-- Settles O42: `F` is the schedule after the forward skip, and each case is an edge action on it. -/
theorem edgeActionsByCase : Obligations.EdgeActionsByCase := by
  intro s p now hp d D P high o f N E X sooner M hexp hreached
  have h32 : p < 32 := Nat.lt_of_lt_of_le hp s.cfg.valid.2.1
  let F : Desc := { d with nextPeriodCcy := N, endDutyCcy := E, expiryCcy := X }
  have hfwd : d.forwarded high now = F := fold_eq _ _ _
  have hvisit : s.servicePin p now = (s.setDesc p F).edgeAction p now D P high := by
    rw [← hfwd]
    exact servicePin_of_reached (mt (atExpiry_iff _).mp hexp) hreached
  rw [hvisit]
  refine ⟨fun hlow hduty => ?_, fun hlow hduty => ?_, fun hhigh hfuture => ?_, fun hhigh hdue hfull => ?_,
    fun hhigh hdue hfalls => ?_⟩
  · rw [hlow, edgeAction_rise s F now P h32 hduty, reschedule_eq]
  · rw [hlow, hduty, edgeAction_zeroDuty s F now P h32, reschedule_eq]
  · rw [hhigh, edgeAction_staysHigh s F now P h32 hfuture, reschedule_eq]
  · rw [hhigh, edgeAction_fullDuty s F now P h32 hdue hfull, reschedule_eq]
  · rw [hhigh, edgeAction_fall s F now P h32 hdue hfalls, nudged_eq, reschedule_eq]

/-! ### The phase of a pin -/

/-- The missed periods and one more are that many periods. -/
theorem add_mul_succ (t period : Word) (k : Nat) :
    t + BitVec.ofNat 32 k * period + period = t + BitVec.ofNat 32 (k + 1) * period := by
  rw [BitVec.ofNat_add, BitVec.add_mul, BitVec.one_mul, BitVec.add_assoc]

theorem forwarded_nextPeriodCcy (d : Desc) (high : Bool) (now : Word) :
    (d.forwarded high now).nextPeriodCcy = d.nextPeriodCcy + BitVec.ofNat 32 (d.missed high now) * d.periodCcys := by
  rw [Desc.forwarded, fold_eq]

/-- The expiry and the stale event leave the period start (R139, R141). -/
theorem servicePin_keeps_nextPeriodCcy {s : State} {p : Nat} {now : Word} (hp : p < 32)
    (h : (s.desc p).atExpiry = true ∨ (now - (s.desc p).edge (maskBit s.states p)).toInt < 0) :
    ((s.servicePin p now).desc p).nextPeriodCcy = (s.desc p).nextPeriodCcy := by
  by_cases hexp : (s.desc p).atExpiry = true
  · rw [servicePin_of_expiry now hexp, setEnabled_desc]
  · rw [servicePin_of_stale hexp (h.resolve_left hexp), desc_setDesc_same s _ hp, reschedule_nextPeriodCcy]

/-- The visit of a low pin whose period start has come begins the period after the missed ones, with a duty and without
(R144, R145). -/
theorem servicePin_low_nextPeriodCcy {s : State} {p : Nat} {now : Word} (hp : p < 32)
    (hexp : ¬(s.desc p).atExpiry = true) (hlow : maskBit s.states p = false)
    (hreached : 0 ≤ (now - (s.desc p).nextPeriodCcy).toInt) :
    ((s.servicePin p now).desc p).nextPeriodCcy
      = (s.desc p).nextPeriodCcy + BitVec.ofNat 32 ((s.desc p).missed false now + 1) * (s.desc p).periodCcys := by
  have hvisit := servicePin_of_reached hexp (by rw [hlow]; exact hreached)
  rw [hlow] at hvisit
  rw [hvisit, ← add_mul_succ, ← forwarded_nextPeriodCcy]
  by_cases hduty : (s.desc p).dutyCcys = 0#32
  · rw [hduty, edgeAction_zeroDuty _ _ _ _ hp, desc_setDesc_same s _ hp, reschedule_nextPeriodCcy]
  · rw [edgeAction_rise _ _ _ _ hp hduty, gpioWrite_desc, setStateBit_desc, desc_setDesc_same s _ hp,
      reschedule_nextPeriodCcy]

/-- The visit of a high pin without `autoPwm` whose falling edge was due moves the period start by the missed periods
(R146, R148), and by one more when the pin goes straight into its next high phase (R147). -/
theorem servicePin_high_nextPeriodCcy {s : State} {p : Nat} {now : Word} (hp : p < 32)
    (hexp : ¬(s.desc p).atExpiry = true) (hhigh : maskBit s.states p = true)
    (hreached : 0 ≤ (now - (s.desc p).endDutyCcy).toInt) (hauto : (s.desc p).autoPwm = false) :
    ∃ k, (k = (s.desc p).missed true now ∨ k = (s.desc p).missed true now + 1)
      ∧ ((s.servicePin p now).desc p).nextPeriodCcy
        = (s.desc p).nextPeriodCcy + BitVec.ofNat 32 k * (s.desc p).periodCcys := by
  have hvisit := servicePin_of_reached hexp (by rw [hhigh]; exact hreached)
  rw [hhigh] at hvisit
  rw [hvisit]
  rcases lt_or_ge (now - ((s.desc p).forwarded true now).endDutyCcy).toInt 0 with hfuture | hdue
  · refine ⟨_, .inl rfl, ?_⟩
    rw [edgeAction_staysHigh _ _ _ _ hp hfuture, desc_setDesc_same s _ hp, reschedule_nextPeriodCcy,
      forwarded_nextPeriodCcy]
  · by_cases hfull : ((s.desc p).forwarded true now).endDutyCcy = ((s.desc p).forwarded true now).nextPeriodCcy
    · refine ⟨_, .inr rfl, ?_⟩
      rw [edgeAction_fullDuty _ _ _ _ hp hdue hfull, desc_setDesc_same s _ hp, reschedule_nextPeriodCcy,
        forwarded_nextPeriodCcy, add_mul_succ]
    · refine ⟨_, .inl rfl, ?_⟩
      have hplain : ¬(((s.desc p).forwarded true now).autoPwm = true ∧ (s.desc p).dutyCcys ≠ 0#32) := by
        simp [Desc.forwarded, hauto]
      rw [edgeAction_fall _ _ _ _ hp hdue hfull, gpioWrite_desc, setStateBit_desc, desc_setDesc_same s _ hp,
        reschedule_nextPeriodCcy, Desc.nudged, if_neg hplain, forwarded_nextPeriodCcy]

/-- A visit that makes no falling edge of an `autoPwm` pin moves the period start by no period, by the missed ones or by
those and one more. -/
theorem servicePin_movesByPeriods {s : State} {p : Nat} (now : Word) (hp : p < 32)
    (h : (s.desc p).autoPwm = false ∨ maskBit s.states p = false) :
    ∃ k, (k = 0 ∨ k = (s.desc p).missed (maskBit s.states p) now
        ∨ k = (s.desc p).missed (maskBit s.states p) now + 1)
      ∧ ((s.servicePin p now).desc p).nextPeriodCcy
        = (s.desc p).nextPeriodCcy + BitVec.ofNat 32 k * (s.desc p).periodCcys := by
  by_cases hquiet : (s.desc p).atExpiry = true ∨ (now - (s.desc p).edge (maskBit s.states p)).toInt < 0
  · refine ⟨0, .inl rfl, ?_⟩
    rw [servicePin_keeps_nextPeriodCcy hp hquiet, BitVec.zero_mul, BitVec.add_zero]
  · obtain ⟨hexp, hreached⟩ := not_or.mp hquiet
    rw [not_lt] at hreached
    cases hlevel : maskBit s.states p with
    | false =>
      rw [hlevel] at hreached
      exact ⟨_, .inr (.inr rfl), servicePin_low_nextPeriodCcy hp hexp hlevel hreached⟩
    | true =>
      rw [hlevel] at hreached
      have hauto : (s.desc p).autoPwm = false := h.resolve_right (by simp [hlevel])
      obtain ⟨k, hk, hmoved⟩ := servicePin_high_nextPeriodCcy hp hexp hlevel hreached hauto
      exact ⟨k, .inr hk, hmoved⟩

/-- Settles O45: the periods a visit moves the start by, and the missed ones' bound (`Paced.fwdPeriods_mul_le`). -/
theorem visitKeepsThePhase : Obligations.VisitKeepsThePhase := by
  intro s p now hp d o f hauto
  obtain ⟨k, hk, hmoved⟩ := servicePin_movesByPeriods now (Nat.lt_of_lt_of_le hp s.cfg.valid.2.1) hauto
  refine ⟨k, hk, hmoved, fun hd hpos hlt ho => ?_⟩
  have hmissed : f * d.periodCcys.toNat ≤ o.toNat + d.dutyCcys.toNat :=
    Paced.fwdPeriods_mul_le ⟨hd, hpos, hlt, ho⟩
  have hle : k ≤ f + 1 := by
    change k = 0 ∨ k = f ∨ k = f + 1 at hk
    omega
  calc k * d.periodCcys.toNat ≤ (f + 1) * d.periodCcys.toNat := Nat.mul_le_mul_right _ hle
    _ = f * d.periodCcys.toNat + d.periodCcys.toNat := Nat.succ_mul _ _
    _ ≤ o.toNat + d.dutyCcys.toNat + d.periodCcys.toNat := Nat.add_le_add_right hmissed _

/-- The distance from `now` to `k` periods after `t`, when they reach past `now` by less than a turn of the counter. -/
theorem distance_to_periods {t now period : Word} {k : Nat} (hle : (now - t).toNat ≤ k * period.toNat)
    (hlt : k * period.toNat - (now - t).toNat < 2 ^ 32) :
    (t + BitVec.ofNat 32 k * period - now).toNat = k * period.toNat - (now - t).toNat := by
  have hword : t + BitVec.ofNat 32 k * period - now = BitVec.ofNat 32 (k * period.toNat - (now - t).toNat) := by
    calc t + BitVec.ofNat 32 k * period - now
        = BitVec.ofNat 32 k * period - (now - t) := by abel
      _ = BitVec.ofNat 32 (k * period.toNat) - BitVec.ofNat 32 (now - t).toNat := by
        rw [BitVec.ofNat_mul, BitVec.ofNat_toNat, BitVec.ofNat_toNat, BitVec.setWidth_eq, BitVec.setWidth_eq]
      _ = BitVec.ofNat 32 (k * period.toNat - (now - t).toNat) :=
        BitVec.ofNat_sub_ofNat_of_le _ _ (now - t).isLt hle
  rw [hword, BitVec.toNat_ofNat, Nat.mod_eq_of_lt hlt]

/-- Settles O46: the missed periods and one more reach past `now` (`Paced.lt_fwdPeriods_succ_mul`), by what the missed
ones alone leave of one duty and one period (`Paced.fwdPeriods_mul_le`). -/
theorem risingEdgeSchedulesAhead : Obligations.RisingEdgeSchedulesAhead := by
  intro s p now hp d hexp hlow hd hpos hlt hreached ahead
  have hnotneg := mt BitVec.toInt_neg_iff.mpr (not_lt.mpr hreached)
  have h : Paced d.dutyCcys d.periodCcys (now - d.nextPeriodCcy) := ⟨hd, hpos, hlt, by omega⟩
  have hpast : (now - d.nextPeriodCcy).toNat < (d.missed false now + 1) * d.periodCcys.toNat := h.lt_fwdPeriods_succ_mul
  have hnear : (d.missed false now + 1) * d.periodCcys.toNat
      ≤ (now - d.nextPeriodCcy).toNat + d.dutyCcys.toNat + d.periodCcys.toNat := by
    rw [Nat.succ_mul]
    exact Nat.add_le_add_right h.fwdPeriods_mul_le _
  have hlt32 := h.period
  have hduty := h.duty
  have hahead : ahead = (d.missed false now + 1) * d.periodCcys.toNat - (now - d.nextPeriodCcy).toNat := by
    rw [← distance_to_periods hpast.le (by omega), ← servicePin_low_nextPeriodCcy
      (Nat.lt_of_lt_of_le hp s.cfg.valid.2.1) (mt (atExpiry_iff _).mp hexp) hlow hreached]
  omega

end Sys2Proof.Machine
end

section
/-! PROOFS. The passes of phase `S4`: the scan order, one pin of a pass, the end of a pass, the repeat and the spin (R135
to R157). -/

namespace Sys2Proof.Machine

/-! ### The scan order -/

/-- A cyclic walk through `first .. last` from `start`, as its two runs. -/
theorem range'_append_range'_eq_map_mod {first start last : Nat} (hfirst : first ≤ start) (hlast : start ≤ last) :
    List.range' start (last + 1 - start) ++ List.range' first (start - first)
      = (List.range (last + 1 - first)).map fun k => first + (start - first + k) % (last + 1 - first) := by
  have hsplit : List.range (last + 1 - first)
      = List.range (last + 1 - start) ++ (List.range (start - first)).map (last + 1 - start + ·) := by
    rw [← List.range_add, show last + 1 - start + (start - first) = last + 1 - first by omega]
  rw [hsplit, List.map_append, List.map_map, List.range'_eq_map_range, List.range'_eq_map_range]
  congr 1
  · refine List.map_congr_left fun k hk => ?_
    rw [List.mem_range] at hk
    rw [Nat.mod_eq_of_lt (by omega)]
    omega
  · refine List.map_congr_left fun k hk => ?_
    rw [List.mem_range] at hk
    have hwrap : start - first + (last + 1 - start + k) = last + 1 - first + k := by omega
    rw [Function.comp_apply, hwrap, Nat.add_mod_left, Nat.mod_eq_of_lt (by omega)]

/-- The pass starts within the bounds (R136). -/
theorem scanStart_bounds {s : State} (h : s.firstPin ≤ s.lastPin) :
    s.firstPin.toNat ≤ s.scanStart ∧ s.scanStart ≤ s.lastPin.toNat := by
  unfold State.scanStart
  split
  · next hcursor => exact ⟨hcursor.1, hcursor.2.1⟩
  · exact ⟨Nat.le_refl _, h⟩

theorem mem_scanOrder_iff {s : State} (h : s.firstPin ≤ s.lastPin) (p : Nat) :
    p ∈ s.scanOrder ↔ s.firstPin.toNat ≤ p ∧ p ≤ s.lastPin.toNat := by
  have hbounds := scanStart_bounds h
  rw [State.scanOrder, List.mem_append, List.mem_range'_1, List.mem_range'_1]
  omega

/-- Settles O47: the scan order is a cyclic walk through the bounds from `scanStart`. -/
theorem scanOrderVisitsTheBoundsOnce : Obligations.ScanOrderVisitsTheBoundsOnce := by
  intro s h
  obtain ⟨hfirst, hlast⟩ := scanStart_bounds h
  exact ⟨range'_append_range'_eq_map_mod hfirst hlast, scanOrder_nodup s, mem_scanOrder_iff h⟩

/-! ### One pin of a pass -/

theorem after_eq_false_iff (a b : Word) : after a b = false ↔ (a - b).toInt ≤ 0 := by
  rw [← Bool.not_eq_true, after_iff, not_lt]

/-- A visit reads no clock (R138): time passes at the read that follows it. -/
theorem servicePin_ccount (s : State) (p : Nat) (now : Word) : (s.servicePin p now).ccount = s.ccount := by
  have hedge : ∀ (u : State) (duty period : Word) (high : Bool),
      (u.edgeAction p now duty period high).ccount = u.ccount := by
    intro u duty period high
    unfold State.edgeAction
    split_ifs <;> rfl
  unfold State.servicePin
  dsimp only
  split_ifs
  · rfl
  · rfl
  · rw [hedge, modDesc_ccount]

theorem visitPin_of_due {s : State} {p : Nat} (h : 0 ≤ (s.ccount - (s.desc p).nextEventCcy).toInt) :
    s.visitPin p = (s.servicePin p s.ccount).readNow 1 := by
  rw [State.visitPin, if_pos ((reached_iff _ _).mpr h)]

theorem visitPin_of_notDue {s : State} {p : Nat} (h : (s.ccount - (s.desc p).nextEventCcy).toInt < 0) :
    s.visitPin p = s.readNow 1 := by
  rw [State.visitPin, if_neg (mt (reached_iff _ _).mp (not_le.mpr h))]

/-- The visit of a pin: a due one is serviced, and then the counter is read once, at least one cycle later (R138,
R153). -/
theorem visitPin_eq (s : State) (p : Nat) : ∃ n : Nat, 1 ≤ n ∧ n ≤ 2 ^ 31
    ∧ (0 ≤ (s.ccount - (s.desc p).nextEventCcy).toInt → s.visitPin p = { s.servicePin p s.ccount with
        ccount := s.ccount + BitVec.ofNat 32 n, delays := (s.visitPin p).delays, draws := (s.visitPin p).draws })
    ∧ ((s.ccount - (s.desc p).nextEventCcy).toInt < 0 → s.visitPin p = { s with
        ccount := s.ccount + BitVec.ofNat 32 n, delays := (s.visitPin p).delays, draws := (s.visitPin p).draws }) := by
  rcases le_or_gt 0 (s.ccount - (s.desc p).nextEventCcy).toInt with hdue | hearly
  · obtain ⟨n, hpos, hlt, hread⟩ := readNow_eq (s.servicePin p s.ccount) 1
    rw [servicePin_ccount, ← visitPin_of_due hdue] at hread
    exact ⟨n, hpos, by omega, fun _ => hread, fun hearly => absurd hearly (not_lt.mpr hdue)⟩
  · obtain ⟨n, hpos, hlt, hread⟩ := readNow_eq s 1
    rw [← visitPin_of_notDue hearly] at hread
    exact ⟨n, hpos, by omega, fun hdue => absurd hearly (not_lt.mpr hdue), fun _ => hread⟩

section ScanPin

variable {timeout : Word} {a : Scan} {p : Nat}

/-- A pin that is not enabled is passed over (R135). -/
theorem scanPin_of_disabled (h : a.st.isEnabled p = false) : scanPin timeout a p = a :=
  if_neg (by rw [h]; exact Bool.false_ne_true)

theorem scanPin_of_enabled (h : a.st.isEnabled p = true) :
    (scanPin timeout a p).exhausted = (a.exhausted || reached a.st.ccount timeout)
      ∧ (scanPin timeout a p).st = (if (scanPin timeout a p).exhausted then a.st else a.st.visitPin p)
      ∧ (scanPin timeout a p).best = (if (scanPin timeout a p).st.isEnabled p
        then bestOf a.best p ((scanPin timeout a p).st.desc p).nextEventCcy else a.best) := by
  rw [scanPin, if_pos h]
  exact ⟨rfl, rfl, rfl⟩

/-- The test of the budget (R137). -/
theorem exhausted_iff : (a.exhausted || reached a.st.ccount timeout) = true
    ↔ a.exhausted = true ∨ 0 ≤ (a.st.ccount - timeout).toInt := by
  rw [Bool.or_eq_true, reached_iff]

end ScanPin

/-! ### The end of a pass, the repeat and the spin -/

/-- No pin is left enabled (R155). -/
theorem endOfPass_of_none {s : State} {timeout : Word} (h : (s.scanPass timeout).best = none) :
    s.endOfPass timeout = {
      st := (s.scanPass timeout).st
      deadline := (s.scanPass timeout).st.ccount + BitVec.ofNat 32 s.cfg.idleDelayCcys
      again := false } := by
  rw [State.endOfPass]
  dsimp only
  rw [h]

/-- The cursor, the deadline and the test of R157 (R156). -/
theorem endOfPass_of_some {s : State} {timeout : Word} {b : Nat × Word} (h : (s.scanPass timeout).best = some b) :
    s.endOfPass timeout = {
      st := { (s.scanPass timeout).st with cursor := BitVec.ofNat 8 b.1 }
      deadline := b.2
      again := after timeout (s.scanPass timeout).st.ccount && after timeout b.2 } := by
  rw [State.endOfPass]
  dsimp only
  rw [h]

theorem scanLoop_of_last {s : State} {timeout : Word} (n : Nat) (h : (s.endOfPass timeout).again = false) :
    scanLoop n timeout s = s.endOfPass timeout := by
  cases n with
  | zero => rfl
  | succ n => exact if_neg (by rw [h]; exact Bool.false_ne_true)

theorem scanLoop_of_again {s : State} {timeout : Word} (n : Nat) (h : (s.endOfPass timeout).again = true) :
    scanLoop (n + 1) timeout s = scanLoop n timeout (spin (s.endOfPass timeout).st.cfg.isrBudgetCcys
      (s.endOfPass timeout).deadline (s.endOfPass timeout).st) :=
  if_pos h

theorem spin_of_reached {s : State} {deadline : Word} (n : Nat) (h : after deadline s.ccount = false) :
    spin n deadline s = s := by
  cases n with
  | zero => rfl
  | succ n => exact if_neg (by rw [h]; exact Bool.false_ne_true)

theorem spin_of_ahead {s : State} {deadline : Word} (n : Nat) (h : after deadline s.ccount = true) :
    spin (n + 1) deadline s = spin n deadline (s.readNow 1) :=
  if_pos h

/-- Settles O48: a pin of a pass, the end of a pass, the repeat and the spin, each by the branches of its definition. -/
theorem scanPassByCase : Obligations.ScanPassByCase := by
  refine ⟨fun timeout a p => ⟨scanPin_of_disabled, fun hen hout => ?_, fun hen hin => ?_, fun hen => ?_⟩,
    fun s timeout => ⟨rfl, endOfPass_of_none, fun p e hbest => ?_⟩,
    fun n timeout s => ⟨scanLoop_of_last n, scanLoop_of_again n⟩,
    fun n deadline s => ⟨fun hpast => spin_of_reached n ((after_eq_false_iff _ _).mpr hpast), fun hahead => ?_⟩⟩
  · obtain ⟨hexh, hst, _⟩ := scanPin_of_enabled (timeout := timeout) hen
    have hdone := hexh.trans (exhausted_iff.mpr hout)
    exact ⟨hst.trans (if_pos hdone), hdone⟩
  · obtain ⟨hexh, hst, _⟩ := scanPin_of_enabled (timeout := timeout) hen
    have hgoes := hexh.trans (eq_false_of_ne_true (mt exhausted_iff.mp hin))
    have hvisit := hst.trans (if_neg (by rw [hgoes]; exact Bool.false_ne_true))
    rw [hvisit]
    exact ⟨hgoes, visitPin_eq a.st p⟩
  · obtain ⟨_, _, hbest⟩ := scanPin_of_enabled (timeout := timeout) hen
    rw [hbest]
    cases hleft : (scanPin timeout a p).st.isEnabled p with
    | false => rfl
    | true =>
      rw [if_pos rfl, if_neg Bool.true_eq_false.mp]
      cases a.best with
      | none => rfl
      | some m => simp only [bestOf, after_iff]
  · rw [endOfPass_of_some hbest]
    simp only [after, Bool.decide_and]
  · obtain ⟨k, hpos, hlt, hread⟩ := readNow_eq s 1
    exact ⟨k, hpos, by omega, _, hread, spin_of_ahead n ((after_iff _ _).mpr hahead)⟩

end Sys2Proof.Machine
end

section
/-! PROOFS. The end of phase `S4` by the rules' own tests (R157, R162) and the re-arm of phase `S5` (R158 to R161). -/

namespace Sys2Proof.Machine

/-! ### The re-arm -/

theorem askCallback_of_registered {s : State} (h : s.cbRegistered = true) :
    s.askCallback = (some (callbackCcys s.cfg s.callback.1), s.callback.2) :=
  if_pos h

theorem askCallback_of_unregistered {s : State} (h : s.cbRegistered = false) : s.askCallback = (none, s) :=
  if_neg (by rw [h]; exact Bool.false_ne_true)

/-- The sooner of the callback and the edge (R159). -/
theorem rawDelay_some (deadline now : Word) (cb : Nat) :
    rawDelay deadline now (some cb) = min (cb : Int) (deadline - now).toInt := by
  unfold rawDelay
  dsimp only
  split_ifs <;> omega

/-- What follows the callback: the read of the counter, at least one cycle later, and the timer write (R159 to R161). -/
theorem rearm_eq (s : State) (deadline : Word) : ∃ n m : Nat, 1 ≤ n ∧ n ≤ 2 ^ 31 ∧ m < 2 ^ 31
    ∧ let u := s.askCallback.2
      let now := u.ccount + BitVec.ofNat 32 n
      s.rearm deadline = { u with
        ccount := now + BitVec.ofNat 32 m
        tArmed := true
        tFireAt := now + BitVec.ofNat 32 m
          + BitVec.ofNat 32 (clampDelay u.cfg (rawDelay deadline now s.askCallback.1)).toNat
        delays := (s.rearm deadline).delays
        draws := (s.rearm deadline).draws } := by
  obtain ⟨n, hpos, hn, hread⟩ := readNow_eq s.askCallback.2 1
  obtain ⟨m, hm, hleave⟩ := leaveService_eq (s.askCallback.2.readNow 1) (clampDelay (s.askCallback.2.readNow 1).cfg
    (rawDelay deadline (s.askCallback.2.readNow 1).ccount s.askCallback.1)).toNat
  rw [← State.rearm, hread] at hleave
  exact ⟨n, m, hpos, by omega, hm, hleave⟩

/-- The clamp's three ranges exclude each other, since the least re-arm is not above the greatest (R160). -/
theorem clampDelay_cases (c : Cfg) (d : Int) :
    (d - c.irqLatencyCcys < c.minRearmCcys → clampDelay c d = c.minRearmCcys)
      ∧ ((c.maxRearmCcys : Int) < d - c.irqLatencyCcys → clampDelay c d = c.maxRearmCcys)
      ∧ ((c.minRearmCcys : Int) ≤ d - c.irqLatencyCcys → d - c.irqLatencyCcys ≤ c.maxRearmCcys →
        clampDelay c d = d - c.irqLatencyCcys) := by
  obtain ⟨_, _, _, _, _, _, _, _, ⟨_, hle⟩, _⟩ := c.valid
  unfold clampDelay
  dsimp only
  refine ⟨fun hlow => if_pos hlow, fun hhigh => ?_, fun hmin hmax => ?_⟩
  · rw [if_neg (by omega), if_pos hhigh]
  · rw [if_neg (not_lt.mpr hmin), if_neg (not_lt.mpr hmax)]

/-- Settles O51: what precedes the read is the callback or nothing, and the read and the timer write are those of
`rearm_eq`. -/
theorem rearmTakesTheSoonerOfEdgeAndCallback : Obligations.RearmTakesTheSoonerOfEdgeAndCallback := by
  refine ⟨fun s deadline => ⟨fun hcb => ?_, fun hcb => ?_⟩, clampDelay_cases⟩
  · obtain ⟨n, m, hpos, hn, hm, heq⟩ := rearm_eq s deadline
    rw [askCallback_of_unregistered hcb] at heq
    exact ⟨n, m, hpos, hn, hm, heq⟩
  · obtain ⟨n, m, hpos, hn, hm, heq⟩ := rearm_eq s deadline
    obtain ⟨hasked, hgiven, hfree⟩ := callback_eq s
    rw [askCallback_of_registered hcb] at heq
    dsimp only at heq
    rw [rawDelay_some, callback_cfg, callback_ccount] at heq
    have hreplies : (s.rearm deadline).replies = s.callback.2.replies := (congrArg State.replies heq :)
    refine ⟨s.callback.1, n, m, hpos, hn, hm, ?_, ?_, heq.trans ?_⟩
    · rw [hreplies]
      exact hgiven
    · rw [hreplies]
      exact hfree
    · rw [hreplies]
      conv_lhs => rw [hasked]
      rfl

/-! ### The distance to an instant ahead -/

/-- As up to half the counter's range of cycles pass, the signed distance to an instant ahead falls by their number and
does not wrap (R2). -/
theorem toInt_sub_add_ofNat {t now : Word} {d : Nat} (h : 0 < (t - now).toInt) (hd : d ≤ 2 ^ 31) :
    (t - (now + BitVec.ofNat 32 d)).toInt = (t - now).toInt - d := by
  have hlt := (t - now).toInt_lt
  rw [← sub_sub, BitVec.toInt_sub, BitVec.toInt_ofNat', Int.sub_bmod_bmod, Int.bmod_eq_of_le] <;> omega

theorem toInt_sub_of_pos {a b : Word} (ha : 0 < a.toInt) (hb : 0 < b.toInt) : (a - b).toInt = a.toInt - b.toInt := by
  have hlt := a.toInt_lt
  have hlt' := b.toInt_lt
  rw [BitVec.toInt_sub, Int.bmod_eq_of_le] <;> omega

/-- A read brings every instant ahead nearer by the same number of cycles, at least one (R181). -/
theorem readNow_distance (s : State) : ∃ d : Nat, 1 ≤ d ∧ d ≤ 2 ^ 31 ∧ ∀ t : Word, 0 < (t - s.ccount).toInt →
    (t - (s.readNow 1).ccount).toInt = (t - s.ccount).toInt - d := by
  obtain ⟨d, hpos, hlt, hread⟩ := readNow_eq s 1
  refine ⟨d, hpos, by omega, fun t ht => ?_⟩
  rw [congrArg State.ccount hread]
  exact toInt_sub_add_ofNat ht (by omega)

/-- The deadline of a repeat lies before the time-out by as much as the counter's distance to it is shorter (R157). -/
theorem deadline_distance {timeout deadline now : Word} (hnow : after timeout now = true)
    (hdeadline : after timeout deadline = true) :
    (deadline - now).toInt = (timeout - now).toInt - (timeout - deadline).toInt := by
  rw [← toInt_sub_of_pos ((after_iff _ _).mp hnow) ((after_iff _ _).mp hdeadline), sub_sub_sub_cancel_left]

/-! ### What is left of the budget -/

/-- At most `n` cycles are left until `timeout`, and the counter has not run so far past it that the signed difference
would have no opposite. -/
def CyclesLeft (timeout : Word) (n : Nat) (s : State) : Prop :=
  -2 ^ 31 < (timeout - s.ccount).toInt ∧ (timeout - s.ccount).toInt ≤ n

theorem CyclesLeft.mono {timeout : Word} {n m : Nat} {s : State} (h : CyclesLeft timeout n s) (hle : n ≤ m) :
    CyclesLeft timeout m s :=
  ⟨h.1, h.2.trans (Int.ofNat_le.mpr hle)⟩

/-- Every read uses up a cycle of the budget (R162). -/
theorem CyclesLeft.readNow {timeout : Word} {n : Nat} {s : State} (h : CyclesLeft timeout n s)
    (hahead : after timeout s.ccount = true) : CyclesLeft timeout (n - 1) (s.readNow 1) := by
  obtain ⟨_, hle⟩ := h
  obtain ⟨d, hpos, hd, hdist⟩ := readNow_distance s
  have hleft := (after_iff _ _).mp hahead
  unfold CyclesLeft
  rw [hdist timeout hleft]
  omega

/-- The test of R137 and the first test of R157 exclude each other, and one of them holds. -/
theorem CyclesLeft.after_eq_not_reached {timeout : Word} {n : Nat} {s : State} (h : CyclesLeft timeout n s) :
    after timeout s.ccount = !reached s.ccount timeout := by
  obtain ⟨hgt, _⟩ := h
  have hneg : (s.ccount - timeout).toInt = -(timeout - s.ccount).toInt := by
    rw [← neg_sub timeout, BitVec.toInt_neg, Int.bmod_eq_of_le] <;>
      have := (timeout - s.ccount).toInt_lt <;> omega
  rw [after, reached, hneg, ← decide_not, decide_eq_decide]
  omega

theorem CyclesLeft.of_not_after {timeout : Word} {n : Nat} {s : State} (h : CyclesLeft timeout n s)
    (hpast : after timeout s.ccount = false) : CyclesLeft timeout 0 s :=
  ⟨h.1, (after_eq_false_iff _ _).mp hpast⟩

/-! ### The spin -/

/-- A bound no smaller than the distance to the deadline is never used up (R162). -/
theorem spin_reaches {n : Nat} {deadline : Word} {s : State} (h : (deadline - s.ccount).toInt ≤ n) :
    after deadline (spin n deadline s).ccount = false := by
  induction n generalizing s with
  | zero => exact (after_eq_false_iff _ _).mpr h
  | succ n ih =>
    cases hahead : after deadline s.ccount with
    | false => rwa [spin_of_reached _ hahead]
    | true =>
      obtain ⟨d, hpos, _, hdist⟩ := readNow_distance s
      rw [spin_of_ahead n hahead]
      refine ih ?_
      rw [hdist deadline ((after_iff _ _).mp hahead)]
      omega

/-- The spin to a deadline before the time-out outruns the budget by its last read alone. -/
theorem CyclesLeft.spin {timeout deadline : Word} {n : Nat} (hdeadline : after timeout deadline = true) (k : Nat)
    {s : State} (hnow : after timeout s.ccount = true) (h : CyclesLeft timeout n s) :
    CyclesLeft timeout n (spin k deadline s) := by
  induction k generalizing s with
  | zero => exact h
  | succ k ih =>
    cases hahead : after deadline s.ccount with
    | false => rwa [spin_of_reached _ hahead]
    | true =>
      have hread : CyclesLeft timeout n (s.readNow 1) := (h.readNow hnow).mono (Nat.sub_le n 1)
      rw [spin_of_ahead k hahead]
      cases hstill : after deadline (s.readNow 1).ccount with
      | false => rwa [spin_of_reached _ hstill]
      | true =>
        refine ih ((after_iff _ _).mpr ?_) hread
        obtain ⟨d, _, _, hdist⟩ := readNow_distance s
        have hbefore := deadline_distance hnow hdeadline
        rw [after_iff] at hnow hdeadline hahead hstill
        rw [hdist deadline hahead] at hstill
        rw [hdist timeout hnow]
        omega

/-! ### A pass -/

theorem visitPin_cyclesLeft {timeout : Word} {n : Nat} {s : State} (h : CyclesLeft timeout n s)
    (hahead : after timeout s.ccount = true) (p : Nat) : CyclesLeft timeout (n - 1) (s.visitPin p) := by
  unfold State.visitPin
  split
  · rw [← servicePin_ccount s p s.ccount] at hahead
    refine CyclesLeft.readNow ?_ hahead
    rwa [CyclesLeft, servicePin_ccount]
  · exact h.readNow hahead

/-- A pass in progress leaves no more cycles than it began with, and fewer once a pin has been looked at: either the
budget was found spent, or the counter was read (R162). -/
def PassUsesCycles (timeout : Word) (n : Nat) (a : Scan) : Prop :=
  CyclesLeft timeout n a.st ∧ (a.exhausted = true ∨ a.best ≠ none → CyclesLeft timeout (n - 1) a.st)

theorem PassUsesCycles.of_less {timeout : Word} {n : Nat} {a : Scan} (h : CyclesLeft timeout (n - 1) a.st) :
    PassUsesCycles timeout n a :=
  ⟨h.mono (Nat.sub_le n 1), fun _ => h⟩

theorem PassUsesCycles.scanPin {timeout : Word} {n : Nat} {a : Scan} (h : PassUsesCycles timeout n a) (p : Nat) :
    PassUsesCycles timeout n (scanPin timeout a p) := by
  obtain ⟨hleft, hless⟩ := h
  cases hen : a.st.isEnabled p with
  | false => rw [scanPin_of_disabled hen]; exact ⟨hleft, hless⟩
  | true =>
    obtain ⟨hexh, hst, _⟩ := scanPin_of_enabled (timeout := timeout) hen
    have hahead := hleft.after_eq_not_reached
    refine .of_less ?_
    rw [hst, hexh]
    cases hspent : a.exhausted with
    | true => exact hless (.inl hspent)
    | false =>
      cases hreached : reached a.st.ccount timeout with
      | true => exact (hleft.of_not_after (by rw [hahead, hreached]; rfl)).mono (Nat.zero_le _)
      | false => exact visitPin_cyclesLeft hleft (by rw [hahead, hreached]; rfl) p

theorem PassUsesCycles.foldl {timeout : Word} {n : Nat} (l : List Nat) {a : Scan} (h : PassUsesCycles timeout n a) :
    PassUsesCycles timeout n (l.foldl (Machine.scanPin timeout) a) := by
  induction l generalizing a with
  | nil => exact h
  | cons p l ih => exact ih (h.scanPin p)

theorem PassUsesCycles.scanPass {timeout : Word} {n : Nat} {s : State} (h : CyclesLeft timeout n s) :
    PassUsesCycles timeout n (s.scanPass timeout) :=
  .foldl s.scanOrder ⟨h, fun hno => by simp at hno⟩

/-! ### The repeat -/

/-- A pass that is to be repeated has used up a cycle of the budget, has not spent it, and its deadline lies before the
budget's end (R157, R162). -/
theorem endOfPass_of_again {timeout : Word} {n : Nat} {s : State} (h : CyclesLeft timeout n s)
    (hagain : (s.endOfPass timeout).again = true) :
    CyclesLeft timeout (n - 1) (s.endOfPass timeout).st
      ∧ after timeout (s.endOfPass timeout).st.ccount = true
      ∧ after timeout (s.endOfPass timeout).deadline = true := by
  cases hbest : (s.scanPass timeout).best with
  | none =>
    rw [endOfPass_of_none hbest] at hagain
    exact absurd hagain Bool.false_ne_true
  | some b =>
    rw [endOfPass_of_some hbest] at hagain ⊢
    obtain ⟨hnow, hdeadline⟩ := (Bool.and_eq_true_iff).mp hagain
    obtain ⟨_, hless⟩ := PassUsesCycles.scanPass h
    exact ⟨hless (.inr (by rw [hbest]; exact Option.some_ne_none b)), hnow, hdeadline⟩

/-- A bound no smaller than the cycles left is never used up (R162). -/
theorem scanLoop_ends {timeout : Word} {n : Nat} {s : State} (h : CyclesLeft timeout n s) :
    (scanLoop n timeout s).again = false := by
  induction n generalizing s with
  | zero =>
    refine eq_false_of_ne_true fun hagain => ?_
    obtain ⟨⟨_, hspent⟩, hahead, _⟩ := endOfPass_of_again h hagain
    exact absurd ((after_iff _ _).mp hahead) (not_lt.mpr hspent)
  | succ n ih =>
    cases hagain : (s.endOfPass timeout).again with
    | false => rwa [scanLoop_of_last _ hagain]
    | true =>
      obtain ⟨hless, hnow, hdeadline⟩ := endOfPass_of_again h hagain
      rw [scanLoop_of_again n hagain]
      exact ih (hless.spin hdeadline _ hnow)

/-- The budget counts from `isrStart`, and the read before the first pass has used up a cycle of it (R121, R130). -/
theorem beginService_cyclesLeft (s : State) :
    CyclesLeft (s.beginService.1 + BitVec.ofNat 32 s.cfg.isrBudgetCcys) s.cfg.isrBudgetCcys s.beginService.2 := by
  obtain ⟨_, _, _, _, _, _, ⟨hpos, hlt⟩, _⟩ := s.cfg.valid
  have hwhole : (s.beginService.1 + BitVec.ofNat 32 s.cfg.isrBudgetCcys - s.beginService.1).toInt
      = s.cfg.isrBudgetCcys := by
    rw [add_sub_cancel_left, toInt_ofNat_of_lt _ (by omega)]
  have hstart : ((s.enterService.readNow 0).applyRequests.resolveSet (s.enterService.readNow 0).ccount).ccount
      = s.beginService.1 := by
    rw [resolveSet_ccount, applyRequests_ccount]
    rfl
  rw [← hstart] at hwhole ⊢
  refine CyclesLeft.mono (CyclesLeft.readNow ⟨?_, hwhole.le⟩ ((after_iff _ _).mpr ?_)) (Nat.sub_le _ 1) <;> omega

/-- Settles O50: each bound is at least the distance, in cycles, to the instant at which the rule's own test fails. -/
theorem scanLoopEndsByItsOwnTest : Obligations.ScanLoopEndsByItsOwnTest := by
  refine ⟨fun s => scanLoop_ends (beginService_cyclesLeft s), fun s timeout deadline hbudget hnow hdeadline => ?_⟩
  refine spin_reaches ?_
  rw [deadline_distance hnow hdeadline]
  rw [after_iff] at hnow hdeadline
  obtain ⟨_, hlt⟩ := toNat_bounds_of_toInt_pos hnow
  rw [BitVec.toInt_eq_toNat_of_lt (by omega)]
  omega

end Sys2Proof.Machine
end

section
/-! PROOFS. The single-shot timer: its four operations (R183 to R185), and when it fires (R186). -/

namespace Sys2Proof.Machine

/-! ### The operations -/

theorem timerRemaining_of_armed {s : State} (h : s.tArmed = true) :
    s.timerRemaining = (s.tFireAt - s.ccount).toInt.toNat :=
  if_pos h

theorem timerRemaining_of_unarmed {s : State} (h : s.tArmed = false) : s.timerRemaining = 0 :=
  if_neg (ne_true_of_eq_false h)

/-- A count of less than half the counter's range reads back as it was written, wherever the counter wraps (R184). -/
theorem timerRemaining_timerWrite (s : State) {n : Nat} (hn : n < 2 ^ 31) : (s.timerWrite n).timerRemaining = n := by
  rw [timerRemaining_of_armed (timerWrite_tArmed s n), timerWrite_tFireAt, timerWrite_ccount, add_sub_cancel_left,
    toInt_ofNat_of_lt n hn, Int.toNat_natCast]

/-- Settles O32: the operations write what R183 and R185 say, and the count reads as the cycles left, or 0 unarmed. -/
theorem timerPrimitives : Obligations.TimerPrimitives := by
  refine fun s => ⟨fun _ => rfl, fun n _ hn => timerRemaining_timerWrite s hn, fun harmed => ?_,
    timerRemaining_of_unarmed, rfl, rfl⟩
  rw [timerRemaining_of_armed harmed, Int.toNat_eq_max, max_comm]

/-! ### When the timer fires -/

theorem elapse_of_unarmed {s : State} (n : Nat) (h : s.tArmed = false) :
    s.elapse n = { s with ccount := s.ccount + BitVec.ofNat 32 n } :=
  if_neg fun hfires => ne_true_of_eq_false h hfires.1

theorem elapse_of_early {s : State} {n : Nat} (h : n < s.untilFire) :
    s.elapse n = { s with ccount := s.ccount + BitVec.ofNat 32 n } :=
  if_neg fun hfires => Nat.not_le_of_lt h hfires.2

theorem elapse_of_fires {s : State} {n : Nat} (harmed : s.tArmed = true) (h : s.untilFire ≤ n) :
    s.elapse n = { s with ccount := s.ccount + BitVec.ofNat 32 n, tArmed := false, svcPending := true } :=
  if_pos ⟨harmed, h⟩

/-- The counter moves by the sum, modulo its range (R180). -/
theorem add_ofNat_add (w : Word) (m n : Nat) :
    w + BitVec.ofNat 32 m + BitVec.ofNat 32 n = w + BitVec.ofNat 32 (m + n) := by
  rw [add_assoc, BitVec.ofNat_add]

/-- The instant of an armed timer lies in the first part of the time, in the second, or past both; in each case it fires
at most once, and where it would without the pause. -/
theorem elapse_elapse (s : State) (m n : Nat) : (s.elapse m).elapse n = s.elapse (m + n) := by
  cases harmed : s.tArmed with
  | false =>
    have harmed' : (s.elapse m).tArmed = false := by rwa [elapse_of_unarmed m harmed]
    rw [elapse_of_unarmed n harmed', elapse_of_unarmed m harmed, elapse_of_unarmed (m + n) harmed, add_ofNat_add]
  | true =>
    obtain hfirst | hlater := le_or_gt s.untilFire m
    · rw [elapse_of_fires harmed hfirst, elapse_of_unarmed n rfl, elapse_of_fires harmed (by omega), add_ofNat_add]
    · have harmed' : (s.elapse m).tArmed = true := by rwa [elapse_of_early hlater]
      have hleft : (s.elapse m).untilFire + m = s.untilFire := elapse_untilFire harmed harmed'
      obtain hsecond | hpast := le_or_gt (s.elapse m).untilFire n
      · rw [elapse_of_fires harmed' hsecond, elapse_of_early hlater, elapse_of_fires harmed (by omega), add_ofNat_add]
      · rw [elapse_of_early hpast, elapse_of_early hlater, elapse_of_early (by omega), add_ofNat_add]

/-- Settles O33: what time does to the timer early, at its instant and unarmed, and that it adds up. -/
theorem timerFiresOncePerArming : Obligations.TimerFiresOncePerArming :=
  ⟨fun _ _ _ => elapse_of_early, fun _ _ => elapse_of_fires, fun _ n => elapse_of_unarmed n, elapse_elapse⟩

end Sys2Proof.Machine
end
